-- ==== Sys2Proof/Word.lean ====
section
/-! DEFINITION. The bit widths the spec fixes (00_scope.md R8, R9): bytes, the 16-bit MDIO data, the 32-bit CRC
and counters, the 5-bit PHY and register addresses. Lengths, indices and capacities are natural numbers. -/

namespace Sys2Proof

/-- u8 (R9). -/
abbrev Byte := BitVec 8

/-- u16: MDIO data (R8). -/
abbrev Half := BitVec 16

/-- u32: the CRC and the statistics counters (R8, R37). -/
abbrev Word := BitVec 32

/-- u5: PHY address and register address (R8). -/
abbrev U5 := BitVec 5

end Sys2Proof
end

