-- ==== Sys2Proof/Config.lean ====
section
/-! DEFINITION. The parameters of 00_scope.md R7 and the configuration surface of 10_state.md R41 (the record `Cfg`,
INIT's operand), the constants reported upstream, and the free values of the environment: opaque constants,
which no proof can look into (93_implementation_defined.md U6, U7, U11, U12, U21, U27; log 33, 34). -/

namespace Sys2Proof

/-- CFG_PINS (R41): which pins and which peripheral instance carry the interfaces. Opaque numbers; no rule reads them
(92_eei_decisions.md D33). R54 calls the DMA channel numbers configuration too, but R41's list has none and no rule reads one:
the model's choice is to hold none (log 9). -/
structure CfgPins where
  peripheral : Nat
  seqFirst : Nat
  seqLast : Nat
  rxBase : Nat
  txBase : Nat
  mdioBase : Nat
  refClock : Nat
  deriving DecidableEq, Repr, Inhabited

/-- The parameters of R7 that a model takes as arguments, and the configuration surface of R41. -/
structure Cfg where
  /-- `N`, the number of frame slots. -/
  n : Nat
  /-- `LWM`, the reserved low-water mark. -/
  lwm : Nat
  /-- `SLOT_CAP`, the capacity of one slot in bytes. -/
  slotCap : Nat
  /-- `TX_CAP`, the capacity of TXBUF in bytes. -/
  txCap : Nat
  /-- `STATS_EN`. -/
  statsEn : Bool
  /-- `DUAL_RX`. -/
  dualRx : Bool
  /-- `PHY_ADDR_DEFAULT`. -/
  phyAddrDefault : U5
  /-- `HWADDR`, six bytes. -/
  hwaddr : BitVec 48
  /-- `CFG_PINS`. -/
  pins : CfgPins
  /-- `SEM_TIMEOUT` (log 25: no rule depends on it). -/
  semTimeout : Nat
  /-- `LINK_POLL_INTERVAL` (log 25). -/
  linkPollInterval : Nat
  /-- `T_MDIO` in microseconds (log 25). -/
  tMdio : Nat
  deriving DecidableEq, Repr

/-- `DUMMY_CAP` is `SLOT_CAP` (R7, decided D21). -/
abbrev Cfg.dummyCap (c : Cfg) : Nat := c.slotCap

/-- What the host's `input` call does when POLL enters or looks at it (R56, R55). -/
inductive InputAnswer where
  /-- the call returns success -/
  | ok
  /-- the call returns a failure -/
  | fail
  /-- the call has not returned yet; the host may call TX.SEND from inside it (R55) -/
  | stays
  deriving DecidableEq, Repr, Inhabited

namespace Config

/-- `MTU` (R7): reported upstream, read by no datapath rule. -/
def mtu : Nat := 1500

/-- `TX_MIN` (R7): the minimum frame length before the FCS. -/
def txMin : Nat := 60

/-- `CAPS` (R7): the capability flags reported upstream. -/
structure Caps where
  broadcast : Bool
  arp : Bool
  ethernet : Bool
  multicast : Bool
  deriving DecidableEq, Repr

/-- The four named flags, set (R7). -/
def caps : Caps := ⟨true, true, true, true⟩

/-- PHY_ADDR_DEFAULT, an OPEN parameter (R7, D12). -/
opaque phyAddrDefault : U5
/-- HWADDR, caller-supplied (R7, D33). -/
opaque hwaddr : BitVec 48
/-- CFG_PINS (R41, D33). -/
opaque pins : CfgPins
/-- SEM_TIMEOUT, OPEN (D24). -/
opaque semTimeout : Nat
/-- LINK_POLL_INTERVAL, OPEN (D13). -/
opaque linkPollInterval : Nat
/-- T_MDIO, OPEN with the lower bound 1 µs (D10): what it has above that bound. -/
opaque tMdioExcess : Nat

/-- FREE: the level on the released data line (R50, `draw s : 1 bit`; log 6). -/
opaque phyLevel : Nat → Bool
/-- FREE: the host's answer to `alloc`, true for ok (R56; log 7). -/
opaque allocOk : Nat → Bool
/-- FREE: the host's answer to `input` (R56; log 7). -/
opaque inputAnswer : Nat → InputAnswer
/-- FREE: whether an empty-semaphore wait ends in Timeout now (R236; log 8). -/
opaque timesOut : Nat → Bool
/-- FREE: whether the other agent moves now (R306; log 5). -/
opaque otherMoves : Nat → Bool
/-- FREE: whether the poll loop's interval has elapsed (R306, D13; log 34). -/
opaque intervalElapsed : Nat → Bool
/-- FREE: what TX_LEN reads as when the length needs more than its 16 bits (R42; log 33). -/
opaque wideTxLen : Nat → Half

end Config

/-- The reference configuration: the values R7 gives or decides; the OPEN parameters are opaque constants (log 9). -/
def Cfg.reference : Cfg where
  n := 4
  lwm := 2
  slotCap := 1524
  txCap := 1524
  statsEn := true
  dualRx := false
  phyAddrDefault := Config.phyAddrDefault
  hwaddr := Config.hwaddr
  pins := Config.pins
  semTimeout := Config.semTimeout
  linkPollInterval := Config.linkPollInterval
  tMdio := Config.tMdioExcess + 1

end Sys2Proof
end

