-- ==== Sys2Proof/Syntax.lean ====
section
/-! DEFINITION. The operations and events of 30_encoding.md R100 and the two wire frames of R104: one constructor per row of
spec/opcode_table.json, with the operand types of R103. -/

namespace Sys2Proof

/-- The regions of 10_state.md R40 that an operand can name. Host fragments are operands of TX.SEND (log 26). -/
inductive Region where
  /-- the transmit scratch buffer TXBUF -/
  | txbuf
  /-- frame slot i, SLOT[i] -/
  | slot (i : Nat)
  /-- the scratch capture target DUMMY -/
  | dummy
  /-- the host buffer RX.CONSUME has allocated, HBUF -/
  | hbuf
  /-- the k-th buffer of a caller of CRC.APPEND or CRC.VERIFY -/
  | caller (k : Nat)
  deriving DecidableEq, Repr

/-- R100; the last two are the rows of format MDIOF (R104, R119). -/
inductive Instr where
  | crcAppend (buf : Region) (len : Nat)
  | crcVerify (buf : Region) (totalLen : Nat)
  | mdioRead (addr reg : U5)
  | mdioWrite (addr reg : U5) (val : Half)
  | phyScan
  | linkPoll
  | statsReport
  | txSend (frags : List (List Byte)) (totalLen : Nat)
  | rxConsume
  | init (cfg : Cfg)
  | rxByte (b : Byte)
  | rxBoundary
  | txDmaByte
  | mdioReadFrame (addr reg : U5)
  | mdioWriteFrame (addr reg : U5) (val : Half)
  deriving DecidableEq, Repr

end Sys2Proof
end

