-- ==== Sys2Proof/WellFormed.lean ====
section
/-! DEFINITION. Which terms of `Instr` are well formed: INIT's parameters are legal (00_scope.md R7, 70_reset_and_hazards.md
R298), and every number fits the operand words of the model's request records (log 1). The 5-bit, 16-bit and 8-bit
operands carry their bound in their type (30_encoding.md R103). -/

namespace Sys2Proof

/-- Operand words are 32 bits wide (log 1). -/
abbrev wordBound : Nat := 2 ^ 32

/-- The bounds R7 and R298 put on the parameters. `DUAL_RX` is legal as a parameter; INIT refuses it (R249). -/
def Cfg.legal (c : Cfg) : Bool :=
  decide (2 ≤ c.lwm) && decide (c.lwm ≤ 3) && decide (c.lwm + 1 ≤ c.n) && decide (1524 ≤ c.slotCap)
    && decide (64 ≤ c.txCap) && decide (1 ≤ c.tMdio)

/-- The parameters fit INIT's operand words, which hold some of them as excess over the least legal value (log 10). R7 gives
no upper bound: this is the record form's own, and no bound of `execInit`. -/
def Cfg.fits (c : Cfg) : Bool :=
  [c.n - (c.lwm + 1), c.slotCap - 1524, c.txCap - 64, c.pins.peripheral, c.pins.seqFirst, c.pins.seqLast, c.pins.rxBase, c.pins.txBase,
    c.pins.mdioBase, c.pins.refClock, c.semTimeout, c.linkPollInterval, c.tMdio - 1].all fun x => decide (x < wordBound)

/-- A region's index fits its operand word. -/
def Region.wf : Region → Bool
  | .slot i => decide (i < wordBound)
  | .caller k => decide (k < wordBound)
  | .txbuf => true
  | .dummy => true
  | .hbuf => true

/-- The check of one instruction; no wildcard. -/
def Instr.wf : Instr → Bool
  | .crcAppend buf len => buf.wf && decide (len < wordBound)
  | .crcVerify buf totalLen => buf.wf && decide (totalLen < wordBound)
  | .mdioRead _ _ => true
  | .mdioWrite _ _ _ => true
  | .phyScan => true
  | .linkPoll => true
  | .statsReport => true
  | .txSend frags totalLen =>
      decide (totalLen < wordBound) && decide (frags.length < wordBound) &&
        frags.all fun f => decide (f.length < wordBound)
  | .rxConsume => true
  | .init cfg => cfg.legal && cfg.fits
  | .rxByte _ => true
  | .rxBoundary => true
  | .txDmaByte => true
  | .mdioReadFrame _ _ => true
  | .mdioWriteFrame _ _ _ => true

end Sys2Proof
end

