-- ==== Sys2Proof/Decode.lean ====
section
/-! DEFINITION. The decoder of request records, total on any bytes and rejecting by name, and after it the encoder.
The selectors are 30_encoding.md R102, the wire words R105 and R111. The spec keeps operands as separate typed fields
(R102); their byte form in a record (32-bit little-endian operand words) is the model's own (log 1), so that a
value outside an operand's type can be presented, and is refused, not truncated (R113). -/

namespace Sys2Proof

/-- Why a record is not an operation of the block. -/
inductive DecodeError where
  /-- the record ends before its operands do, or goes on after them (log 1) -/
  | malformed
  /-- the selector names no operation (R102, R113) -/
  | reservedSelector (sel : Nat)
  /-- an operand is outside its type (R113) -/
  | operandOutOfType
  /-- an MDIO frame whose ST, OP or turnaround the block never generates (R112) -/
  | frameNeverGenerated
  deriving DecidableEq, Repr

/-- What a parser answers: a value and the rest of the record. -/
abbrev Parsed (α : Type) := Except DecodeError (α × List Byte)

/-- Go on with the value and the rest. -/
def Parsed.andThen {α β : Type} (p : Parsed α) (k : α → List Byte → Parsed β) : Parsed β :=
  match p with
  | .ok (a, rest) => k a rest
  | .error e => .error e

/-- Finish with one value. -/
def done {α : Type} (a : α) (rest : List Byte) : Parsed α := .ok (a, rest)

/-! ### Operand words -/

/-- Number from bytes, lowest first. -/
def leNat : List Byte → Nat
  | [] => 0
  | b :: bs => b.toNat + 256 * leNat bs

/-- The k lowest bytes of a number, lowest first. -/
def leBytes : Nat → Nat → List Byte
  | 0, _ => []
  | k + 1, n => BitVec.ofNat 8 n :: leBytes k (n / 256)

/-- One operand word. -/
def word (n : Nat) : List Byte := leBytes 4 n

/-- Take k bytes. -/
def readRaw (k : Nat) (r : List Byte) : Parsed (List Byte) :=
  if r.length < k then .error .malformed else .ok (r.take k, r.drop k)

/-- One operand word. -/
def readWord (r : List Byte) : Parsed Nat :=
  (readRaw 4 r).andThen fun bs rest => done (leNat bs) rest

/-- An operand of w bits: a larger number is refused, never truncated (R113). -/
def readBits (w : Nat) (r : List Byte) : Parsed (BitVec w) :=
  (readWord r).andThen fun n rest =>
    if n < 2 ^ w then done (BitVec.ofNat w n) rest else .error .operandOutOfType

/-- A flag operand: 0 or 1. -/
def readFlag (r : List Byte) : Parsed Bool :=
  (readWord r).andThen fun n rest =>
    if n = 0 then done false rest else if n = 1 then done true rest else .error .operandOutOfType

/-- A flag's operand word. -/
def flagWord (b : Bool) : List Byte := word (if b then 1 else 0)

/-- A region operand: kind and index; TXBUF, DUMMY and HBUF have index 0. -/
def readRegion (r : List Byte) : Parsed Region :=
  (readWord r).andThen fun kind rest => (readWord rest).andThen fun i rest =>
    if kind = 0 ∧ i = 0 then done .txbuf rest
    else if kind = 1 then done (.slot i) rest
    else if kind = 2 ∧ i = 0 then done .dummy rest
    else if kind = 3 then done (.caller i) rest
    else if kind = 4 ∧ i = 0 then done .hbuf rest
    else .error .operandOutOfType

/-- A region's two operand words. -/
def regionWords : Region → List Byte
  | .txbuf => word 0 ++ word 0
  | .slot i => word 1 ++ word i
  | .dummy => word 2 ++ word 0
  | .caller k => word 3 ++ word k
  | .hbuf => word 4 ++ word 0

/-- k fragments, each a length word and its bytes. -/
def readFrags : Nat → List Byte → Parsed (List (List Byte))
  | 0, r => done [] r
  | k + 1, r =>
    (readWord r).andThen fun len rest => (readRaw len rest).andThen fun f rest =>
      (readFrags k rest).andThen fun fs rest => done (f :: fs) rest

/-- The fragments' bytes in a record. -/
def fragBytes : List (List Byte) → List Byte
  | [] => []
  | f :: fs => word f.length ++ f ++ fragBytes fs

/-! ### INIT's operand: the parameters as excess over their least legal value, so that zero words are a legal
configuration (log 10) -/

/-- CFG_PINS. -/
def readPins (r : List Byte) : Parsed CfgPins :=
  (readWord r).andThen fun a r => (readWord r).andThen fun b r => (readWord r).andThen fun c r =>
  (readWord r).andThen fun d r => (readWord r).andThen fun e r => (readWord r).andThen fun f r =>
  (readWord r).andThen fun g r => done ⟨a, b, c, d, e, f, g⟩ r

/-- CFG_PINS' operand words. -/
def pinsWords (p : CfgPins) : List Byte :=
  word p.peripheral ++ word p.seqFirst ++ word p.seqLast ++ word p.rxBase ++ word p.txBase ++ word p.mdioBase ++
    word p.refClock

/-- Parameters outside the bounds of R7 and R298 are refused. There is no upper bound but LWM's: every word is some legal
excess (log 10). -/
def checkCfg (c : Cfg) (rest : List Byte) : Parsed Cfg :=
  if c.legal then done c rest else .error .operandOutOfType

/-- INIT's operand. -/
def readCfg (r : List Byte) : Parsed Cfg :=
  (readWord r).andThen fun lwm r => (readWord r).andThen fun n r => (readWord r).andThen fun slot r =>
  (readWord r).andThen fun tx r => (readFlag r).andThen fun statsOff r => (readFlag r).andThen fun dual r =>
  (readBits 5 r).andThen fun phy r => (readBits 32 r).andThen fun hwLow r => (readBits 16 r).andThen fun hwHigh r =>
  (readPins r).andThen fun pins r => (readWord r).andThen fun sem r => (readWord r).andThen fun link r =>
  (readWord r).andThen fun mdio r =>
    checkCfg
      { n := lwm + 2 + 1 + n, lwm := lwm + 2, slotCap := 1524 + slot, txCap := 64 + tx, statsEn := !statsOff,
        dualRx := dual, phyAddrDefault := phy, hwaddr := hwHigh ++ hwLow, pins := pins, semTimeout := sem,
        linkPollInterval := link, tMdio := mdio + 1 } r

/-- INIT's operand words. -/
def cfgWords (c : Cfg) : List Byte :=
  word (c.lwm - 2) ++ word (c.n - (c.lwm + 1)) ++ word (c.slotCap - 1524) ++ word (c.txCap - 64) ++
    flagWord (!c.statsEn) ++ flagWord c.dualRx ++ word c.phyAddrDefault.toNat ++
    word (c.hwaddr.extractLsb' 0 32).toNat ++ word (c.hwaddr.extractLsb' 32 16).toNat ++ pinsWords c.pins ++
    word c.semTimeout ++ word c.linkPollInterval ++ word (c.tMdio - 1)

/-! ### The MDIO frame word W (R105, R111) -/

/-- W of a read frame; the released cells are written as zeros (R105, R120). -/
def readFrameWord (addr reg : U5) : Word := 0b01#2 ++ 0b10#2 ++ addr ++ reg ++ 0#18

/-- W of a write frame (R105). -/
def writeFrameWord (addr reg : U5) (val : Half) : Word := 0b01#2 ++ 0b01#2 ++ addr ++ reg ++ 0b10#2 ++ val

/-- The two frames the block generates; any other pattern is refused (R111, R112). -/
def frameOfWord (w : Word) (rest : List Byte) : Parsed Instr :=
  if w &&& 0xF0000000#32 = 0x60000000#32 then
    done (.mdioReadFrame (w.extractLsb' 23 5) (w.extractLsb' 18 5)) rest
  else if w &&& 0xF0030000#32 = 0x50020000#32 then
    done (.mdioWriteFrame (w.extractLsb' 23 5) (w.extractLsb' 18 5) (w.extractLsb' 0 16)) rest
  else .error .frameNeverGenerated

/-- Eight cells of preamble, all driven 1 (R104). -/
abbrev preambleByte : Byte := 0xFF#8

/-- W as it goes over the wire: first cell in the highest bit (R105). -/
def wireBytes (w : Word) : List Byte :=
  [w.extractLsb' 24 8, w.extractLsb' 16 8, w.extractLsb' 8 8, w.extractLsb' 0 8]

/-- A record of format MDIOF: 32 preamble cells, then W (log 2). Its first byte, 0xFF, is a reserved selector, so a record
that does not go on as a frame is refused as such (R113). -/
def parseFrame : List Byte → Parsed Instr
  | p1 :: p2 :: p3 :: b3 :: b2 :: b1 :: b0 :: rest =>
    if p1 = preambleByte ∧ p2 = preambleByte ∧ p3 = preambleByte then frameOfWord (b3 ++ b2 ++ b1 ++ b0) rest
    else .error (.reservedSelector 0xFF)
  | _ => .error (.reservedSelector 0xFF)

/-! ### Records -/

/-- A record of format CMD (R102): the selector chooses the operation, then come its operands (R103). -/
def parseCmd (sel : Nat) (r : List Byte) : Parsed Instr :=
  match sel with
  | 0x01 => (readRegion r).andThen fun b r => (readWord r).andThen fun len r => done (.crcAppend b len) r
  | 0x02 => (readRegion r).andThen fun b r => (readWord r).andThen fun len r => done (.crcVerify b len) r
  | 0x03 => (readBits 5 r).andThen fun a r => (readBits 5 r).andThen fun g r => done (.mdioRead a g) r
  | 0x04 => (readBits 5 r).andThen fun a r => (readBits 5 r).andThen fun g r =>
      (readBits 16 r).andThen fun v r => done (.mdioWrite a g v) r
  | 0x05 => done .phyScan r
  | 0x06 => done .linkPoll r
  | 0x07 => done .statsReport r
  | 0x08 => (readWord r).andThen fun total r => (readWord r).andThen fun k r =>
      (readFrags k r).andThen fun fs r => done (.txSend fs total) r
  | 0x09 => done .rxConsume r
  | 0x0A => (readCfg r).andThen fun c r => done (.init c) r
  | 0x10 => (readBits 8 r).andThen fun b r => done (.rxByte b) r
  | 0x11 => done .rxBoundary r
  | 0x12 => done .txDmaByte r
  | _ => .error (.reservedSelector sel)

/-- Read one record from the front of some bytes. -/
def parse : List Byte → Parsed Instr
  | [] => .error .malformed
  | sel :: r => if sel = preambleByte then parseFrame r else parseCmd sel.toNat r

/-- Read one record: the instruction must take all of it. -/
def decode (r : List Byte) : Except DecodeError Instr :=
  match parse r with
  | .ok (i, []) => .ok i
  | .ok (_, _ :: _) => .error .malformed
  | .error e => .error e

/-! ### The encoder -/

/-- The CMD selector (R102); the first byte of a frame record is preamble (R104). -/
def selector : Instr → Byte
  | .crcAppend _ _ => 0x01#8
  | .crcVerify _ _ => 0x02#8
  | .mdioRead _ _ => 0x03#8
  | .mdioWrite _ _ _ => 0x04#8
  | .phyScan => 0x05#8
  | .linkPoll => 0x06#8
  | .statsReport => 0x07#8
  | .txSend _ _ => 0x08#8
  | .rxConsume => 0x09#8
  | .init _ => 0x0A#8
  | .rxByte _ => 0x10#8
  | .rxBoundary => 0x11#8
  | .txDmaByte => 0x12#8
  | .mdioReadFrame _ _ => preambleByte
  | .mdioWriteFrame _ _ _ => preambleByte

/-- What follows the first byte. -/
def operandBytes : Instr → List Byte
  | .crcAppend b len => regionWords b ++ word len
  | .crcVerify b len => regionWords b ++ word len
  | .mdioRead a g => word a.toNat ++ word g.toNat
  | .mdioWrite a g v => word a.toNat ++ word g.toNat ++ word v.toNat
  | .phyScan => []
  | .linkPoll => []
  | .statsReport => []
  | .txSend fs total => word total ++ word fs.length ++ fragBytes fs
  | .rxConsume => []
  | .init c => cfgWords c
  | .rxByte b => word b.toNat
  | .rxBoundary => []
  | .txDmaByte => []
  | .mdioReadFrame a g => List.replicate 3 preambleByte ++ wireBytes (readFrameWord a g)
  | .mdioWriteFrame a g v => List.replicate 3 preambleByte ++ wireBytes (writeFrameWord a g v)

/-- The record of an instruction. -/
def encode (i : Instr) : List Byte := selector i :: operandBytes i

/-! ### The table's own numbering of bits -/

/-- Enough zero bytes for the operands of any row (log 3). -/
def zeroOperands : List Byte := List.replicate 96 0#8

/-- The bytes of a table row's word w of nbits bits. CMD rows are 8 bits, low byte first. For the MDIOF rows the table's
match and mask are over W (30_encoding.md R119), the last 32 cells; the 32 preamble cells stand before it,
and above it when w is the whole 64-cell pattern (log 3). -/
def tableBytes (nbits w : Nat) : Option (List Byte) :=
  if 2 ^ nbits ≤ w then none
  else if 32 ≤ nbits then
    if w / 2 ^ 32 = 0 ∨ w / 2 ^ 32 = 0xFFFFFFFF then
      some (List.replicate 4 preambleByte ++ wireBytes (BitVec.ofNat 32 w))
    else none
  else some (leBytes ((nbits + 7) / 8) w ++ zeroOperands)

/-- The record of a table row's word: exactly the bytes its instruction takes. -/
def tableRecord (nbits w : Nat) : List Byte :=
  match tableBytes nbits w with
  | none => []
  | some bs =>
    match parse bs with
    | .ok (_, rest) => bs.take (bs.length - rest.length)
    | .error _ => bs

/-- The instruction the decoder reads from a table row's word, operand words zero. -/
def decodeTableWord (nbits w : Nat) : Option Instr :=
  match decode (tableRecord nbits w) with
  | .ok i => some i
  | .error _ => none

end Sys2Proof
end

