-- ==== Sys2Proof/Machine/State.lean ====
section
/-! DEFINITION. The state record S of 10_state.md R20 with everything else the spec gives the machine (the configuration of
R41, the output trace of R57, the points where POLL and its loop stand), the environment's plain data (log 1, 5 to 8), the reasons a step
can stop, and the state after reset (R58). -/

namespace Sys2Proof.Machine

/-- A region's contents: (offset, byte) pairs, offsets strictly rising; an offset not listed has never been written
(R47; log 12). -/
abbrev Memory := List Host.Cell

/-- Where the capture DMA is armed to write (R31). -/
inductive RxTarget where
  /-- into SLOT[S.head] -/
  | slot
  /-- into DUMMY -/
  | dummy
  deriving DecidableEq, Repr

/-- The capture sequencer's condition (R32, R221). -/
inductive RxSeq where
  /-- armed, waiting for a frame -/
  | listen
  /-- at least one byte of the current frame has been received -/
  | capture
  /-- a boundary has been signalled; the sequencer stands at its wrap condition -/
  | wait
  deriving DecidableEq, Repr

/-- The statistics counters (R37, R38), each u32. -/
structure Counters where
  rxOk : Word
  rxFull : Word
  rxBadCrc : Word
  rxAllocFail : Word
  rxDeliverFail : Word
  txOk : Word
  /-- exists only with DUAL_RX (R38), which is refused (R249; log 21): stays 0 -/
  rxForceClear : Word
  deriving DecidableEq, Repr

/-- Every counter zero (R58, R190). -/
def Counters.zero : Counters := ⟨0, 0, 0, 0, 0, 0, 0⟩

/-- What is observable of one MDIO bit cell (R152). -/
inductive CellLevel where
  /-- the block drove this level -/
  | drive (b : Bool)
  /-- the block released the line and sampled this level -/
  | release (s : Bool)
  deriving DecidableEq, Repr

/-- The outcomes of RX.CONSUME (R242, R260). -/
inductive ConsumeOutcome where
  | timeout
  | badCrc
  | allocFail
  | deliverFail
  | delivered (n : Nat)
  deriving DecidableEq, Repr

/-- The results returned to callers (R57, R118, R260; log 22). The other operations return nothing (R118). -/
inductive Result where
  /-- MDIO.READ's u16 -/
  | value (v : Half)
  /-- CRC.VERIFY's bool -/
  | verdict (ok : Bool)
  /-- TX.SEND's success -/
  | success
  /-- RX.CONSUME's outcome -/
  | consumed (o : ConsumeOutcome)
  deriving DecidableEq, Repr

/-- The output trace's events (R57). -/
inductive Event where
  | cell (k : Nat) (level : CellLevel)
  | txByte (b : Byte)
  | retrigger
  /-- DUAL_RX only (R53, R248), which is refused (log 21) -/
  | forceClear
  | linkUp
  | linkDown
  | alloc (n : Nat)
  | input (bytes : List Byte)
  | free
  | statsReport (snapshot : Counters)
  | result (r : Result)
  deriving DecidableEq, Repr

/-- Where POLL stands. An operation that the spec lets other agents interleave with can be suspended here (20_memory.md
R86; log 16). -/
inductive Poll where
  /-- between two operations -/
  | ready
  /-- RX.CONSUME step 1, waiting on an empty semaphore (R236) -/
  | semWait
  /-- RX.CONSUME between its acquire and its advance of `rear`: R250's h = 1 -/
  | claimed
  /-- RX.CONSUME inside the host's `input` call for n bytes, `rear` already advanced (R240) -/
  | delivering (n : Nat)
  /-- STATS.REPORT between its snapshot and its zeroing (R303) -/
  | reporting
  /-- TX.SEND step 1, held while `tx_busy` (R201); `within` is some n when the host called it from inside the delivery of
  n bytes (R55) -/
  | txWait (frags : List (List Byte)) (totalLen : Nat) (within : Option Nat)
  /-- CRC.APPEND, held while a DMA agent is at work on its region (R28, R46; log 18) -/
  | appendWait (buf : Region) (len : Nat)
  deriving DecidableEq, Repr

/-- Where the poll loop stands between two of its operations (30_encoding.md R117): `[LINK.POLL; STATS.REPORT]` when the
interval has elapsed, then `RX.CONSUME`, repeated for ever. -/
inductive LoopPoint where
  /-- at the top of the round: has the interval elapsed? -/
  | service
  /-- LINK.POLL done, STATS.REPORT next -/
  | report
  /-- the service part done, RX.CONSUME next -/
  | consume
  deriving DecidableEq, Repr

/-- A buffer of the host's or of a caller's: its capacity and contents (R40). -/
structure Buffer where
  cap : Nat
  mem : Memory
  deriving DecidableEq, Repr

/-- What the environment has decided so far, in the order it will be used; a list that has run out is followed by opaque
free values (log 5 to 8). -/
structure Env where
  /-- commands and events, one record each, in the order of the interleaving (log 1, 4, 5) -/
  requests : List (List Byte)
  /-- does the other agent move now? (log 5) -/
  turns : List Bool
  /-- levels of released MDIO cells (log 6) -/
  phyLevels : List Bool
  /-- answers to `alloc`, true for ok (log 7) -/
  allocAnswers : List Bool
  /-- answers to `input` (log 7) -/
  inputAnswers : List InputAnswer
  /-- does the empty-semaphore wait end now? (log 8) -/
  timeouts : List Bool
  /-- has the poll loop's interval elapsed? (log 34) -/
  intervals : List Bool
  /-- how many opaque free values have been taken -/
  draws : Nat
  deriving DecidableEq, Repr

/-- No decision taken yet. -/
def Env.empty : Env := ⟨[], [], [], [], [], [], [], 0⟩

/-- The state. Field names follow R20. -/
structure State where
  /-- INIT has completed (70_reset_and_hazards.md R293) -/
  up : Bool
  /-- the configuration (R7, R41) -/
  cfg : Cfg
  /-- the CRC accumulator (R21) -/
  crc : Word
  /-- level of the MDIO clock line (R23) -/
  mdc : Bool
  /-- level latched for the data line (R23) -/
  mdioOut : Bool
  /-- the block drives the data line (R23) -/
  mdioOe : Bool
  /-- the read data register (R24) -/
  mdioSr : Half
  /-- the next bit cell, 64 when no transaction is in progress (R30) -/
  mdioCell : Nat
  /-- the PHY's address (R25) -/
  phyAddr : U5
  /-- the cached link state (R26) -/
  linkUp : Bool
  /-- the transmit DMA is armed (R28) -/
  txBusy : Bool
  /-- bytes the armed transfer covers (R29) -/
  txLen : Nat
  /-- bytes already moved (R29) -/
  txRd : Nat
  /-- where the capture DMA writes (R31) -/
  rxTarget : RxTarget
  /-- its offset there (R31) -/
  rxWptr : Nat
  /-- the sequencer's condition (R32) -/
  rxSeq : RxSeq
  /-- the boundary interrupt's pending bit (R32) -/
  rxIrq : Bool
  /-- a frame that started while the sequencer was in WAIT is still arriving: it is lost whole (44_rx_framer.md R226; log 14) -/
  rxLost : Bool
  /-- next slot armed for capture (R33) -/
  head : Nat
  /-- next slot to consume (R34) -/
  rear : Nat
  /-- permits (R35) -/
  sem : Nat
  /-- slot[i].len (R36) -/
  slotLen : List Nat
  /-- the statistics counters (R37, R38) -/
  cnt : Counters
  /-- region TXBUF (R40) -/
  txbuf : Memory
  /-- regions SLOT[0..N-1] (R40) -/
  slotMem : List Memory
  /-- region DUMMY (R40) -/
  dummy : Memory
  /-- region HBUF while RX.CONSUME holds an allocated buffer (R40; log 26) -/
  hbuf : Option Buffer
  /-- the callers' buffers (R40; log 26) -/
  callers : List Buffer
  /-- where POLL stands -/
  poll : Poll
  /-- where the poll loop stands between its operations (30_encoding.md R117) -/
  loop : LoopPoint
  /-- the output trace, oldest event first (R57) -/
  trace : List Event
  /-- the environment's decisions -/
  env : Env
  deriving DecidableEq, Repr

/-- Reasons the machine stops. The block itself has no fault (60_exceptions.md R264). -/
inductive Fault where
  /-- A byte that nothing has written is read (R47). Raised by CRC.APPEND, CRC.VERIFY, TX.DMA.BYTE and RX.CONSUME.
  SAFE: the model stops where the hardware reads an unspecified value. -/
  | neverWritten
  deriving DecidableEq, Repr

/-- Requests the model gives no meaning (60_exceptions.md R263). All SAFE: the model stops, nothing is claimed. -/
inductive Refusal where
  /-- exec's arm has no meaning yet; raised by no arm of this model -/
  | notModelled (mnemonic : String)
  /-- the selector names no operation (R113); raised when a record is fetched -/
  | reservedSelector (sel : Nat)
  /-- an operand is outside its type (R113, R7, R298); raised when a record is fetched and by INIT -/
  | operandOutOfType
  /-- a record that is too short or too long for its operation (log 1); raised when a record is fetched -/
  | malformedRecord
  /-- an MDIO frame pattern the block never generates (R112); raised when a record is fetched -/
  | frameNeverGenerated
  /-- CRC.APPEND with len + 4 > cap(buf) (R136); raised by CRC.APPEND -/
  | appendPastEnd
  /-- CRC.VERIFY with total_len > cap(buf) (R139); raised by CRC.VERIFY and RX.CONSUME -/
  | verifyPastEnd
  /-- TX.SEND with max(total_len, 60) + 4 > TX_CAP (R202 a); raised by TX.SEND -/
  | submissionTooLong
  /-- TX.SEND with fragments shorter than total_len (R202 b); raised by TX.SEND -/
  | fragmentsTooShort
  /-- an MDIO transaction while one is in progress (R155); raised by the MDIO operations, PHY.SCAN and LINK.POLL -/
  | mdioBusy
  /-- any command before INIT has completed (R293); raised by every command but INIT -/
  | notInitialised
  /-- a second INIT (R293); raised by INIT -/
  | alreadyInitialised
  /-- DUAL_RX = true (R249); raised by INIT and by the receive events -/
  | dualRx
  /-- the operand names no region there is (R40, R113); raised by CRC.APPEND, CRC.VERIFY and RX.CONSUME -/
  | noSuchRegion
  /-- a command while POLL is inside another operation (R277, R304; log 20); raised by every command -/
  | pollBusy
  deriving DecidableEq, Repr

/-- The outcome of a step of this machine. -/
abbrev Outc := Host.Outcome State Fault Refusal

/-- The machine right after reset: the values of R58 under the reference configuration, INIT not run (R290, R293).
`crc` is the model's choice (log 11); the open parameters are opaque (log 9). -/
def State.reset : State where
  up := false
  cfg := Cfg.reference
  crc := 0
  mdc := false
  mdioOut := false
  mdioOe := true
  mdioSr := 0
  mdioCell := 64
  phyAddr := Config.phyAddrDefault
  linkUp := false
  txBusy := false
  txLen := 0
  txRd := 0
  rxTarget := .slot
  rxWptr := 0
  rxSeq := .listen
  rxIrq := false
  rxLost := false
  head := 0
  rear := 0
  sem := 0
  slotLen := [0, 0, 0, 0]
  cnt := Counters.zero
  txbuf := []
  slotMem := [[], [], [], []]
  dummy := []
  hbuf := none
  callers := []
  poll := .ready
  loop := .service
  trace := []
  env := Env.empty

end Sys2Proof.Machine
end

