-- ==== Sys2Proof/Machine/Ops.lean ====
section
/-! DEFINITION. The named operations every meaning is built from: bytes of a region's memory, the output trace, the
environment's draws, the counters, the ring and the semaphore, and taking the boundary interrupt, the block's one
exception. -/

namespace Sys2Proof.Machine

/-! ### Memory of one region (20_memory.md R70, R75: every access moves one byte) -/

/-- The byte at an offset; none where nothing has been written (R47). -/
def Memory.read : Memory → Nat → Option Byte
  | [], _ => none
  | (a, b) :: m, o => if o = a then some b else Memory.read m o

/-- Write one byte, keeping the offsets strictly rising. -/
def Memory.write : Memory → Nat → Byte → Memory
  | [], o, b => [(o, b)]
  | (a, c) :: m, o, b =>
    if o < a then (o, b) :: (a, c) :: m
    else if o = a then (o, b) :: m
    else (a, c) :: Memory.write m o b

/-- Every offset of the memory is above o. -/
def Memory.above (o : Nat) : Memory → Bool
  | [] => true
  | (a, _) :: _ => decide (o < a)

/-- The canonical form: offsets strictly rising. No offset reads as a value without being listed, so nothing else is
asked. -/
def Memory.wf : Memory → Bool
  | [] => true
  | (a, _) :: m => Memory.above a m && Memory.wf m

/-- Write bytes at ascending offsets. -/
def Memory.writeAll : Memory → Nat → List Byte → Memory
  | m, _, [] => m
  | m, o, b :: bs => Memory.writeAll (m.write o b) (o + 1) bs

/-! ### Going on after an outcome -/

/-- Go on from a next state; a stop stays. -/
def Outc.andThen (o : Outc) (k : State → Outc) : Outc :=
  match o with
  | .next s => k s
  | .fault f => .fault f
  | .refused r => .refused r

/-! ### The output trace (10_state.md R57) -/

/-- `emit E` (00_scope.md R10). -/
def emit (e : Event) (s : State) : State := { s with trace := s.trace ++ [e] }

/-- Return a result to the caller. -/
def returns (r : Result) (s : State) : State := emit (.result r) s

/-! ### Draws from the environment (00_scope.md R10, 92_eei_decisions.md D35; log 5 to 8): the next scripted answer, else an
opaque free value of the counter -/

/-- One draw: the head of the list, or the free value and one more taken. -/
def drawFrom {α : Type} (script : List α) (free : Nat → α) (n : Nat) : α × List α × Nat :=
  match script with
  | a :: rest => (a, rest, n)
  | [] => (free n, [], n + 1)

/-- Does the other agent move now? (70_reset_and_hazards.md R306) -/
def Env.drawTurn (e : Env) : Bool × Env :=
  let d := drawFrom e.turns Config.otherMoves e.draws
  (d.1, { e with turns := d.2.1, draws := d.2.2 })

/-- The level on the released data line (10_state.md R50). -/
def Env.drawLevel (e : Env) : Bool × Env :=
  let d := drawFrom e.phyLevels Config.phyLevel e.draws
  (d.1, { e with phyLevels := d.2.1, draws := d.2.2 })

/-- The host's answer to `alloc` (10_state.md R56 a). -/
def Env.drawAlloc (e : Env) : Bool × Env :=
  let d := drawFrom e.allocAnswers Config.allocOk e.draws
  (d.1, { e with allocAnswers := d.2.1, draws := d.2.2 })

/-- The host's answer to `input` (10_state.md R56 b). -/
def Env.drawInput (e : Env) : InputAnswer × Env :=
  let d := drawFrom e.inputAnswers Config.inputAnswer e.draws
  (d.1, { e with inputAnswers := d.2.1, draws := d.2.2 })

/-- Does the empty-semaphore wait end in Timeout now? (44_rx_framer.md R236) -/
def Env.drawTimeout (e : Env) : Bool × Env :=
  let d := drawFrom e.timeouts Config.timesOut e.draws
  (d.1, { e with timeouts := d.2.1, draws := d.2.2 })

/-- Has the poll loop's interval elapsed? (10_state.md R27, 70_reset_and_hazards.md R306) -/
def Env.drawInterval (e : Env) : Bool × Env :=
  let d := drawFrom e.intervals Config.intervalElapsed e.draws
  (d.1, { e with intervals := d.2.1, draws := d.2.2 })

/-- The state after the environment has answered. -/
def withEnv (e : Env) (s : State) : State := { s with env := e }

/-! ### Statistics counters (10_state.md R37: every increment is a no-op when STATS_EN is false; u32 wraps) -/

/-- Change the counters, if they exist. -/
def count (f : Counters → Counters) (s : State) : State :=
  if s.cfg.statsEn then { s with cnt := f s.cnt } else s

/-- `cnt.rx_ok` + 1. -/
def Counters.incRxOk (c : Counters) : Counters := { c with rxOk := c.rxOk + 1 }
/-- `cnt.rx_full` + 1. -/
def Counters.incRxFull (c : Counters) : Counters := { c with rxFull := c.rxFull + 1 }
/-- `cnt.rx_bad_crc` + 1. -/
def Counters.incRxBadCrc (c : Counters) : Counters := { c with rxBadCrc := c.rxBadCrc + 1 }
/-- `cnt.rx_alloc_fail` + 1. -/
def Counters.incRxAllocFail (c : Counters) : Counters := { c with rxAllocFail := c.rxAllocFail + 1 }
/-- `cnt.rx_deliver_fail` + 1. -/
def Counters.incRxDeliverFail (c : Counters) : Counters := { c with rxDeliverFail := c.rxDeliverFail + 1 }
/-- `cnt.tx_ok` + 1. -/
def Counters.incTxOk (c : Counters) : Counters := { c with txOk := c.txOk + 1 }

/-! ### The semaphore and the ring indices (20_memory.md R90, 10_state.md R33 to R35) -/

/-- `release`: one permit more, saturating at N (R90, R232). -/
def semRelease (s : State) : State := { s with sem := min (s.sem + 1) s.cfg.n }

/-- `acquire` when there is a permit (R90). -/
def semAcquire (s : State) : State := { s with sem := s.sem - 1 }

/-- `S.head <- (S.head + 1) mod N` (R33). -/
def advanceHead (s : State) : State := { s with head := (s.head + 1) % s.cfg.n }

/-- `S.rear <- (S.rear + 1) mod N` (R34). -/
def advanceRear (s : State) : State := { s with rear := (s.rear + 1) % s.cfg.n }

/-- The length field of a slot; a slot there is not has none (and length 0). -/
def slotLength (s : State) (i : Nat) : Nat := s.slotLen.getD i 0

/-- Arm the receive DMA from offset 0 (R231, R233). -/
def armCapture (t : RxTarget) (s : State) : State := { s with rxTarget := t, rxWptr := 0 }

/-! ### Taking the boundary interrupt (60_exceptions.md R266 to R273). The block saves nothing on entry and changes no
mode; the pending bit is cleared first; the handler is one atomic step; its last action re-triggers the sequencer and
the poll context resumes where it stood: there is nothing to restore. -/

/-- Step 0: the pending bit is cleared (R228, R272). -/
def acknowledge (s : State) : State := { s with rxIrq := false }

/-- Step 1: the captured length is recorded, when the capture was into the slot (R229). -/
def recordLength (s : State) : State :=
  match s.rxTarget with
  | .slot => { s with slotLen := s.slotLen.set s.head s.rxWptr }
  | .dummy => s

/-- The ring is judged full: `S.sem >= N - LWM` (R230). -/
def ringFull (s : State) : Bool := decide (s.cfg.n - s.cfg.lwm ≤ s.sem)

/-- Step 2, full: the next frame goes to the dummy (R233). -/
def dropNext (s : State) : State := count Counters.incRxFull (armCapture .dummy s)

/-- Step 2, not full: the slot is released and the next one armed (R231, R232). -/
def releaseSlot (s : State) : State := semRelease (count Counters.incRxOk (armCapture .slot (advanceHead s)))

/-- Step 2 (R230). -/
def judgeRing (s : State) : State := if ringFull s then dropNext s else releaseSlot s

/-- Step 3, the return: the sequencer listens again (R234, R273). -/
def retrigger (s : State) : State := emit .retrigger { s with rxSeq := .listen }

/-- Entry, handler and return, one atomic step of IRQ (R227, R271, R273). -/
def takeBoundaryInterrupt (s : State) : State := retrigger (judgeRing (recordLength (acknowledge s)))

/-! ### Guards -/

/-- Before INIT has completed every command is refused (70_reset_and_hazards.md R293). -/
def whenUp (s : State) (k : Outc) : Outc := if s.up then k else .refused .notInitialised

/-- POLL issues one operation at a time (60_exceptions.md R277; log 20). -/
def whenReady (s : State) (k : Outc) : Outc := if s.poll = .ready then k else .refused .pollBusy

/-- A command of the poll loop. -/
def asCommand (s : State) (k : Outc) : Outc := whenUp s (whenReady s k)

/-- A receive event: ignored before INIT (R293); the dual variant is refused (R249). -/
def asRxEvent (s : State) (k : Outc) : Outc :=
  if s.up then (if s.cfg.dualRx then .refused .dualRx else k) else .next s

/-! ### Hardware reset (70_reset_and_hazards.md R290, R296) -/

/-- Nothing of S survives: the whole state is discarded and the block is before INIT again. The configuration it will be
given, the callers' memory, the environment's decisions and the trace observed so far are not the block's (log 28). -/
def hardwareReset (s : State) : State :=
  { State.reset with cfg := s.cfg, phyAddr := s.cfg.phyAddrDefault, slotLen := List.replicate s.cfg.n 0,
                     slotMem := List.replicate s.cfg.n [], callers := s.callers, trace := s.trace, env := s.env }

end Sys2Proof.Machine
end

