-- ==== Sys2Proof/Machine/Operands.lean ====
section
/-! DEFINITION. The operand forms: a region addressed by byte offset (10_state.md R40, 20_memory.md R72, R80), a fragment
chain (43_tx_framer.md R203), and the register table the poll context reads (10_state.md R42). -/

namespace Sys2Proof.Machine

/-- The capacity of a region; none when there is no such region (R40). -/
def regionCap (s : State) : Region → Option Nat
  | .txbuf => some s.cfg.txCap
  | .slot i => if i < s.cfg.n then some s.cfg.slotCap else none
  | .dummy => some s.cfg.dummyCap
  | .hbuf => s.hbuf.map Buffer.cap
  | .caller k => (s.callers[k]?).map Buffer.cap

/-- A region's contents. -/
def regionMem (s : State) : Region → Memory
  | .txbuf => s.txbuf
  | .slot i => s.slotMem.getD i []
  | .dummy => s.dummy
  | .hbuf => (s.hbuf.map Buffer.mem).getD []
  | .caller k => ((s.callers[k]?).map Buffer.mem).getD []

/-- A region with new contents. -/
def setRegionMem (s : State) (r : Region) (m : Memory) : State :=
  match r with
  | .txbuf => { s with txbuf := m }
  | .slot i => { s with slotMem := s.slotMem.set i m }
  | .dummy => { s with dummy := m }
  | .hbuf => { s with hbuf := s.hbuf.map fun b => { b with mem := m } }
  | .caller k => { s with callers := s.callers.modify k fun b => { b with mem := m } }

/-- `MemRead(B+o, 1)` (R10): none where nothing has been written (R47). -/
def readByte (s : State) (r : Region) (o : Nat) : Option Byte := (regionMem s r).read o

/-- `MemRead(B+o, n)` (R10): none if one of the bytes has never been written (R47). -/
def readBytes (s : State) (r : Region) (o : Nat) : Nat → Option (List Byte)
  | 0 => some []
  | n + 1 =>
    match readByte s r o, readBytes s r (o + 1) n with
    | some b, some bs => some (b :: bs)
    | _, _ => none

/-- `MemWrite(B+o, n, v)` (R10): byte by byte at ascending offsets (R75). -/
def writeBytes (s : State) (r : Region) (o : Nat) (bs : List Byte) : State :=
  setRegionMem s r ((regionMem s r).writeAll o bs)

/-- The region the capture DMA is armed on (R223). -/
def captureRegion (s : State) : Region :=
  match s.rxTarget with
  | .slot => .slot s.head
  | .dummy => .dummy

/-- A DMA agent is at work on the region: TXDMA reads TXBUF while `tx_busy` (R28), RXCAP writes the region it is armed on from a
frame's first byte to its boundary (R31, R32); POLL must not write it then (R40, R46; log 18). -/
def dmaOwns (s : State) (r : Region) : Bool :=
  (s.txBusy && decide (r = .txbuf)) || (decide (s.rxSeq = .capture) && decide (r = captureRegion s))

/-- The capacity of the armed region (R223). -/
def captureCap (s : State) : Nat :=
  match s.rxTarget with
  | .slot => s.cfg.slotCap
  | .dummy => s.cfg.dummyCap

/-- How many bytes a fragment chain holds (R202 b). -/
def fragmentsLength (frags : List (List Byte)) : Nat := (frags.map List.length).sum

/-- The gather loop of R203: from each fragment at most what is still missing of `want` bytes. -/
def gather : List (List Byte) → Nat → List Byte
  | [], _ => []
  | f :: fs, want => f.take want ++ gather fs (want - min f.length want)

/-- Zero-extension to at least 60 bytes (R204). -/
def padFrame (bs : List Byte) : List Byte := bs ++ List.replicate (Config.txMin - bs.length) 0#8

/-! ### The control and status registers of R42, read from poll context (log 32) -/

/-- The registers of R42 in the order of their index. -/
inductive ControlReg where
  | phyAddr | linkUp | txBusy | txLen | head | rear | sem | rxTarget
  | cntRxOk | cntRxFull | cntRxBadCrc | cntRxAllocFail | cntRxDeliverFail | cntTxOk | cntRxForceClear
  | mdioPins | cfg
  deriving DecidableEq, Repr

/-- The index R42 gives a register. -/
def ControlReg.index : ControlReg → Nat
  | .phyAddr => 0 | .linkUp => 1 | .txBusy => 2 | .txLen => 3 | .head => 4 | .rear => 5 | .sem => 6 | .rxTarget => 7
  | .cntRxOk => 8 | .cntRxFull => 9 | .cntRxBadCrc => 10 | .cntRxAllocFail => 11 | .cntRxDeliverFail => 12
  | .cntTxOk => 13 | .cntRxForceClear => 14 | .mdioPins => 15 | .cfg => 16

/-- What a register shows: as many bits as R42 gives it. -/
structure RegView where
  width : Nat
  value : BitVec width
  deriving DecidableEq, Repr

/-- `ceil(log2 n)`, R42's width of a ring index. -/
def bitsFor (n : Nat) : Nat := if n ≤ 1 then 0 else (n - 1).log2 + 1

/-- A number in so many bits. -/
def RegView.ofNat (width n : Nat) : RegView := ⟨width, BitVec.ofNat width n⟩

/-- One bit. -/
def RegView.ofBool (b : Bool) : RegView := ⟨1, BitVec.ofBool b⟩

/-- R42's code of the capture target: 0 = SLOT, 1 = DUMMY. -/
def RxTarget.code : RxTarget → RegView
  | .slot => ⟨1, 0#1⟩
  | .dummy => ⟨1, 1#1⟩

/-- A counter register, if the counter exists (R37). -/
def counterView (s : State) (f : Counters → Word) : Option RegView := if s.cfg.statsEn then some ⟨32, f s.cnt⟩ else none

/-- TX_LEN's 16 bits; R42 does not say what a longer transfer shows there, so that is a free value (log 33). -/
def txLenView (n : Nat) : Half := if n < 2 ^ 16 then BitVec.ofNat 16 n else Config.wideTxLen n

/-- The contents of a register in R42's width: none where it has no number (CFG is opaque) or does not exist (R37, R38). -/
def regContents (s : State) : ControlReg → Option RegView
  | .phyAddr => some ⟨5, s.phyAddr⟩
  | .linkUp => some (.ofBool s.linkUp)
  | .txBusy => some (.ofBool s.txBusy)
  | .txLen => some ⟨16, txLenView s.txLen⟩
  | .head => some (.ofNat (bitsFor s.cfg.n) s.head)
  | .rear => some (.ofNat (bitsFor s.cfg.n) s.rear)
  | .sem => some (.ofNat (bitsFor (s.cfg.n + 1)) s.sem)
  | .rxTarget => some s.rxTarget.code
  | .cntRxOk => counterView s Counters.rxOk
  | .cntRxFull => counterView s Counters.rxFull
  | .cntRxBadCrc => counterView s Counters.rxBadCrc
  | .cntRxAllocFail => counterView s Counters.rxAllocFail
  | .cntRxDeliverFail => counterView s Counters.rxDeliverFail
  | .cntTxOk => counterView s Counters.txOk
  | .cntRxForceClear => if s.cfg.dualRx then counterView s Counters.rxForceClear else none
  | .mdioPins => some ⟨3, BitVec.ofBool s.mdc ++ BitVec.ofBool s.mdioOe ++ BitVec.ofBool s.mdioOut⟩
  | .cfg => none

/-- POLL can read the register: all but RX_TARGET, whose access R42 gives as `-`. -/
def ControlReg.readable (r : ControlReg) : Bool := decide (r ≠ .rxTarget)

/-- What POLL reads in a register (60_exceptions.md R278 d). -/
def readReg (s : State) (r : ControlReg) : Option RegView := if r.readable then regContents s r else none

end Sys2Proof.Machine
end

