-- ==== Sys2Proof/Machine/Flags.lean ====
section
/-! DEFINITION. The single-bit conditions the operations compute (10_state.md R43: the block has no arithmetic condition
codes; its flags are `tx_busy`, `link_up`, `rx_irq`, `mdio_oe` and `rx_target`). -/

namespace Sys2Proof.Machine

/-- A PHY answered the scan: the register-0 read is not all ones (42_phy_link_stats.md R181). -/
def phyPresent (v : Half) : Bool := decide (v ≠ 0xFFFF#16)

/-- The polled link-status bit, bit 2 of register 1 (R185, 41_mdio.md R167). -/
def linkBit (v : Half) : Bool := v.getLsbD 2

/-- TX.DMA.BYTE is enabled as far as the block is concerned (43_tx_framer.md R210). -/
def txDmaEnabled (s : State) : Bool := s.txBusy && decide (s.txRd < s.txLen)

/-- RXCAP takes a wire event: not in WAIT, and not while a frame that started in WAIT is still arriving
(44_rx_framer.md R223, R225, R226; log 14). -/
def rxListening (s : State) : Bool := decide (s.rxSeq ≠ .wait) && !s.rxLost

/-- The interrupt can be taken: pending, and enabled from the end of INIT (60_exceptions.md R266, R267). -/
def irqPending (s : State) : Bool := s.up && s.rxIrq

/-- The submission with its FCS fits TXBUF (43_tx_framer.md R202 a). -/
def submissionFits (s : State) (totalLen : Nat) : Bool := decide (max totalLen Config.txMin + 4 ≤ s.cfg.txCap)

end Sys2Proof.Machine
end

