-- ==== Sys2Proof/Machine/Mdio.lean ====
section
/-! DEFINITION. The MDIO clause-22 sequencer (41_mdio.md): pins, bit cells, MDIO.READ and MDIO.WRITE, and the two wire frames of
30_encoding.md R104. -/

namespace Sys2Proof.Machine

/-! ### Pins and bit cells (R150 to R154). `wait T_MDIO` is no step (R151); the order of the pin writes is kept as data. -/

/-- One write of a pin latch. -/
inductive PinWrite where
  | oe (b : Bool)
  | out (b : Bool)
  | mdc (b : Bool)
  deriving DecidableEq, Repr

/-- Write one pin latch (10_state.md R23). -/
def writePin (s : State) : PinWrite → State
  | .oe b => { s with mdioOe := b }
  | .out b => { s with mdioOut := b }
  | .mdc b => { s with mdc := b }

/-- The pin writes of a driven cell, in order (R153). -/
def putWrites (b : Bool) : List PinWrite := [.oe true, .out b, .mdc false, .mdc true]

/-- The pin writes of a released cell, in order (R154). -/
def getWrites : List PinWrite := [.oe false, .mdc false, .mdc true]

/-- The pins `(mdio_oe, mdio_out, mdc)` after each write (95_test_vectors.md section 3.2). -/
def pinSequence (s : State) : List PinWrite → List (Bool × Bool × Bool)
  | [] => []
  | w :: ws =>
    let s := writePin s w
    (s.mdioOe, s.mdioOut, s.mdc) :: pinSequence s ws

/-- Record the cell and go to the next one: `pc: S.mdio_cell <- S.mdio_cell + 1`. -/
def endCell (l : CellLevel) (s : State) : State :=
  { emit (.cell s.mdioCell l) s with mdioCell := s.mdioCell + 1 }

/-- `mdio_put(b)`, one driven bit cell (R153). -/
def mdioPut (b : Bool) (s : State) : State := endCell (.drive b) ((putWrites b).foldl writePin s)

/-- `mdio_get()`, one released bit cell: the level is the PHY's, sampled at the end of the high phase (R154). -/
def mdioGet (s : State) : Bool × State :=
  let s := getWrites.foldl writePin s
  let d := s.env.drawLevel
  (d.1, endCell (.release d.1) (withEnv d.2 s))

/-- Driven cells one after the other. -/
def mdioPutAll : List Bool → State → State
  | [], s => s
  | b :: bs, s => mdioPutAll bs (mdioPut b s)

/-- The bits of an operand, most significant first (30_encoding.md R106). -/
def msbFirst {w : Nat} (x : BitVec w) : List Bool := (List.range w).map fun k => x.getLsbD (w - 1 - k)

/-- `S.mdio_sr[i] <- b`. -/
def setSr (i : Nat) (b : Bool) (s : State) : State :=
  { s with mdioSr := (s.mdioSr &&& ~~~ (1#16 <<< i)) ||| (if b then 1#16 <<< i else 0#16) }

/-- The data phase of a read: bits i - 1 down to 0 (R157). -/
def mdioGetData : Nat → State → State
  | 0, s => s
  | i + 1, s =>
    let d := mdioGet s
    mdioGetData i (setSr i d.1 d.2)

/-! ### Transactions (R155, R157, R161) -/

/-- Preamble, start, opcode and the two addresses: cells 0 to 45 (30_encoding.md R104). -/
def frameHead (op : List Bool) (addr reg : U5) : List Bool :=
  List.replicate 32 true ++ [false, true] ++ op ++ msbFirst addr ++ msbFirst reg

/-- The driven cells of a read. -/
def readHead (addr reg : U5) : List Bool := frameHead [true, false] addr reg

/-- The driven cells of a write, all 64 of them. -/
def writeCells (addr reg : U5) (val : Half) : List Bool :=
  frameHead [false, true] addr reg ++ [true, false] ++ msbFirst val

/-- A transaction starts at cell 0 (R155). -/
def mdioStart (s : State) : State := { s with mdioCell := 0 }

/-- The read transaction up to the data phase: the two turnaround levels are sampled and discarded (R157, R159 a). -/
def mdioReadStart (addr reg : U5) (s : State) : State :=
  { (mdioGet (mdioGet (mdioPutAll (readHead addr reg) (mdioStart s))).2).2 with mdioSr := 0 }

/-- The whole read transaction; its result is `S.mdio_sr`, and the line is driven again (R157, R158). -/
def mdioReadTransaction (addr reg : U5) (s : State) : State :=
  { mdioGetData 16 (mdioReadStart addr reg s) with mdioOe := true }

/-- The whole write transaction (R161). -/
def mdioWriteTransaction (addr reg : U5) (val : Half) (s : State) : State :=
  mdioPutAll (writeCells addr reg val) (mdioStart s)

/-- A transaction may start only when none is in progress (R155). -/
def whenMdioIdle (s : State) (k : Outc) : Outc := if s.mdioCell = 64 then k else .refused .mdioBusy

/-- `MDIO.READ addr, reg -> u16` (R157). -/
def execMdioRead (addr reg : U5) (s : State) : Outc :=
  asCommand s (whenMdioIdle s
    (.next (returns (.value (mdioReadTransaction addr reg s).mdioSr) (mdioReadTransaction addr reg s))))

/-- `MDIO.WRITE addr, reg, val` (R161). -/
def execMdioWrite (addr reg : U5) (val : Half) (s : State) : Outc :=
  asCommand s (whenMdioIdle s (.next (mdioWriteTransaction addr reg val s)))

/-- The read frame on the wire (30_encoding.md R104, R111): the 64 cells of the transaction; no caller is given the result
(log 2). -/
def execMdioReadFrame (addr reg : U5) (s : State) : Outc :=
  asCommand s (whenMdioIdle s (.next (mdioReadTransaction addr reg s)))

/-- The write frame on the wire (30_encoding.md R104, R111; log 2). -/
def execMdioWriteFrame (addr reg : U5) (val : Half) (s : State) : Outc :=
  asCommand s (whenMdioIdle s (.next (mdioWriteTransaction addr reg val s)))

end Sys2Proof.Machine
end

