-- ==== Sys2Proof/Machine/PhyLink.lean ====
section
/-! DEFINITION. PHY discovery, link monitor and statistics (42_phy_link_stats.md). -/

namespace Sys2Proof.Machine

/-! ### PHY.SCAN (R181) -/

/-- The scan over the addresses still to try: the first whose register 0 is not all ones wins, and nothing is read after
it. -/
def scanFrom : List U5 → State → Option U5 × State
  | [], s => (none, s)
  | a :: as, s =>
    let s := mdioReadTransaction a 0 s
    if phyPresent s.mdioSr then (some a, { s with phyAddr := a }) else scanFrom as s

/-- The addresses 0 to 31, ascending. -/
def scanAddresses : List U5 := (List.range 32).map (BitVec.ofNat 5)

/-- The whole scan. -/
def phyScan (s : State) : Option U5 × State := scanFrom scanAddresses s

/-- `PHY.SCAN` (R181). Its outcome is left in `S.phy_addr`; the caller is returned nothing (30_encoding.md R118). -/
def execPhyScan (s : State) : Outc := asCommand s (whenMdioIdle s (.next (phyScan s).2))

/-! ### LINK.POLL (R185) -/

/-- Fire a transition when the polled bit differs from the cached value. -/
def linkUpdate (up : Bool) (s : State) : State :=
  if up = s.linkUp then s else emit (if up then .linkUp else .linkDown) { s with linkUp := up }

/-- `LINK.POLL` (R185). -/
def execLinkPoll (s : State) : Outc :=
  asCommand s (whenMdioIdle s
    (.next (linkUpdate (linkBit (mdioReadTransaction s.phyAddr 1 s).mdioSr) (mdioReadTransaction s.phyAddr 1 s))))

/-! ### STATS.REPORT (R190) -/

/-- The snapshot is emitted (R190). -/
def snapshotStats (s : State) : State := emit (.statsReport s.cnt) s

/-- Every counter is zeroed, which ends the operation. -/
def zeroStats (s : State) : State := { s with cnt := Counters.zero, poll := .ready }

/-- The report: by the scheduler's free choice another agent moves between the snapshot and the zeroing, and what it counts is
lost (70_reset_and_hazards.md R303; log 17). A no-op without STATS_EN. -/
def reportStats (s : State) : State :=
  if s.cfg.statsEn then
    if s.env.drawTurn.1 then { withEnv s.env.drawTurn.2 (snapshotStats s) with poll := .reporting }
    else zeroStats (withEnv s.env.drawTurn.2 (snapshotStats s))
  else s

/-- `STATS.REPORT` (R190). -/
def execStatsReport (s : State) : Outc := asCommand s (.next (reportStats s))

end Sys2Proof.Machine
end

