-- ==== Sys2Proof/Machine/Init.lean ====
section
/-! DEFINITION. Bring-up (70_reset_and_hazards.md R291 to R293). -/

namespace Sys2Proof.Machine

/-- Steps 1 and 2: every field at its value of 10_state.md R58, the memory allocated with nothing written, the MDIO pins set,
the receive DMA armed on SLOT[0] and the sequencer listening. `crc` keeps a value without meaning (R21; log 11). -/
def bringUp (cfg : Cfg) (s : State) : State :=
  { s with
    cfg := cfg, mdc := false, mdioOut := false, mdioOe := true, mdioSr := 0, mdioCell := 64,
    phyAddr := cfg.phyAddrDefault, linkUp := false, txBusy := false, txLen := 0, txRd := 0,
    rxTarget := .slot, rxWptr := 0, rxSeq := .listen, rxIrq := false, rxLost := false, head := 0, rear := 0, sem := 0,
    slotLen := List.replicate cfg.n 0, cnt := Counters.zero, txbuf := [], slotMem := List.replicate cfg.n [],
    dummy := [], hbuf := none, poll := .ready,
    loop := .service }

/-- Step 4: the interface is registered, with its constants and entry points (10_state.md R56). -/
def register (s : State) : State := { s with up := true }

/-- `INIT cfg` (R291): once (R293), with legal parameters (00_scope.md R7, R298), not with DUAL_RX (R249). Step 3 is the scan
(R292). -/
def execInit (cfg : Cfg) (s : State) : Outc :=
  if s.up then .refused .alreadyInitialised
  else if cfg.legal then
    if cfg.dualRx then .refused .dualRx else .next (register (phyScan (bringUp cfg s)).2)
  else .refused .operandOutOfType

end Sys2Proof.Machine
end

