-- ==== Sys2Proof/Machine/Crc.lean ====
section
/-! DEFINITION. The CRC-32 engine (40_crc.md): the function, CRC.APPEND and CRC.VERIFY. -/

namespace Sys2Proof.Machine

/-! ### The function (R130 to R134) -/

/-- POLY, the reflected polynomial (R130). -/
def crcPoly : Word := 0xEDB88320#32

/-- The initial register value (R130). -/
def crcInit : Word := 0xFFFFFFFF#32

/-- One iteration of the byte step (R131). -/
def crcBit (x : Word) : Word := bif x.getLsbD 0 then (x >>> 1) ^^^ crcPoly else x >>> 1

/-- k iterations. -/
def crcBits : Nat → Word → Word
  | 0, x => x
  | k + 1, x => crcBits k (crcBit x)

/-- `crc_step(c, b)` (R131). -/
def crcStep (c : Word) (b : Byte) : Word := crcBits 8 (c ^^^ b.setWidth 32)

/-- The accumulation from a register value. -/
def crcFrom (c : Word) (bs : List Byte) : Word := bs.foldl crcStep c

/-- `crc_acc(m)` (R132). -/
def crcAcc (bs : List Byte) : Word := crcFrom crcInit bs

/-- `fcs(m)` (R134). -/
def fcs (bs : List Byte) : Word := ~~~ crcAcc bs

/-- `CRC_T[i]` (R133). -/
def crcTable (i : Byte) : Word := crcStep 0#32 i

/-- The table form of the byte step (R133): computes the same as `crcStep`. -/
def crcStepTable (c : Word) (b : Byte) : Word := crcTable ((c ^^^ b.setWidth 32).setWidth 8) ^^^ (c >>> 8)

/-- The four bytes of an FCS, lowest offset first (R134, 30_encoding.md R109). -/
def fcsBytes (f : Word) : List Byte :=
  [f.extractLsb' 0 8, f.extractLsb' 8 8, f.extractLsb' 16 8, f.extractLsb' 24 8]

/-! ### CRC.APPEND (R135, R136) -/

/-- What R136 refuses: an FCS that would not fit the region, or a region that is not there. -/
def whenAppendFits (buf : Region) (len : Nat) (s : State) (k : Outc) : Outc :=
  match regionCap s buf with
  | none => .refused .noSuchRegion
  | some c => if c < len + 4 then .refused .appendPastEnd else k

/-- The operation on a region: the FCS over the data (R135, R136), with which CRC.VERIFY succeeds (R140 a). -/
def crcAppend (buf : Region) (len : Nat) (s : State) : Outc :=
  whenAppendFits buf len s (
    match readBytes s buf 0 len with
    | none => .fault .neverWritten
    | some bs => .next (writeBytes { s with crc := crcAcc bs } buf len (fcsBytes (fcs bs))))

/-- Where a DMA agent is at work on the region POLL must not write it (10_state.md R28, R40, R46, 43_tx_framer.md R212,
70_reset_and_hazards.md R297): the append is held, as TX.SEND is (log 18). What R136 refuses is refused before the wait. -/
def appendOrWait (buf : Region) (len : Nat) (s : State) : Outc :=
  if dmaOwns s buf then whenAppendFits buf len s (.next { s with poll := .appendWait buf len }) else crcAppend buf len s

/-- `CRC.APPEND buf, len` (R135). -/
def execCrcAppend (buf : Region) (len : Nat) (s : State) : Outc := asCommand s (appendOrWait buf len s)

/-- A held append looks again: it has no step while the DMA agent is at work (log 18). -/
def resumeAppend (buf : Region) (len : Nat) (s : State) : Outc :=
  if dmaOwns s buf then .next s else crcAppend buf len { s with poll := .ready }

/-! ### CRC.VERIFY (R138, R139) -/

/-- The comparison: the FCS over all but the last four bytes, against those four (R138). It accepts what CRC.APPEND wrote
and no other FCS, and no single bit flipped (R140 a, b, d; with `fcs` also the residue of R140 c). -/
def fcsMatches (bs : List Byte) : Bool :=
  decide (fcsBytes (fcs (bs.take (bs.length - 4))) = bs.drop (bs.length - 4))

/-- The operation on a region, going on with its boolean. A total under four is false and reads nothing (R139). -/
def crcVerify (buf : Region) (totalLen : Nat) (s : State) (k : Bool → State → Outc) : Outc :=
  match regionCap s buf with
  | none => .refused .noSuchRegion
  | some c =>
    if totalLen < 4 then k false s
    else if c < totalLen then .refused .verifyPastEnd
    else
      match readBytes s buf 0 totalLen with
      | none => .fault .neverWritten
      | some bs => k (fcsMatches bs) { s with crc := crcAcc (bs.take (totalLen - 4)) }

/-- `CRC.VERIFY buf, total_len -> bool` (R138). -/
def execCrcVerify (buf : Region) (totalLen : Nat) (s : State) : Outc :=
  asCommand s (crcVerify buf totalLen s fun ok s => .next (returns (.verdict ok) s))

end Sys2Proof.Machine
end

