-- ==== Sys2Proof/Machine/Rx.lean ====
section
/-! DEFINITION. The receive framer (44_rx_framer.md): capture, the boundary interrupt, the consumer. -/

namespace Sys2Proof.Machine

/-! ### Capture (R223 to R226) -/

/-- Store a byte in the armed region, unless its capacity is used up (R223, R224). -/
def storeByte (b : Byte) (s : State) : State :=
  if s.rxWptr < captureCap s then { writeBytes s (captureRegion s) s.rxWptr [b] with rxWptr := s.rxWptr + 1 } else s

/-- A byte that is lost (R226): one that arrives in WAIT belongs to a frame that started there and is lost whole, whenever
the sequencer is re-triggered (log 14). -/
def loseByte (s : State) : State := { s with rxLost := true }

/-- A boundary that is lost (R226) is the end of the lost frame. -/
def loseBoundary (s : State) : State := { s with rxLost := false }

/-- `RX.BYTE b` (R223). -/
def execRxByte (b : Byte) (s : State) : Outc :=
  asRxEvent s (.next (if rxListening s then { storeByte b s with rxSeq := .capture } else loseByte s))

/-- The first half of a boundary, RXCAP's step (R225). -/
def signalBoundary (s : State) : State := { s with rxSeq := .wait, rxIrq := true }

/-- IRQ moves now, or the interrupt stays pending (R267, 70_reset_and_hazards.md R306). -/
def interruptOrLatency (s : State) : State :=
  let d := s.env.drawTurn
  if d.1 then takeBoundaryInterrupt (withEnv d.2 s) else withEnv d.2 s

/-- `RX.BOUNDARY`: RXCAP signals (R225), then the handler runs (R227) at once or, by the scheduler's free choice, in a later
step (log 15). -/
def execRxBoundary (s : State) : Outc :=
  asRxEvent s (.next (if rxListening s then interruptOrLatency (signalBoundary s) else loseBoundary s))

/-! ### The consumer (R235 to R242) -/

/-- RX.CONSUME ends with an outcome. -/
def consumed (o : ConsumeOutcome) (s : State) : State := returns (.consumed o) { s with poll := .ready }

/-- The host's `input` call (R240, R241): it returns success, or a failure on which the buffer is freed and counted, or it
stays for now. After success the buffer is the host's. -/
def hostInput (n : Nat) (s : State) : State :=
  let d := s.env.drawInput
  let s := withEnv d.2 s
  match d.1 with
  | .ok => consumed (.delivered n) { s with hbuf := none }
  | .fail => consumed .deliverFail (count Counters.incRxDeliverFail (emit .free { s with hbuf := none }))
  | .stays => { s with poll := .delivering n }

/-- Step 3 once the host has given a buffer: the copy, then the advance of `rear`, then the delivery (R240). -/
def deliver (bs : List Byte) (s : State) : State :=
  hostInput bs.length (emit (.input bs) (advanceRear
    (writeBytes { s with hbuf := some ⟨bs.length, []⟩ } .hbuf 0 bs)))

/-- Step 3: allocation (R239). -/
def allocate (n : Nat) (s : State) : Outc :=
  let d := s.env.drawAlloc
  let s := emit (.alloc n) (withEnv d.2 s)
  if d.1 then
    match readBytes s (.slot s.rear) 0 n with
    | none => .fault .neverWritten
    | some bs => .next (deliver bs s)
  else .next (consumed .allocFail (advanceRear (count Counters.incRxAllocFail s)))

/-- Steps 2 and 3 on the claimed slot (R237, R238). -/
def consumeClaimed (s : State) : Outc :=
  let len := slotLength s s.rear
  crcVerify (.slot s.rear) len s fun ok s =>
    if ok then allocate (len - 4) s
    else .next (consumed .badCrc (advanceRear (count Counters.incRxBadCrc s)))

/-- The slot is claimed; another agent may move before it is read (20_memory.md R86; log 16). -/
def afterAcquire (s : State) : Outc :=
  let d := s.env.drawTurn
  let s := withEnv d.2 { s with poll := .claimed }
  if d.1 then .next s else consumeClaimed s

/-- Step 1: with a permit the acquire always succeeds; without one the wait ends in Timeout or goes on (R236). -/
def acquireOrWait (s : State) : Outc :=
  if s.sem = 0 then
    .next (if s.env.drawTimeout.1 then consumed .timeout (withEnv s.env.drawTimeout.2 s)
      else withEnv s.env.drawTimeout.2 { s with poll := .semWait })
  else afterAcquire (semAcquire s)

/-- `RX.CONSUME -> outcome` (R235). -/
def execRxConsume (s : State) : Outc := asCommand s (acquireOrWait s)

end Sys2Proof.Machine
end

