-- ==== Sys2Proof/Machine/Tx.lean ====
section
/-! DEFINITION. The transmit framer and its DMA trigger (43_tx_framer.md). -/

namespace Sys2Proof.Machine

/-! ### TX.SEND (R200 to R209) -/

/-- Step 5: the transfer is armed over n + 4 bytes (R208), the call counted and answered (R209). -/
def armTransmit (n : Nat) (s : State) : State :=
  returns .success (count Counters.incTxOk { s with txLen := n + 4, txRd := 0, txBusy := true })

/-- Steps 2 to 5, once the previous transfer is complete: gather and pad into TXBUF, append the FCS, arm (R203 to R208). -/
def sendFrame (frags : List (List Byte)) (totalLen : Nat) (s : State) : Outc :=
  let frame := padFrame (gather frags totalLen)
  (crcAppend .txbuf frame.length (writeBytes s .txbuf 0 frame)).andThen fun s =>
    .next (armTransmit frame.length s)

/-- The operand conditions (R202); tested before the wait (60_exceptions.md R270 lets a model do so; log 30). -/
def whenSubmissionFits (frags : List (List Byte)) (totalLen : Nat) (s : State) (k : Outc) : Outc :=
  if submissionFits s totalLen then
    if totalLen ≤ fragmentsLength frags then k else .refused .fragmentsTooShort
  else .refused .submissionTooLong

/-- Step 1: held while the previous transfer runs; `within` says from inside which delivery the host called (R201, R55). -/
def sendOrWait (frags : List (List Byte)) (totalLen : Nat) (within : Option Nat) (s : State) : Outc :=
  if s.txBusy then .next { s with poll := .txWait frags totalLen within } else sendFrame frags totalLen s

/-- `TX.SEND frags, total_len -> success` (R200): issued between operations, or by the host from inside a delivery
(10_state.md R55, R214). -/
def execTxSend (frags : List (List Byte)) (totalLen : Nat) (s : State) : Outc :=
  whenUp s (
    match s.poll with
    | .ready => whenSubmissionFits frags totalLen s (sendOrWait frags totalLen none s)
    | .delivering n => whenSubmissionFits frags totalLen s (sendOrWait frags totalLen (some n) s)
    | .semWait => .refused .pollBusy
    | .claimed => .refused .pollBusy
    | .reporting => .refused .pollBusy
    | .txWait _ _ _ => .refused .pollBusy
    | .appendWait _ _ => .refused .pollBusy)

/-- Where POLL stands once a held TX.SEND has returned. -/
def afterSend : Option Nat → Poll
  | none => .ready
  | some n => .delivering n

/-- A held TX.SEND looks again (R201): it has no step while `tx_busy`. -/
def resumeSend (frags : List (List Byte)) (totalLen : Nat) (within : Option Nat) (s : State) : Outc :=
  if s.txBusy then .next s else sendFrame frags totalLen { s with poll := afterSend within }

/-! ### TX.DMA.BYTE (R210, R211) -/

/-- Move one byte to the transmit port; the step that moves the last one frees TXBUF. -/
def txMove (b : Byte) (s : State) : State :=
  { emit (.txByte b) s with txRd := s.txRd + 1, txBusy := decide (s.txRd + 1 ≠ s.txLen) }

/-- `TX.DMA.BYTE` (R210). Not enabled when nothing is armed: a data request then moves nothing (log 14). -/
def execTxDmaByte (s : State) : Outc :=
  if s.up && txDmaEnabled s then
    match readByte s .txbuf s.txRd with
    | none => .fault .neverWritten
    | some b => .next (txMove b s)
  else .next s

end Sys2Proof.Machine
end

