-- ==== Sys2Proof/Machine/Dispatch.lean ====
section
/-! DEFINITION. One arm per constructor of Instr. -/

namespace Sys2Proof.Machine

def exec (i : Instr) (s : State) : Host.Outcome State Fault Refusal :=
  match i with
  | .crcAppend buf len => Sys2Proof.Machine.execCrcAppend buf len s
  | .crcVerify buf totalLen => Sys2Proof.Machine.execCrcVerify buf totalLen s
  | .mdioRead addr reg => Sys2Proof.Machine.execMdioRead addr reg s
  | .mdioWrite addr reg val => Sys2Proof.Machine.execMdioWrite addr reg val s
  | .phyScan => Sys2Proof.Machine.execPhyScan s
  | .linkPoll => Sys2Proof.Machine.execLinkPoll s
  | .statsReport => Sys2Proof.Machine.execStatsReport s
  | .txSend frags totalLen => Sys2Proof.Machine.execTxSend frags totalLen s
  | .rxConsume => Sys2Proof.Machine.execRxConsume s
  | .init cfg => Sys2Proof.Machine.execInit cfg s
  | .rxByte b => Sys2Proof.Machine.execRxByte b s
  | .rxBoundary => Sys2Proof.Machine.execRxBoundary s
  | .txDmaByte => Sys2Proof.Machine.execTxDmaByte s
  | .mdioReadFrame addr reg => Sys2Proof.Machine.execMdioReadFrame addr reg s
  | .mdioWriteFrame addr reg val => Sys2Proof.Machine.execMdioWriteFrame addr reg val s

end Sys2Proof.Machine
end

