-- ==== Sys2Proof/Machine/Schedule.lean ====
section
/-! DEFINITION. Which agent moves in a step (20_memory.md R85, R86, 70_reset_and_hazards.md R306; log 5), and the fetch of a request
record (log 1, 4). -/

namespace Sys2Proof.Machine

/-- A record that is no operation stops the model by name (60_exceptions.md R263). -/
def undecodable : DecodeError → Refusal
  | .malformed => .malformedRecord
  | .reservedSelector sel => .reservedSelector sel
  | .operandOutOfType => .operandOutOfType
  | .frameNeverGenerated => .frameNeverGenerated

/-- The requests still to come. -/
def withRequests (rs : List (List Byte)) (s : State) : State := { s with env := { s.env with requests := rs } }

/-- Run one record. A record that is no operation is refused by what decoding says, before anything of the state is tested,
bring-up included: the model's order of refusals (log 31). -/
def runRecord (r : List Byte) (s : State) : Outc :=
  match decode r with
  | .ok i => exec i s
  | .error e => .refused (undecodable e)

/-- The record of an event of an autonomous agent (R100, kind evt). -/
def isEvent (r : List Byte) : Bool :=
  match r with
  | sel :: _ => decide (sel = 0x10#8 ∨ sel = 0x11#8 ∨ sel = 0x12#8)
  | [] => false

/-- The record of a TX.SEND. -/
def isTxSend (r : List Byte) : Bool :=
  match r with
  | sel :: _ => decide (sel = 0x08#8)
  | [] => false

/-- Which records can run while POLL is inside an operation: events of other agents, and TX.SEND from inside a delivery
(10_state.md R55). -/
def admits (p : Poll) (r : List Byte) : Bool :=
  match p with
  | .ready => true
  | .delivering _ => isEvent r || isTxSend r
  | .semWait => isEvent r
  | .claimed => isEvent r
  | .reporting => isEvent r
  | .txWait _ _ _ => isEvent r
  | .appendWait _ _ => isEvent r

/-- The first admitted record and the others in their order. -/
def takeAdmitted (p : Poll) : List (List Byte) → Option (List Byte × List (List Byte))
  | [] => none
  | r :: rs =>
    if admits p r then some (r, rs)
    else (takeAdmitted p rs).map fun x => (x.1, r :: x.2)

/-- The next operation of the poll loop (30_encoding.md R117, 60_exceptions.md R277 d): `[LINK.POLL; STATS.REPORT]` when the
interval has elapsed, by a free bit (70_reset_and_hazards.md R306), then `RX.CONSUME`, for ever (log 34). -/
def pollLoop (s : State) : Outc :=
  match s.loop with
  | .service =>
    let d := s.env.drawInterval
    if d.1 then exec .linkPoll { withEnv d.2 s with loop := .report }
    else exec .rxConsume (withEnv d.2 s)
  | .report => exec .statsReport { s with loop := .consume }
  | .consume => exec .rxConsume { s with loop := .service }

/-- POLL goes on with the operation it is inside; between operations, from the end of INIT on, with its loop. -/
def resumePoll (s : State) : Outc :=
  match s.poll with
  | .ready => if s.up then pollLoop s else .next s
  | .semWait => acquireOrWait s
  | .claimed => consumeClaimed s
  | .reporting => .next (zeroStats s)
  | .delivering n => .next (hostInput n s)
  | .txWait frags totalLen within => resumeSend frags totalLen within s
  | .appendWait buf len => resumeAppend buf len s

/-- A step in which IRQ does not move. Between operations the next request runs, and with none the poll loop goes on (log 34;
before INIT the state stays, log 24). Inside an operation the free choice is between the first admitted request and POLL. -/
def stepOther (s : State) : Outc :=
  match takeAdmitted s.poll s.env.requests with
  | none => resumePoll s
  | some (r, rs) =>
    if s.poll = .ready then runRecord r (withRequests rs s)
    else if s.env.drawTurn.1 then runRecord r (withRequests rs (withEnv s.env.drawTurn.2 s))
    else resumePoll (withEnv s.env.drawTurn.2 s)

/-- A step: a pending interrupt is taken now, or the scheduler lets another agent move first (60_exceptions.md R267). -/
def stepAgents (s : State) : Outc :=
  if irqPending s then
    if s.env.drawTurn.1 then .next (takeBoundaryInterrupt (withEnv s.env.drawTurn.2 s))
    else stepOther (withEnv s.env.drawTurn.2 s)
  else stepOther s

/-- What the next step needs so that it fetches and runs this record (log 4): the record is the only request, POLL is
between operations, bring-up is over unless the record is INIT's own (R293), and a pending interrupt waits. -/
def placeRecord (r : List Byte) (s : State) : State :=
  { s with
    up := s.up || decide (r.head? ≠ some 0x0A#8)
    poll := .ready
    env := { s.env with requests := [r], turns := if s.rxIrq then false :: s.env.turns else s.env.turns } }

end Sys2Proof.Machine
end

