-- ==== Sys2Proof/Safety.lean ====
section
/-! DEFINITION. What claims about this block are stated in: the invariant of its reachable states (44_rx_framer.md R250 and the
bounds of 10_state.md R20), and what a run of one event after another is. -/

namespace Sys2Proof.Machine

/-- R250's `h`: 1 while the consumer holds a slot. -/
def holding (s : State) : Nat := if s.poll = .claimed then 1 else 0

/-- The bytes of a region below k have been written. -/
def written (s : State) (r : Region) (k : Nat) : Prop := ∀ o, o < k → (readByte s r o).isSome

/-- The regions' contents are in canonical form. -/
def memoryWf (s : State) : Bool :=
  s.txbuf.wf && s.slotMem.all Memory.wf && s.dummy.wf && s.hbuf.all (fun b => b.mem.wf) &&
    s.callers.all (fun b => b.mem.wf)

/-- Every byte a region holds lies inside its capacity (20_memory.md R74). -/
def memoryBounded (s : State) : Prop :=
  ∀ r o, (readByte s r o).isSome → ∃ c, regionCap s r = some c ∧ o < c

/-- The ring invariant of R250 (a) to (c), with the ranges of R33 to R35. -/
structure RingInv (s : State) : Prop where
  rear_lt : s.rear < s.cfg.n
  head_eq : s.head = (s.rear + holding s + s.sem) % s.cfg.n
  sem_le : s.sem ≤ s.cfg.n - s.cfg.lwm
  permits_le : s.sem + holding s ≤ s.cfg.n - s.cfg.lwm + 1

/-- The transmit side: the bounds of R29 and the contents of an armed transfer (R212). -/
structure TxInv (s : State) : Prop where
  rd_le : s.txRd ≤ s.txLen
  len_le : s.txLen ≤ s.cfg.txCap
  busy_lt : s.txBusy = true → s.txRd < s.txLen
  busy_written : s.txBusy = true → written s .txbuf s.txLen

/-- The capture side: the bounds of R31 and R36, complete captures (R251), WAIT with a pending interrupt and only then
(60_exceptions.md R266), and no capture while a lost frame is still arriving (R226). -/
structure RxInv (s : State) : Prop where
  lens : s.slotLen.length = s.cfg.n
  mems : s.slotMem.length = s.cfg.n
  wptr_le : s.rxWptr ≤ s.cfg.slotCap
  captured : written s (captureRegion s) s.rxWptr
  len_le : ∀ i, slotLength s i ≤ s.cfg.slotCap
  len_written : ∀ i, written s (.slot i) (slotLength s i)
  wait_irq : s.rxSeq = .wait ↔ s.rxIrq = true
  lost_idle : s.rxLost = true → s.rxSeq ≠ .capture

/-- The invariant every step keeps. -/
structure Inv (s : State) : Prop where
  legal : s.cfg.legal = true
  single : s.cfg.dualRx = false
  ring : RingInv s
  tx : TxInv s
  rx : RxInv s
  mdio_idle : s.mdioCell = 64
  mdio_driven : s.mdioOe = true
  mem_wf : memoryWf s = true
  mem_bounded : memoryBounded s

/-- A DMA agent is at work on the region: the transmit DMA on TXBUF while `tx_busy`, or the capture DMA, inside a frame, on the
region it is armed on (10_state.md R28, R31, R32, R40). -/
def owned (s : State) (buf : Region) : Prop :=
  (s.txBusy = true ∧ buf = .txbuf) ∨ (s.rxSeq = .capture ∧ s.rxTarget = .slot ∧ buf = .slot s.head) ∨
    (s.rxSeq = .capture ∧ s.rxTarget = .dummy ∧ buf = .dummy)

/-- The slots the consumer side may read: rear, rear + 1, ..., rear + h + sem - 1, mod N (R250 d). -/
def claimable (s : State) (i : Nat) : Prop :=
  ∃ j, j < holding s + s.sem ∧ i = (s.rear + j) % s.cfg.n

/-- The slot lengths after the producer's step 1 (44_rx_framer.md R229). -/
def recordedLens (s : State) : List Nat :=
  match s.rxTarget with
  | .slot => s.slotLen.set s.head s.rxWptr
  | .dummy => s.slotLen

/-- The counters after one change, which is a no-op without STATS_EN (10_state.md R37). -/
def counted (f : Counters → Counters) (s : State) : Counters := if s.cfg.statsEn then f s.cnt else s.cnt

/-- IRQ does not move in the coming step, which goes on with these answers of the environment: no interrupt is pending, or the
scheduler's bit, the first one taken, refuses it the turn (60_exceptions.md R267, 70_reset_and_hazards.md R306). -/
def interruptWaits (s : State) (e : Env) : Prop :=
  (irqPending s = false ∧ e = s.env) ∨ (irqPending s = true ∧ s.env.drawTurn.1 = false ∧ e = s.env.drawTurn.2)

/-- POLL goes on by itself in the coming step, with these answers of the environment: IRQ does not move, and no request can
run where POLL stands, or the scheduler's next bit gives POLL the turn (20_memory.md R86, 70_reset_and_hazards.md R306). -/
def pollMoves (s : State) (e : Env) : Prop :=
  ∃ e₀, interruptWaits s e₀ ∧
    ((takeAdmitted s.poll s.env.requests = none ∧ e = e₀) ∨
     (takeAdmitted s.poll s.env.requests ≠ none ∧ s.poll ≠ .ready ∧ e₀.drawTurn.1 = false ∧ e = e₀.drawTurn.2))

/-- The record's selector is one of the events RX.BYTE, RX.BOUNDARY, TX.DMA.BYTE (30_encoding.md R102). -/
def hasEventSelector (r : List Byte) : Prop := ∃ rest, r = 0x10#8 :: rest ∨ r = 0x11#8 :: rest ∨ r = 0x12#8 :: rest

/-- The record's selector is TX.SEND's (30_encoding.md R102). -/
def hasSendSelector (r : List Byte) : Prop := ∃ rest, r = 0x08#8 :: rest

/-- A run of instructions one after the other, stopping where one stops. -/
def execAll : List Instr → State → Outc
  | [], s => .next s
  | i :: is, s => Outc.andThen (exec i s) (execAll is)

/-- The levels the PHY puts on the line in the next n released cells (10_state.md R50). -/
def levels : Nat → Env → List Bool
  | 0, _ => []
  | n + 1, e => e.drawLevel.1 :: levels n e.drawLevel.2

/-- The environment after n released cells. -/
def envAfterLevels : Nat → Env → Env
  | 0, e => e
  | n + 1, e => envAfterLevels n e.drawLevel.2

/-- The events of cells k, k + 1, ... -/
def cellEvents (k : Nat) : List CellLevel → List Event
  | [] => []
  | l :: ls => .cell k l :: cellEvents (k + 1) ls

/-- Everything in the state but the contents of the regions: what a storing form leaves alone is said of this and, byte by
byte, of `readByte`. -/
def registers (s : State) : State :=
  { s with txbuf := [], slotMem := [], dummy := [], hbuf := none, callers := [] }

/-- The regions keep their capacities, and so exist or not as before. -/
def sameRegions (s t : State) : Prop := ∀ r, regionCap t r = regionCap s r

/-- Every byte of every region reads as before, but for n bytes of region r from offset o. -/
def sameBytesBut (s t : State) (r : Region) (o n : Nat) : Prop :=
  ∀ r' a, ¬ (r' = r ∧ o ≤ a ∧ a < o + n) → readByte t r' a = readByte s r' a

/-- The value a read transaction gets from the PHY's next eighteen levels: the two of the turnaround are discarded, the
other sixteen are bits 15 to 0 (30_encoding.md R106, 41_mdio.md R157). -/
def readAnswer (e : Env) : Half := (BitVec.ofBoolListBE ((levels 18 e).drop 2)).setWidth 16

/-- The 64 cells of a read transaction: 46 driven, 18 released (30_encoding.md R104, R107). -/
def readCells (addr reg : U5) (e : Env) : List CellLevel :=
  (readHead addr reg).map .drive ++ (levels 18 e).map .release

/-- The cells of the register-0 reads of a scan over some addresses (42_phy_link_stats.md R181). -/
def scanCells : List U5 → Env → List Event
  | [], _ => []
  | a :: as, e => cellEvents 0 (readCells a 0 e) ++ scanCells as (envAfterLevels 18 e)

/-- What the PHY answers to the k-th register-0 read of a scan, counting from 0. -/
def scanAnswer (k : Nat) (e : Env) : Half := readAnswer (envAfterLevels (18 * k) e)

/-- The frame of a submission before its FCS: the first `totalLen` bytes of the fragments in order, then zeros up to 60
bytes (30_encoding.md R108, 43_tx_framer.md R203, R204). -/
def transmitFrame (frags : List (List Byte)) (totalLen : Nat) : List Byte :=
  frags.flatten.take totalLen ++ List.replicate (60 - totalLen) 0#8

/-- The link notifications of a trace, `true` for `LinkUp` (10_state.md R56 d). -/
def linkEvents : List Event → List Bool
  | [] => []
  | .linkUp :: es => true :: linkEvents es
  | .linkDown :: es => false :: linkEvents es
  | _ :: es => linkEvents es

/-- Each notification differs from the one before it; the first differs from b. -/
def alternates : Bool → List Bool → Prop
  | _, [] => True
  | b, x :: xs => x ≠ b ∧ alternates x xs

/-- The link monitor: the notifications alternate, starting with `LinkUp`, and the cached state is the last one's
(42_phy_link_stats.md R186 e). -/
structure LinkInv (s : State) : Prop where
  alternate : alternates false (linkEvents s.trace)
  cached : s.linkUp = (linkEvents s.trace).getLastD false
  down_before_init : s.up = false → s.linkUp = false

/-- The states the block can reach: from reset, by steps of its agents, by whatever the environment decides, by callers
handing it buffers, and by a hardware reset. -/
inductive Reachable : State → Prop where
  | reset : Reachable State.reset
  | step {s t : State} : Reachable s → step s = .next t → Reachable t
  | environment {s : State} (e : Env) : Reachable s → Reachable (withEnv e s)
  | buffers {s : State} (bs : List Buffer) (wf : ∀ b ∈ bs, b.mem.wf = true ∧ ∀ o, (b.mem.read o).isSome → o < b.cap) :
      Reachable s → Reachable { s with callers := bs }
  | hardwareReset {s : State} : Reachable s → Reachable (hardwareReset s)

end Sys2Proof.Machine
end

