-- ==== Sys2Proof/Certificates/Slice0/Obligations.lean ====
section
/-! DEFINITION. The statements about the model, one per entry of OBLIGATIONS.json. Where a statement speaks of a free answer
of the environment (a turn, a level, a host answer) it holds for every value of it. `interruptWaits s e` and `pollMoves s e`
(Safety.lean) say that IRQ, and every other agent than POLL, do not move in the coming step, which goes on with the answers `e`. -/

open Sys2Proof Sys2Proof.Machine

/-! ### Encoding -/

/-- 30_encoding.md R102 to R105: every operand at every value its encoding admits survives encoding and decoding. The byte
form of CMD operands is the model's (log 1, 10). -/
def Obligations.DecodeOfEncode : Prop := ∀ i : Instr, i.wf = true → decode (encode i) = .ok i

/-- Words of spec/opcode_table.json and of 30_encoding.md R120 decode to the operations they stand for. -/
def Obligations.TableWordsDecode : Prop :=
  decodeTableWord 8 0x01 = some (.crcAppend .txbuf 0) ∧
  decodeTableWord 8 0x05 = some .phyScan ∧
  decodeTableWord 8 0x08 = some (.txSend [] 0) ∧
  decodeTableWord 8 0x09 = some .rxConsume ∧
  decodeTableWord 8 0x12 = some .txDmaByte ∧
  decodeTableWord 8 0x0B = none ∧
  decodeTableWord 32 0x50828000 = some (.mdioWriteFrame 1 0 0x8000) ∧
  decodeTableWord 64 0xFFFFFFFF60840000 = some (.mdioReadFrame 1 1)

/-- 30_encoding.md R113: reserved selectors, and operands outside their type, are refused, never truncated. A record that
begins with 0xFF is refused unless it goes on as an MDIO frame (log 2). -/
def Obligations.ReservedEncodingsRefused : Prop :=
  (∀ (sel : Byte) (rest : List Byte) (s : State),
    sel ∉ [0x01#8, 0x02#8, 0x03#8, 0x04#8, 0x05#8, 0x06#8, 0x07#8, 0x08#8, 0x09#8, 0x0A#8, 0x10#8, 0x11#8, 0x12#8] →
    ¬ (sel = 0xFF#8 ∧ rest.take 3 = [0xFF#8, 0xFF#8, 0xFF#8] ∧ 7 ≤ rest.length) →
    runRecord (sel :: rest) s = .refused (.reservedSelector sel.toNat)) ∧
  (∀ (a g : Nat) (s : State), a < 2 ^ 32 → g < 2 ^ 32 → 31 < a ∨ 31 < g →
    runRecord (0x03#8 :: (word a ++ word g)) s = .refused .operandOutOfType) ∧
  (∀ (a g v : Nat) (s : State), a < 2 ^ 32 → g < 2 ^ 32 → v < 2 ^ 32 → 31 < a ∨ 31 < g ∨ 0xFFFF < v →
    runRecord (0x04#8 :: (word a ++ word g ++ word v)) s = .refused .operandOutOfType) ∧
  (∀ (b : Nat) (s : State), b < 2 ^ 32 → 0xFF < b → runRecord (0x10#8 :: word b) s = .refused .operandOutOfType)

/-- 30_encoding.md R105: the fields of W, and cell 32 + k is W[31 - k] in every driven cell. -/
def Obligations.FrameWordFields : Prop :=
  (∀ addr reg : U5, (readFrameWord addr reg).extractLsb' 30 2 = 0b01#2 ∧ (readFrameWord addr reg).extractLsb' 28 2 = 0b10#2 ∧
    (readFrameWord addr reg).extractLsb' 23 5 = addr ∧ (readFrameWord addr reg).extractLsb' 18 5 = reg) ∧
  (∀ (addr reg : U5) (val : Half), (writeFrameWord addr reg val).extractLsb' 30 2 = 0b01#2 ∧
    (writeFrameWord addr reg val).extractLsb' 28 2 = 0b01#2 ∧ (writeFrameWord addr reg val).extractLsb' 23 5 = addr ∧
    (writeFrameWord addr reg val).extractLsb' 18 5 = reg ∧ (writeFrameWord addr reg val).extractLsb' 16 2 = 0b10#2 ∧
    (writeFrameWord addr reg val).extractLsb' 0 16 = val) ∧
  (∀ (addr reg : U5) (k : Nat), k < 14 →
    (readHead addr reg)[32 + k]? = some ((readFrameWord addr reg).getLsbD (31 - k))) ∧
  (∀ (addr reg : U5) (val : Half) (k : Nat), k < 32 →
    (writeCells addr reg val)[32 + k]? = some ((writeFrameWord addr reg val).getLsbD (31 - k)))

/-- 30_encoding.md R111, R112: which words W after a preamble are frames of the block, and that every other is refused. -/
def Obligations.FramePatterns : Prop :=
  (∀ addr reg : U5, readFrameWord addr reg &&& 0xF0000000#32 = 0x60000000#32) ∧
  (∀ (addr reg : U5) (val : Half), writeFrameWord addr reg val &&& 0xF0030000#32 = 0x50020000#32) ∧
  (∀ w : Word, decode (List.replicate 4 0xFF#8 ++ wireBytes w) =
    if w &&& 0xF0000000#32 = 0x60000000#32 then .ok (.mdioReadFrame (w.extractLsb' 23 5) (w.extractLsb' 18 5))
    else if w &&& 0xF0030000#32 = 0x50020000#32 then
      .ok (.mdioWriteFrame (w.extractLsb' 23 5) (w.extractLsb' 18 5) (w.extractLsb' 0 16))
    else .error .frameNeverGenerated)

/-! ### The CRC engine -/

/-- 40_crc.md R133: the table form computes the byte step; the entries R133 prints. -/
def Obligations.CrcTableForm : Prop :=
  (∀ i : Byte, crcTable i = crcStep 0 i) ∧
  (∀ (c : Word) (b : Byte), crcStep c b = crcTable ((c ^^^ b.setWidth 32).extractLsb' 0 8) ^^^ (c >>> 8)) ∧
  crcTable 0 = 0x00000000#32 ∧ crcTable 1 = 0x77073096#32 ∧ crcTable 2 = 0xEE0E612C#32 ∧
  crcTable 128 = 0xEDB88320#32 ∧ crcTable 255 = 0x2D02EF8D#32

/-- 40_crc.md R135: CRC.APPEND on data that has been written, with its frame, in every region on which no DMA agent is at work
(CrcAppendHeld says what happens there). -/
def Obligations.CrcAppendResult : Prop :=
  ∀ (s : State) (buf : Region) (len c : Nat) (m : List Byte),
    s.up = true → s.poll = .ready → memoryWf s = true → s.slotMem.length = s.cfg.n → ¬ owned s buf →
    regionCap s buf = some c → len + 4 ≤ c → readBytes s buf 0 len = some m →
    ∃ t, exec (.crcAppend buf len) s = .next t ∧
      readByte t buf len = some ((fcs m).extractLsb' 0 8) ∧
      readByte t buf (len + 1) = some ((fcs m).extractLsb' 8 8) ∧
      readByte t buf (len + 2) = some ((fcs m).extractLsb' 16 8) ∧
      readByte t buf (len + 3) = some ((fcs m).extractLsb' 24 8) ∧
      sameBytesBut s t buf len 4 ∧ sameRegions s t ∧ registers t = registers { s with crc := crcAcc m }

/-- 10_state.md R28, R40, R46, 70_reset_and_hazards.md R297: while a DMA agent is at work on the region POLL does not write it:
CRC.APPEND is held (the model's choice, log 18), has no step while that lasts, and then runs as it would have. -/
def Obligations.CrcAppendHeld : Prop :=
  ∀ (s : State) (buf : Region) (len c : Nat) (e : Env), s.up = true →
    (s.poll = .ready → owned s buf → regionCap s buf = some c → len + 4 ≤ c →
      exec (.crcAppend buf len) s = .next { s with poll := .appendWait buf len }) ∧
    (s.poll = .appendWait buf len → pollMoves s e → owned s buf → step s = .next { s with env := e }) ∧
    (s.poll = .appendWait buf len → pollMoves s e → ¬ owned s buf →
      step s = exec (.crcAppend buf len) { s with poll := .ready, env := e })

/-- 40_crc.md R136 and 10_state.md R40, R47: where CRC.APPEND stops. -/
def Obligations.CrcAppendStops : Prop :=
  ∀ (s : State) (buf : Region) (len : Nat), s.up = true → s.poll = .ready →
    (regionCap s buf = none → exec (.crcAppend buf len) s = .refused .noSuchRegion) ∧
    (∀ c, regionCap s buf = some c → c < len + 4 → exec (.crcAppend buf len) s = .refused .appendPastEnd) ∧
    (∀ c o, ¬ owned s buf → regionCap s buf = some c → len + 4 ≤ c → o < len →
      readByte s buf o = none → exec (.crcAppend buf len) s = .fault .neverWritten)

/-- 40_crc.md R138: CRC.VERIFY compares the FCS of all but the last four bytes with those four, lowest byte first. Only
`S.crc` and the trace change. -/
def Obligations.CrcVerifyResult : Prop :=
  ∀ (s : State) (buf : Region) (c : Nat) (m : List Byte) (b0 b1 b2 b3 : Byte),
    s.up = true → s.poll = .ready → regionCap s buf = some c → m.length + 4 ≤ c →
    readBytes s buf 0 (m.length + 4) = some (m ++ [b0, b1, b2, b3]) →
    exec (.crcVerify buf (m.length + 4)) s = .next
      { s with crc := crcAcc m,
               trace := s.trace ++ [.result (.verdict (decide (fcs m = b3 ++ b2 ++ b1 ++ b0)))] }

/-- 40_crc.md R139: the corner cases of CRC.VERIFY. -/
def Obligations.CrcVerifyCorners : Prop :=
  ∀ (s : State) (buf : Region) (c n : Nat), s.up = true → s.poll = .ready → regionCap s buf = some c →
    (n < 4 → exec (.crcVerify buf n) s = .next { s with trace := s.trace ++ [.result (.verdict false)] }) ∧
    (4 ≤ n → c < n → exec (.crcVerify buf n) s = .refused .verifyPastEnd) ∧
    (∀ bs, n = 4 → 4 ≤ c → readBytes s buf 0 4 = some bs →
      exec (.crcVerify buf n) s = .next
        { s with crc := 0xFFFFFFFF#32,
                 trace := s.trace ++ [.result (.verdict (decide (bs = [0#8, 0#8, 0#8, 0#8])))] })

/-- 10_state.md R47, 40_crc.md R138: where CRC.VERIFY stops on memory. -/
def Obligations.CrcVerifyStops : Prop :=
  ∀ (s : State) (buf : Region) (n : Nat), s.up = true → s.poll = .ready →
    (regionCap s buf = none → exec (.crcVerify buf n) s = .refused .noSuchRegion) ∧
    (∀ c o, regionCap s buf = some c → 4 ≤ n → n ≤ c → o < n → readByte s buf o = none →
      exec (.crcVerify buf n) s = .fault .neverWritten)

/-- 40_crc.md R140 (a): appending and then verifying succeeds for all contents and lengths, in every region: at once where no DMA
agent is at work on it, and where the append was held (log 18), once it has gone on. -/
def Obligations.AppendThenVerify : Prop :=
  ∀ (s : State) (buf : Region) (len c : Nat) (m : List Byte),
    s.up = true → memoryWf s = true → s.slotMem.length = s.cfg.n → ¬ owned s buf →
    regionCap s buf = some c → len + 4 ≤ c → readBytes s buf 0 len = some m →
    (s.poll = .ready → ∃ t, execAll [.crcAppend buf len, .crcVerify buf (len + 4)] s = .next t ∧
      t.trace = s.trace ++ [.result (.verdict true)]) ∧
    (∀ e, s.poll = .appendWait buf len → pollMoves s e →
      ∃ t u, step s = .next t ∧ exec (.crcVerify buf (len + 4)) t = .next u ∧
        u.trace = s.trace ++ [.result (.verdict true)])

/-- 40_crc.md R140 (b), (d): a valid sequence with another FCS, or with one bit flipped anywhere, is not accepted. -/
def Obligations.CorruptionDetected : Prop :=
  ∀ (s : State) (buf : Region) (c : Nat) (m bs : List Byte),
    s.up = true → s.poll = .ready → regionCap s buf = some c → m.length + 4 ≤ c →
    readBytes s buf 0 (m.length + 4) = some bs →
    ((∃ f, f ≠ fcs m ∧ bs = m ++ fcsBytes f) ∨
     (∃ k j, k < m.length + 4 ∧ j < 8 ∧ bs = (m ++ fcsBytes (fcs m)).modify k fun b => b ^^^ (1#8 <<< j))) →
    ∃ t, exec (.crcVerify buf (m.length + 4)) s = .next t ∧ t.trace = s.trace ++ [.result (.verdict false)]

/-- 40_crc.md R140 (c): the residue. -/
def Obligations.CrcResidue : Prop :=
  ∀ m : List Byte, crcAcc (m ++ fcsBytes (fcs m)) = 0xDEBB20E3#32 ∧ fcs (m ++ fcsBytes (fcs m)) = 0x2144DF1C#32

/-! ### The MDIO sequencer -/

/-- 41_mdio.md R153, R154: the pins after each write of a driven and of a released cell, and what a cell records. -/
def Obligations.BitCellPinOrder : Prop :=
  ∀ (s : State) (b : Bool),
    pinSequence s (putWrites b) = [(true, s.mdioOut, s.mdc), (true, b, s.mdc), (true, b, false), (true, b, true)] ∧
    mdioPut b s = { s with mdioOe := true, mdioOut := b, mdc := true, mdioCell := s.mdioCell + 1,
                           trace := s.trace ++ [.cell s.mdioCell (.drive b)] } ∧
    pinSequence s getWrites = [(false, s.mdioOut, s.mdc), (false, s.mdioOut, false), (false, s.mdioOut, true)] ∧
    (mdioGet s).1 = s.env.drawLevel.1 ∧
    (mdioGet s).2 = { s with mdioOe := false, mdc := true, mdioCell := s.mdioCell + 1,
                             trace := s.trace ++ [.cell s.mdioCell (.release s.env.drawLevel.1)], env := s.env.drawLevel.2 }

/-- 30_encoding.md R104: what each of the 64 cells of the two frames is. -/
def Obligations.FrameCells : Prop :=
  (∀ (addr reg : U5) (e : Env), (readCells addr reg e).length = 64 ∧
    (∀ k, k < 32 → (readCells addr reg e)[k]? = some (CellLevel.drive true)) ∧
    (readCells addr reg e)[32]? = some (CellLevel.drive false) ∧ (readCells addr reg e)[33]? = some (CellLevel.drive true) ∧
    (readCells addr reg e)[34]? = some (CellLevel.drive true) ∧ (readCells addr reg e)[35]? = some (CellLevel.drive false) ∧
    (∀ i, i < 5 → (readCells addr reg e)[36 + i]? = some (CellLevel.drive (addr.getLsbD (4 - i)))) ∧
    (∀ i, i < 5 → (readCells addr reg e)[41 + i]? = some (CellLevel.drive (reg.getLsbD (4 - i)))) ∧
    (∀ i, i < 2 → ∃ l, (readCells addr reg e)[46 + i]? = some (CellLevel.release l)) ∧
    (∀ i, i < 16 → (readCells addr reg e)[48 + i]? = some (CellLevel.release ((readAnswer e).getLsbD (15 - i))))) ∧
  (∀ (addr reg : U5) (val : Half), (writeCells addr reg val).length = 64 ∧
    (∀ k, k < 32 → (writeCells addr reg val)[k]? = some true) ∧
    (writeCells addr reg val)[32]? = some false ∧ (writeCells addr reg val)[33]? = some true ∧
    (writeCells addr reg val)[34]? = some false ∧ (writeCells addr reg val)[35]? = some true ∧
    (∀ i, i < 5 → (writeCells addr reg val)[36 + i]? = some (addr.getLsbD (4 - i))) ∧
    (∀ i, i < 5 → (writeCells addr reg val)[41 + i]? = some (reg.getLsbD (4 - i))) ∧
    (writeCells addr reg val)[46]? = some true ∧ (writeCells addr reg val)[47]? = some false ∧
    (∀ i, i < 16 → (writeCells addr reg val)[48 + i]? = some (val.getLsbD (15 - i))))

/-- 41_mdio.md R157, R158: MDIO.READ always completes; its result, its cells, the pins it leaves, and its frame. -/
def Obligations.MdioReadResult : Prop :=
  ∀ (s : State) (addr reg : U5), s.up = true → s.poll = .ready → s.mdioCell = 64 →
    exec (.mdioRead addr reg) s = .next
      { s with mdc := true, mdioOut := reg.getLsbD 0, mdioOe := true, mdioSr := readAnswer s.env, mdioCell := 64,
               trace := s.trace ++ cellEvents 0 (readCells addr reg s.env) ++ [.result (.value (readAnswer s.env))],
               env := envAfterLevels 18 s.env }

/-- 41_mdio.md R161, R162: MDIO.WRITE drives all 64 cells and changes nothing else but the pins. -/
def Obligations.MdioWriteResult : Prop :=
  ∀ (s : State) (addr reg : U5) (val : Half), s.up = true → s.poll = .ready → s.mdioCell = 64 →
    exec (.mdioWrite addr reg val) s = .next
      { s with mdc := true, mdioOut := val.getLsbD 0, mdioOe := true, mdioCell := 64,
               trace := s.trace ++ cellEvents 0 ((writeCells addr reg val).map .drive) }

/-- 30_encoding.md R104, R107: the two frames on the wire, without a caller (log 2). -/
def Obligations.WireFrameResults : Prop :=
  ∀ (s : State) (addr reg : U5) (val : Half), s.up = true → s.poll = .ready → s.mdioCell = 64 →
    exec (.mdioReadFrame addr reg) s = .next
      { s with mdc := true, mdioOut := reg.getLsbD 0, mdioOe := true, mdioSr := readAnswer s.env, mdioCell := 64,
               trace := s.trace ++ cellEvents 0 (readCells addr reg s.env), env := envAfterLevels 18 s.env } ∧
    exec (.mdioWriteFrame addr reg val) s = .next
      { s with mdc := true, mdioOut := val.getLsbD 0, mdioOe := true, mdioCell := 64,
               trace := s.trace ++ cellEvents 0 ((writeCells addr reg val).map .drive) }

/-- 41_mdio.md R159 (e): the value read depends on the PHY's answers and on nothing else of the state, nor on the operands. -/
def Obligations.MdioReadDependsOnPhyOnly : Prop :=
  ∀ (s s' : State) (addr reg addr' reg' : U5), s.up = true → s.poll = .ready → s.mdioCell = 64 →
    s'.up = true → s'.poll = .ready → s'.mdioCell = 64 → levels 18 s.env = levels 18 s'.env →
    ∃ t t' v, exec (.mdioRead addr reg) s = .next t ∧ exec (.mdioRead addr' reg') s' = .next t' ∧
      t.mdioSr = v ∧ t'.mdioSr = v ∧ t.trace.getLast? = some (.result (.value v)) ∧
      t'.trace.getLast? = some (.result (.value v))

/-- 41_mdio.md R155: no transaction starts while one is in progress. -/
def Obligations.MdioBusyRefused : Prop :=
  ∀ (s : State) (addr reg : U5) (val : Half), s.up = true → s.poll = .ready → s.mdioCell ≠ 64 →
    exec (.mdioRead addr reg) s = .refused .mdioBusy ∧ exec (.mdioWrite addr reg val) s = .refused .mdioBusy ∧
    exec (.mdioReadFrame addr reg) s = .refused .mdioBusy ∧ exec (.mdioWriteFrame addr reg val) s = .refused .mdioBusy ∧
    exec .phyScan s = .refused .mdioBusy ∧ exec .linkPoll s = .refused .mdioBusy

/-! ### PHY, link, statistics -/

/-- 42_phy_link_stats.md R181: the first address whose register 0 is not all ones wins and ends the scan; else 32 reads and the
address stays. The caller is returned nothing (30_encoding.md R118). -/
def Obligations.PhyScanResult : Prop :=
  ∀ s : State, s.up = true → s.poll = .ready → s.mdioCell = 64 →
    (∀ a : U5, (∀ k, k < a.toNat → scanAnswer k s.env = 0xFFFF#16) → scanAnswer a.toNat s.env ≠ 0xFFFF#16 →
      exec .phyScan s = .next
        { s with mdc := true, mdioOut := false, mdioOe := true, mdioSr := scanAnswer a.toNat s.env, mdioCell := 64,
                 phyAddr := a,
                 trace := s.trace ++ scanCells (scanAddresses.take (a.toNat + 1)) s.env,
                 env := envAfterLevels (18 * (a.toNat + 1)) s.env }) ∧
    ((∀ k, k < 32 → scanAnswer k s.env = 0xFFFF#16) →
      exec .phyScan s = .next
        { s with mdc := true, mdioOut := false, mdioOe := true, mdioSr := 0xFFFF#16, mdioCell := 64,
                 trace := s.trace ++ scanCells scanAddresses s.env,
                 env := envAfterLevels (18 * 32) s.env })

/-- 42_phy_link_stats.md R185: LINK.POLL reads register 1 of the PHY and notifies exactly on an edge of bit 2. -/
def Obligations.LinkPollResult : Prop :=
  ∀ s : State, s.up = true → s.poll = .ready → s.mdioCell = 64 →
    exec .linkPoll s = .next
      { s with mdc := true, mdioOut := true, mdioOe := true, mdioSr := readAnswer s.env, mdioCell := 64,
               linkUp := (readAnswer s.env).getLsbD 2,
               trace := s.trace ++ cellEvents 0 (readCells s.phyAddr 1 s.env) ++
                 (if (readAnswer s.env).getLsbD 2 = s.linkUp then []
                  else [if (readAnswer s.env).getLsbD 2 then .linkUp else .linkDown]),
               env := envAfterLevels 18 s.env }

/-- 42_phy_link_stats.md R186 (e): every step keeps the notifications alternating, with the cached state the last one's. -/
def Obligations.StepKeepsLinkNotificationsAlternating : Prop :=
  ∀ s t : State, LinkInv s → step s = .next t → LinkInv t

/-- 42_phy_link_stats.md R190 and 70_reset_and_hazards.md R303: STATS.REPORT, atomic or with another agent let in between its
snapshot and its zeroing (log 17); a no-op without STATS_EN. -/
def Obligations.StatsReportResult : Prop :=
  ∀ s : State, s.up = true → s.poll = .ready →
    (s.cfg.statsEn = false → exec .statsReport s = .next s) ∧
    (s.cfg.statsEn = true → s.env.drawTurn.1 = false → exec .statsReport s = .next
      { s with cnt := ⟨0, 0, 0, 0, 0, 0, 0⟩, trace := s.trace ++ [.statsReport s.cnt], env := s.env.drawTurn.2 }) ∧
    (s.cfg.statsEn = true → s.env.drawTurn.1 = true → exec .statsReport s = .next
      { s with poll := .reporting, trace := s.trace ++ [.statsReport s.cnt], env := s.env.drawTurn.2 }) ∧
    (∀ (u : State) (e : Env), u.poll = .reporting → pollMoves u e →
      step u = .next { u with cnt := ⟨0, 0, 0, 0, 0, 0, 0⟩, poll := .ready, env := e })

/-! ### The transmit framer -/

/-- 43_tx_framer.md R203 to R209: what TX.SEND leaves in TXBUF, the armed transfer, the count and the answer, and its frame;
also when the host calls it from inside a delivery (10_state.md R55). -/
def Obligations.TxSendResult : Prop :=
  ∀ (s : State) (frags : List (List Byte)) (totalLen : Nat) (frame : List Byte),
    s.up = true → (s.poll = .ready ∨ ∃ n, s.poll = .delivering n) → s.txBusy = false → memoryWf s = true →
    max totalLen 60 + 4 ≤ s.cfg.txCap → totalLen ≤ fragmentsLength frags → frame = transmitFrame frags totalLen →
    frame.length = max totalLen 60 ∧
    ∃ t, exec (.txSend frags totalLen) s = .next t ∧
      readBytes t .txbuf 0 (max totalLen 60 + 4) = some (frame ++ fcsBytes (fcs frame)) ∧
      sameBytesBut s t .txbuf 0 (max totalLen 60 + 4) ∧ sameRegions s t ∧
      registers t = registers
        { s with crc := crcAcc frame, txLen := max totalLen 60 + 4, txRd := 0, txBusy := true,
                 cnt := if s.cfg.statsEn then { s.cnt with txOk := s.cnt.txOk + 1 } else s.cnt,
                 trace := s.trace ++ [.result .success] }

/-- 43_tx_framer.md R202: the operand conditions. A refused call has no next state. They are tested before the wait of R201, so
also while `tx_busy`: the model's choice, which 60_exceptions.md R270 permits (log 30). -/
def Obligations.TxSendRefused : Prop :=
  ∀ (s : State) (frags : List (List Byte)) (totalLen : Nat),
    s.up = true → (s.poll = .ready ∨ ∃ n, s.poll = .delivering n) →
    (s.cfg.txCap < max totalLen 60 + 4 → exec (.txSend frags totalLen) s = .refused .submissionTooLong) ∧
    (max totalLen 60 + 4 ≤ s.cfg.txCap → (frags.map List.length).sum < totalLen →
      exec (.txSend frags totalLen) s = .refused .fragmentsTooShort)

/-- 43_tx_framer.md R201: the call is held while the previous transfer runs, has no step of its own, and goes on as a fresh call
would once the transfer is over. -/
def Obligations.TxSendHeldWhileBusy : Prop :=
  ∀ (s : State) (frags : List (List Byte)) (totalLen : Nat), s.up = true →
    max totalLen 60 + 4 ≤ s.cfg.txCap → totalLen ≤ fragmentsLength frags →
    (s.poll = .ready → s.txBusy = true →
      exec (.txSend frags totalLen) s = .next { s with poll := .txWait frags totalLen none }) ∧
    (∀ n, s.poll = .delivering n → s.txBusy = true →
      exec (.txSend frags totalLen) s = .next { s with poll := .txWait frags totalLen (some n) }) ∧
    (∀ w e, s.poll = .txWait frags totalLen w → pollMoves s e → s.txBusy = true → step s = .next { s with env := e }) ∧
    (∀ e, s.poll = .txWait frags totalLen none → pollMoves s e → s.txBusy = false →
      step s = exec (.txSend frags totalLen) { s with poll := .ready, env := e }) ∧
    (∀ n e, s.poll = .txWait frags totalLen (some n) → pollMoves s e → s.txBusy = false →
      step s = exec (.txSend frags totalLen) { s with poll := .delivering n, env := e })

/-- 43_tx_framer.md R215 (a): what TX.SEND arms verifies. -/
def Obligations.TxSendThenVerify : Prop :=
  ∀ (s : State) (frags : List (List Byte)) (totalLen : Nat),
    s.up = true → s.poll = .ready → s.txBusy = false → memoryWf s = true →
    max totalLen 60 + 4 ≤ s.cfg.txCap → totalLen ≤ fragmentsLength frags →
    ∃ t, execAll [.txSend frags totalLen, .crcVerify .txbuf (max totalLen 60 + 4)] s = .next t ∧
      t.trace = s.trace ++ [.result .success, .result (.verdict true)]

/-- 43_tx_framer.md R210, R211: one byte moves, and the last one frees TXBUF; not enabled, the request moves nothing
(log 14). -/
def Obligations.TxDmaByteResult : Prop :=
  ∀ s : State, s.up = true →
    (∀ b, s.txBusy = true → s.txRd < s.txLen → readByte s .txbuf s.txRd = some b →
      exec .txDmaByte s = .next
        { s with txRd := s.txRd + 1, txBusy := decide (s.txRd + 1 ≠ s.txLen), trace := s.trace ++ [.txByte b] }) ∧
    (s.txBusy = false ∨ s.txLen ≤ s.txRd → exec .txDmaByte s = .next s)

/-- 43_tx_framer.md R212: an armed transfer sends TXBUF's bytes in ascending order, each once, and ends free. -/
def Obligations.TxDmaStream : Prop :=
  ∀ (s : State) (bytes : List Byte), s.up = true → s.txBusy = true → s.txRd = 0 → 0 < s.txLen →
    readBytes s .txbuf 0 s.txLen = some bytes →
    execAll (List.replicate s.txLen .txDmaByte) s = .next
      { s with txRd := s.txLen, txBusy := false, trace := s.trace ++ bytes.map .txByte }

/-- 43_tx_framer.md R212, 10_state.md R28, 70_reset_and_hazards.md R297: no step changes a byte of TXBUF while the transmit DMA owns
it; a TX.SEND and a CRC.APPEND on TXBUF are held (log 18). -/
def Obligations.TxbufUntouchedWhileBusy : Prop :=
  ∀ s t : State, s.up = true → s.txBusy = true → step s = .next t → ∀ o, readByte t .txbuf o = readByte s .txbuf o

/-! ### The receive framer -/

/-- 44_rx_framer.md R223, R224: a received byte is stored at the pointer of the armed region, or discarded when the region is
full; with its frame. -/
def Obligations.RxByteResult : Prop :=
  ∀ (s : State) (b : Byte), s.up = true → s.cfg.dualRx = false → s.rxSeq ≠ .wait → s.rxLost = false → memoryWf s = true →
    s.slotMem.length = s.cfg.n → s.head < s.cfg.n →
    captureRegion s = (if s.rxTarget = .slot then .slot s.head else .dummy) ∧
    (s.rxWptr < s.cfg.slotCap → ∃ t, exec (.rxByte b) s = .next t ∧
      readByte t (captureRegion s) s.rxWptr = some b ∧ sameBytesBut s t (captureRegion s) s.rxWptr 1 ∧
      sameRegions s t ∧ registers t = registers { s with rxWptr := s.rxWptr + 1, rxSeq := .capture }) ∧
    (s.cfg.slotCap ≤ s.rxWptr → exec (.rxByte b) s = .next { s with rxSeq := .capture })

/-- 44_rx_framer.md R226: in WAIT, and while a frame that started there is still arriving, the wire's events are lost: nothing
of the block changes, only whether such a frame is still arriving (log 14). So a frame that starts in WAIT and still arrives when
the producer re-triggers is lost whole (92_eei_decisions.md D26): up to its boundary the block does what it would have done
without it. -/
def Obligations.WaitLosesWireEvents : Prop :=
  (∀ (s : State) (b : Byte), s.up = true → s.cfg.dualRx = false → s.rxSeq = .wait ∨ s.rxLost = true →
    exec (.rxByte b) s = .next { s with rxLost := true } ∧ exec .rxBoundary s = .next { s with rxLost := false }) ∧
  (∀ (s : State) (before after : List Byte), s.up = true → s.cfg.dualRx = false → s.rxSeq = .wait → before ≠ [] →
    ∃ t, execAll (before.map .rxByte) s = .next t ∧
      execAll (after.map .rxByte ++ [.rxBoundary]) (takeBoundaryInterrupt t) =
        .next { takeBoundaryInterrupt s with rxLost := false })

/-- 44_rx_framer.md R225: the first half of a boundary, when the scheduler does not let IRQ move at once (log 15). -/
def Obligations.BoundarySignal : Prop :=
  ∀ s : State, s.up = true → s.cfg.dualRx = false → s.rxSeq ≠ .wait → s.rxLost = false → s.env.drawTurn.1 = false →
    exec .rxBoundary s = .next { s with rxSeq := .wait, rxIrq := true, env := s.env.drawTurn.2 }

/-- 44_rx_framer.md R227 to R234: a boundary whose interrupt is taken at once, in both branches. -/
def Obligations.BoundaryTaken : Prop :=
  ∀ s : State, s.up = true → s.cfg.dualRx = false → s.rxSeq ≠ .wait → s.rxLost = false → s.env.drawTurn.1 = true →
    (s.cfg.n - s.cfg.lwm ≤ s.sem → exec .rxBoundary s = .next
      { s with rxIrq := false, slotLen := (if s.rxTarget = .slot then s.slotLen.set s.head s.rxWptr else s.slotLen),
               rxTarget := .dummy, rxWptr := 0,
               cnt := if s.cfg.statsEn then { s.cnt with rxFull := s.cnt.rxFull + 1 } else s.cnt,
               rxSeq := .listen, trace := s.trace ++ [.retrigger], env := s.env.drawTurn.2 }) ∧
    (s.sem < s.cfg.n - s.cfg.lwm → exec .rxBoundary s = .next
      { s with rxIrq := false, slotLen := (if s.rxTarget = .slot then s.slotLen.set s.head s.rxWptr else s.slotLen),
               head := (s.head + 1) % s.cfg.n, rxTarget := .slot, rxWptr := 0,
               cnt := if s.cfg.statsEn then { s.cnt with rxOk := s.cnt.rxOk + 1 } else s.cnt,
               sem := min (s.sem + 1) s.cfg.n, rxSeq := .listen, trace := s.trace ++ [.retrigger],
               env := s.env.drawTurn.2 })

/-- 60_exceptions.md R267, R271 and 44_rx_framer.md R227 to R234: a step takes a pending interrupt when the scheduler's bit gives
IRQ the turn (log 5): the handler's effect and nothing else, wherever POLL stands. The pending bit, the low-water test, the
length guard and saturation are decisions of the spec (log 27). -/
def Obligations.StepTakesInterrupt : Prop :=
  ∀ s : State, s.up = true → s.rxIrq = true → s.env.drawTurn.1 = true →
    (s.cfg.n - s.cfg.lwm ≤ s.sem → step s = .next
      { s with rxIrq := false, slotLen := (if s.rxTarget = .slot then s.slotLen.set s.head s.rxWptr else s.slotLen),
               rxTarget := .dummy, rxWptr := 0,
               cnt := if s.cfg.statsEn then { s.cnt with rxFull := s.cnt.rxFull + 1 } else s.cnt,
               rxSeq := .listen, trace := s.trace ++ [.retrigger], env := s.env.drawTurn.2 }) ∧
    (s.sem < s.cfg.n - s.cfg.lwm → step s = .next
      { s with rxIrq := false, slotLen := (if s.rxTarget = .slot then s.slotLen.set s.head s.rxWptr else s.slotLen),
               head := (s.head + 1) % s.cfg.n, rxTarget := .slot, rxWptr := 0,
               cnt := if s.cfg.statsEn then { s.cnt with rxOk := s.cnt.rxOk + 1 } else s.cnt,
               sem := min (s.sem + 1) s.cfg.n, rxSeq := .listen, trace := s.trace ++ [.retrigger],
               env := s.env.drawTurn.2 })

/-- 44_rx_framer.md R223, R225, R227, R229, R231: a whole frame, captured into the armed slot of a ring that is not full, ends up
there byte for byte with its length, and its slot is released. The boundary's interrupt is taken at once (log 15). -/
def Obligations.FrameCapture : Prop :=
  ∀ (s : State) (frame : List Byte), s.up = true → Inv s → s.rxSeq = .listen → s.rxLost = false → s.rxTarget = .slot → s.rxWptr = 0 →
    s.sem < s.cfg.n - s.cfg.lwm → frame.length ≤ s.cfg.slotCap → s.env.drawTurn.1 = true →
    ∃ t, execAll (frame.map .rxByte ++ [.rxBoundary]) s = .next t ∧
      slotLength t s.head = frame.length ∧ readBytes t (.slot s.head) 0 frame.length = some frame ∧
      sameBytesBut s t (.slot s.head) 0 frame.length ∧ sameRegions s t ∧
      registers t = registers
        { s with slotLen := s.slotLen.set s.head frame.length, head := (s.head + 1) % s.cfg.n,
                 cnt := if s.cfg.statsEn then { s.cnt with rxOk := s.cnt.rxOk + 1 } else s.cnt,
                 sem := s.sem + 1, trace := s.trace ++ [.retrigger], env := s.env.drawTurn.2 }

/-- 44_rx_framer.md R236: without a permit RX.CONSUME ends in Timeout, changing no state of the block, or waits; with one the
waiting consumer goes on as a fresh call would. -/
def Obligations.ConsumeWaits : Prop :=
  ∀ s : State, s.up = true →
    (s.poll = .ready → s.sem = 0 → s.env.drawTimeout.1 = true → exec .rxConsume s = .next
      { s with trace := s.trace ++ [.result (.consumed .timeout)], env := s.env.drawTimeout.2 }) ∧
    (s.poll = .ready → s.sem = 0 → s.env.drawTimeout.1 = false → exec .rxConsume s = .next
      { s with poll := .semWait, env := s.env.drawTimeout.2 }) ∧
    (∀ e, s.poll = .semWait → pollMoves s e → step s = exec .rxConsume { s with poll := .ready, env := e })

/-- 44_rx_framer.md R237, R238, R242: a claimed slot that does not verify, its length under four included. -/
def Obligations.ConsumeBadCrc : Prop :=
  ∀ s : State, s.up = true → s.poll = .ready → s.sem ≠ 0 → s.env.drawTurn.1 = false → s.rear < s.cfg.n →
    slotLength s s.rear ≤ s.cfg.slotCap →
    (slotLength s s.rear < 4 → exec .rxConsume s = .next
      { s with sem := s.sem - 1, rear := (s.rear + 1) % s.cfg.n,
               cnt := if s.cfg.statsEn then { s.cnt with rxBadCrc := s.cnt.rxBadCrc + 1 } else s.cnt,
               trace := s.trace ++ [.result (.consumed .badCrc)], env := s.env.drawTurn.2 }) ∧
    (∀ m b0 b1 b2 b3, slotLength s s.rear = m.length + 4 →
      readBytes s (.slot s.rear) 0 (m.length + 4) = some (m ++ [b0, b1, b2, b3]) → fcs m ≠ b3 ++ b2 ++ b1 ++ b0 →
      exec .rxConsume s = .next
        { s with sem := s.sem - 1, crc := crcAcc m, rear := (s.rear + 1) % s.cfg.n,
                 cnt := if s.cfg.statsEn then { s.cnt with rxBadCrc := s.cnt.rxBadCrc + 1 } else s.cnt,
                 trace := s.trace ++ [.result (.consumed .badCrc)], env := s.env.drawTurn.2 })

/-- 44_rx_framer.md R239 to R242: a claimed slot that verifies, for each of the host's answers. While the host stays inside its
`input` call, `rear` has already been advanced and the buffer holds the frame (log 7). -/
def Obligations.ConsumeDelivers : Prop :=
  ∀ (s : State) (m : List Byte) (b0 b1 b2 b3 : Byte),
    s.up = true → s.poll = .ready → s.sem ≠ 0 → s.env.drawTurn.1 = false → s.rear < s.cfg.n →
    slotLength s s.rear = m.length + 4 → m.length + 4 ≤ s.cfg.slotCap →
    readBytes s (.slot s.rear) 0 (m.length + 4) = some (m ++ [b0, b1, b2, b3]) → fcs m = b3 ++ b2 ++ b1 ++ b0 →
    (s.env.drawTurn.2.drawAlloc.1 = false → exec .rxConsume s = .next
      { s with sem := s.sem - 1, crc := crcAcc m, rear := (s.rear + 1) % s.cfg.n,
               cnt := if s.cfg.statsEn then { s.cnt with rxAllocFail := s.cnt.rxAllocFail + 1 } else s.cnt,
               trace := s.trace ++ [.alloc m.length, .result (.consumed .allocFail)],
               env := s.env.drawTurn.2.drawAlloc.2 }) ∧
    (s.env.drawTurn.2.drawAlloc.1 = true → s.env.drawTurn.2.drawAlloc.2.drawInput.1 = .ok → exec .rxConsume s = .next
      { s with sem := s.sem - 1, crc := crcAcc m, rear := (s.rear + 1) % s.cfg.n, hbuf := none,
               trace := s.trace ++ [.alloc m.length, .input m, .result (.consumed (.delivered m.length))],
               env := s.env.drawTurn.2.drawAlloc.2.drawInput.2 }) ∧
    (s.env.drawTurn.2.drawAlloc.1 = true → s.env.drawTurn.2.drawAlloc.2.drawInput.1 = .fail → exec .rxConsume s = .next
      { s with sem := s.sem - 1, crc := crcAcc m, rear := (s.rear + 1) % s.cfg.n, hbuf := none,
               cnt := if s.cfg.statsEn then { s.cnt with rxDeliverFail := s.cnt.rxDeliverFail + 1 } else s.cnt,
               trace := s.trace ++ [.alloc m.length, .input m, .free, .result (.consumed .deliverFail)],
               env := s.env.drawTurn.2.drawAlloc.2.drawInput.2 }) ∧
    (s.env.drawTurn.2.drawAlloc.1 = true → s.env.drawTurn.2.drawAlloc.2.drawInput.1 = .stays →
      ∃ mem, exec .rxConsume s = .next
        { s with sem := s.sem - 1, crc := crcAcc m, rear := (s.rear + 1) % s.cfg.n, hbuf := some ⟨m.length, mem⟩,
                 poll := .delivering m.length, trace := s.trace ++ [.alloc m.length, .input m],
                 env := s.env.drawTurn.2.drawAlloc.2.drawInput.2 } ∧
        ∀ o, Memory.read mem o = m[o]?)

/-- 20_memory.md R86: between its acquire and its advance of `rear` the consumer can be overtaken (log 16); it holds the slot
meanwhile and then goes on as it would have at once. -/
def Obligations.ConsumeSuspended : Prop :=
  ∀ s : State, s.up = true →
    (s.poll = .ready → s.sem ≠ 0 → s.env.drawTurn.1 = true → exec .rxConsume s = .next
      { s with sem := s.sem - 1, poll := .claimed, env := s.env.drawTurn.2 }) ∧
    (∀ e, s.poll = .claimed → pollMoves s e →
      step s = exec .rxConsume { s with poll := .ready, sem := s.sem + 1, env := { e with turns := false :: e.turns } })

/-- 44_rx_framer.md R241, 10_state.md R56: the host's `input` call ends from where it stayed. -/
def Obligations.DeliveryEnds : Prop :=
  ∀ (s : State) (n : Nat) (e : Env), s.poll = .delivering n → pollMoves s e →
    (e.drawInput.1 = .ok → step s = .next
      { s with hbuf := none, poll := .ready, trace := s.trace ++ [.result (.consumed (.delivered n))],
               env := e.drawInput.2 }) ∧
    (e.drawInput.1 = .fail → step s = .next
      { s with hbuf := none, poll := .ready,
               cnt := if s.cfg.statsEn then { s.cnt with rxDeliverFail := s.cnt.rxDeliverFail + 1 } else s.cnt,
               trace := s.trace ++ [.free, .result (.consumed .deliverFail)], env := e.drawInput.2 }) ∧
    (e.drawInput.1 = .stays → step s = .next { s with env := e.drawInput.2 })

/-! ### Bring-up and reset -/

/-- 70_reset_and_hazards.md R291, R292: INIT with legal parameters: every field at its value of 10_state.md R58, then the scan.
Nothing is said of `S.crc`, which R58 leaves unspecified (log 11). -/
def Obligations.InitResult : Prop :=
  ∀ (s : State) (c : Cfg), s.up = false → c.legal = true → c.dualRx = false →
    ∃ (x : Word) (sr : Half) (phy : U5) (cells : List Event) (e : Env),
      exec (.init c) s = .next
        { up := true, cfg := c, crc := x, mdc := true, mdioOut := false, mdioOe := true, mdioSr := sr, mdioCell := 64,
          phyAddr := phy, linkUp := false, txBusy := false, txLen := 0, txRd := 0, rxTarget := .slot, rxWptr := 0,
          rxSeq := .listen, rxIrq := false, rxLost := false, head := 0, rear := 0, sem := 0,
          slotLen := List.replicate c.n 0,
          cnt := ⟨0, 0, 0, 0, 0, 0, 0⟩, txbuf := [], slotMem := List.replicate c.n [], dummy := [], hbuf := none,
          callers := s.callers, poll := .ready, loop := .service, trace := s.trace ++ cells, env := e } ∧
      ((∃ a : U5, (∀ k, k < a.toNat → scanAnswer k s.env = 0xFFFF#16) ∧ scanAnswer a.toNat s.env ≠ 0xFFFF#16 ∧
          phy = a ∧ sr = scanAnswer a.toNat s.env ∧ cells = scanCells (scanAddresses.take (a.toNat + 1)) s.env ∧
          e = envAfterLevels (18 * (a.toNat + 1)) s.env) ∨
       ((∀ k, k < 32 → scanAnswer k s.env = 0xFFFF#16) ∧ phy = c.phyAddrDefault ∧ sr = 0xFFFF#16 ∧
          cells = scanCells scanAddresses s.env ∧ e = envAfterLevels (18 * 32) s.env))

/-- 70_reset_and_hazards.md R293, R298 and 44_rx_framer.md R249: where INIT is refused. -/
def Obligations.InitRefused : Prop :=
  ∀ (s : State) (c : Cfg),
    (s.up = true → exec (.init c) s = .refused .alreadyInitialised) ∧
    (s.up = false → c.legal = true → c.dualRx = true → exec (.init c) s = .refused .dualRx) ∧
    (s.up = false → (c.lwm < 2 ∨ 3 < c.lwm ∨ c.n < c.lwm + 1 ∨ c.slotCap < 1524 ∨ c.txCap < 64 ∨ c.tMdio < 1) →
      exec (.init c) s = .refused .operandOutOfType)

/-- 70_reset_and_hazards.md R293: before INIT every other operation is refused and every event ignored. -/
def Obligations.BeforeInit : Prop :=
  ∀ (s : State) (i : Instr), s.up = false →
    ((∃ b, i = .rxByte b) ∨ i = .rxBoundary ∨ i = .txDmaByte → exec i s = .next s) ∧
    ((∀ c, i ≠ .init c) → (∀ b, i ≠ .rxByte b) → i ≠ .rxBoundary → i ≠ .txDmaByte →
      exec i s = .refused .notInitialised)

/-- 10_state.md R58: the values at the end of INIT's step 1, and that the state after reset has them (`S.crc` apart). -/
def Obligations.ResetValues : Prop :=
  (∀ (c : Cfg) (s : State) (r : Region) (o : Nat), (∀ k, r ≠ .caller k) →
    (bringUp c s).mdc = false ∧ (bringUp c s).mdioOut = false ∧ (bringUp c s).mdioOe = true ∧ (bringUp c s).mdioSr = 0 ∧
    (bringUp c s).mdioCell = 64 ∧ (bringUp c s).phyAddr = c.phyAddrDefault ∧ (bringUp c s).linkUp = false ∧
    (bringUp c s).txBusy = false ∧ (bringUp c s).txLen = 0 ∧ (bringUp c s).txRd = 0 ∧ (bringUp c s).rxTarget = .slot ∧
    (bringUp c s).rxWptr = 0 ∧ (bringUp c s).rxSeq = .listen ∧ (bringUp c s).rxIrq = false ∧ (bringUp c s).head = 0 ∧
    (bringUp c s).rear = 0 ∧ (bringUp c s).sem = 0 ∧ (∀ i, slotLength (bringUp c s) i = 0) ∧
    (bringUp c s).cnt = ⟨0, 0, 0, 0, 0, 0, 0⟩ ∧ readByte (bringUp c s) r o = none ∧ (bringUp c s).cfg = c) ∧
  { State.reset with crc := 0, up := false } = { bringUp Cfg.reference State.reset with crc := 0, up := false } ∧
  State.reset.up = false

/-- 70_reset_and_hazards.md R290, R296: a hardware reset leaves the block as it was before INIT, whatever the state was; what is
the environment's stays (log 28). Nothing is said of `S.crc`, which R58 leaves unspecified (log 11). -/
def Obligations.HardwareResetDiscardsState : Prop :=
  ∀ (s : State) (x : Word), (hardwareReset s).up = false ∧
    { hardwareReset s with crc := x } =
      { bringUp s.cfg State.reset with crc := x, callers := s.callers, trace := s.trace, env := s.env } ∧
    (∀ u : State, u.cfg = s.cfg → u.callers = s.callers → u.trace = s.trace → u.env = s.env →
      { hardwareReset u with crc := x } = { hardwareReset s with crc := x })

/-! ### The whole machine -/

/-- The invariant holds right after reset. -/
def Obligations.ResetMeetsInvariant : Prop := Inv State.reset

/-- 44_rx_framer.md R250 with the bounds of 10_state.md R20: the invariant is kept by every step from every state that has it. -/
def Obligations.StepKeepsInvariant : Prop := ∀ s t : State, Inv s → step s = .next t → Inv t

/-- 44_rx_framer.md R250: the ring invariant in every reachable state. -/
def Obligations.RingInvariantReachable : Prop :=
  ∀ s : State, Reachable s →
    s.head = (s.rear + holding s + s.sem) % s.cfg.n ∧
    s.sem ≤ s.cfg.n - s.cfg.lwm ∧
    s.sem + holding s ≤ s.cfg.n - s.cfg.lwm + 1 ∧ s.cfg.n - s.cfg.lwm + 1 ≤ s.cfg.n - 1 ∧
    holding s + s.sem ≤ s.cfg.n - 1 ∧ ¬ claimable s s.head

/-- 44_rx_framer.md R250 (d), R251: no step changes the length or a byte of a claimable slot, unless the program itself asks for a
CRC.APPEND on a slot, or one is held (log 18, 19). -/
def Obligations.ClaimableSlotsUntouched : Prop :=
  ∀ s t : State, Inv s → s.up = true →
    (∀ r ∈ s.env.requests, ∀ j len, decode r ≠ .ok (.crcAppend (.slot j) len)) →
    (∀ j len, s.poll ≠ .appendWait (.slot j) len) → step s = .next t →
    ∀ i, claimable s i →
      slotLength t i = slotLength s i ∧ ∀ o, readByte t (.slot i) o = readByte s (.slot i) o

/-- 10_state.md R20, R40, R46: the writer columns. After bring-up an instruction that is not among a field's or a region's writers
leaves it as it is (CRC.APPEND is a writer of the region it names: 40_crc.md R135, log 19). TXBUF has no writer while `tx_busy`,
and the region a frame is being captured into none but RX.BYTE (log 18). -/
def Obligations.SingleWriters : Prop :=
  ∀ (s t : State) (i : Instr), s.up = true → exec i s = .next t →
    -- the CRC engine
    ((∀ r n, i ≠ .crcAppend r n) → (∀ r n, i ≠ .crcVerify r n) → (∀ f n, i ≠ .txSend f n) → i ≠ .rxConsume →
      t.crc = s.crc) ∧
    -- the MDIO sequencer, the PHY address, the link state
    ((∀ a g, i ≠ .mdioRead a g) → (∀ a g v, i ≠ .mdioWrite a g v) → (∀ a g, i ≠ .mdioReadFrame a g) →
      (∀ a g v, i ≠ .mdioWriteFrame a g v) → i ≠ .phyScan → i ≠ .linkPoll →
      t.mdc = s.mdc ∧ t.mdioOut = s.mdioOut ∧ t.mdioOe = s.mdioOe ∧ t.mdioCell = s.mdioCell) ∧
    ((∀ a g, i ≠ .mdioRead a g) → (∀ a g, i ≠ .mdioReadFrame a g) → i ≠ .phyScan → i ≠ .linkPoll →
      t.mdioSr = s.mdioSr) ∧
    (i ≠ .phyScan → t.phyAddr = s.phyAddr) ∧ (i ≠ .linkPoll → t.linkUp = s.linkUp) ∧
    -- the transmit framer and its DMA
    ((∀ f n, i ≠ .txSend f n) → t.txLen = s.txLen ∧ (i ≠ .txDmaByte → t.txBusy = s.txBusy ∧ t.txRd = s.txRd)) ∧
    -- the capture side, the ring and the semaphore
    (i ≠ .rxBoundary → t.head = s.head ∧ t.slotLen = s.slotLen ∧ t.rxTarget = s.rxTarget ∧ t.rxIrq = s.rxIrq ∧
      t.sem ≤ s.sem ∧ ((∀ b, i ≠ .rxByte b) → t.rxWptr = s.rxWptr ∧ t.rxSeq = s.rxSeq ∧ t.rxLost = s.rxLost)) ∧
    (i ≠ .rxConsume → t.rear = s.rear) ∧
    (i = .rxConsume → s.sem - 1 ≤ t.sem ∧ t.sem ≤ s.sem) ∧
    (i = .rxBoundary → t.sem = s.sem ∨ t.sem = min (s.sem + 1) s.cfg.n) ∧
    (i ≠ .rxBoundary → i ≠ .rxConsume → t.sem = s.sem) ∧
    -- the counters: each has one instruction that counts, and STATS.REPORT zeroes them all
    (i ≠ .statsReport →
      (i ≠ .rxBoundary → t.cnt.rxOk = s.cnt.rxOk ∧ t.cnt.rxFull = s.cnt.rxFull) ∧
      (i ≠ .rxConsume → t.cnt.rxBadCrc = s.cnt.rxBadCrc ∧ t.cnt.rxAllocFail = s.cnt.rxAllocFail ∧
        t.cnt.rxDeliverFail = s.cnt.rxDeliverFail) ∧
      ((∀ f n, i ≠ .txSend f n) → t.cnt.txOk = s.cnt.txOk) ∧ t.cnt.rxForceClear = s.cnt.rxForceClear) ∧
    (i = .statsReport → t.cnt = s.cnt ∨ t.cnt = ⟨0, 0, 0, 0, 0, 0, 0⟩) ∧
    -- the regions
    ((∀ f n, i ≠ .txSend f n) → (∀ n, i ≠ .crcAppend .txbuf n) → t.txbuf = s.txbuf) ∧
    (s.txBusy = true → t.txbuf = s.txbuf) ∧
    ((∀ b, i ≠ .rxByte b) → s.rxSeq = .capture →
      (s.rxTarget = .slot → ∀ o, readByte t (.slot s.head) o = readByte s (.slot s.head) o) ∧
      (s.rxTarget = .dummy → t.dummy = s.dummy)) ∧
    ((∀ b, i ≠ .rxByte b) → (∀ k n, i ≠ .crcAppend (.slot k) n) → t.slotMem = s.slotMem) ∧
    ((∀ b, i ≠ .rxByte b) → (∀ n, i ≠ .crcAppend .dummy n) → t.dummy = s.dummy) ∧
    (i ≠ .rxConsume → (∀ n, i ≠ .crcAppend .hbuf n) → t.hbuf = s.hbuf) ∧
    ((∀ k n, i ≠ .crcAppend (.caller k) n) → t.callers = s.callers) ∧
    -- where POLL and its loop stand, and the configuration
    (i ≠ .rxConsume → i ≠ .statsReport → (∀ f n, i ≠ .txSend f n) → (∀ r n, i = .crcAppend r n → ¬ owned s r) → t.poll = s.poll) ∧
    t.loop = s.loop ∧ t.cfg = s.cfg ∧ t.up = true

/-- 60_exceptions.md R261, R264: from a state with the invariant a step stops in a fault only when it runs a CRC command of the
program: the first record that can run decodes to one and the step is that command, or the step is a CRC.APPEND that was held
(log 18) and goes on. -/
def Obligations.OnlyCrcCommandsFault : Prop :=
  ∀ (s : State) (f : Fault), Inv s → step s = .fault f →
    (∃ r rest i e, takeAdmitted s.poll s.env.requests = some (r, rest) ∧ decode r = .ok i ∧
      ((∃ buf len, i = .crcAppend buf len) ∨ (∃ buf len, i = .crcVerify buf len)) ∧ step s = exec i (withEnv e s)) ∨
    (∃ buf len e, s.poll = .appendWait buf len ∧ pollMoves s e ∧ ¬ owned s buf ∧
      step s = crcAppend buf len { s with poll := .ready, env := e })

/-- 60_exceptions.md R277 (a): POLL issues one operation at a time. A command asked for while it is inside another one is refused
under the name pollBusy (log 20); TX.SEND from inside a delivery is not one of these (10_state.md R55). -/
def Obligations.PollBusyRefused : Prop :=
  ∀ (s : State) (i : Instr), s.up = true → s.poll ≠ .ready →
    (∀ b, i ≠ .rxByte b) → i ≠ .rxBoundary → i ≠ .txDmaByte → (∀ c, i ≠ .init c) →
    ((∃ f n, i = .txSend f n) → ∀ n, s.poll ≠ .delivering n) →
    exec i s = .refused .pollBusy

/-- 10_state.md R42: the register table: one index for each register, the widths, and what POLL reads. TX_LEN of a transfer that
needs more than its 16 bits is left open (log 33); the counters exist with STATS_EN only (R37, R38). -/
def Obligations.RegisterTable : Prop :=
  (∀ k, k < 17 → ∃ r : ControlReg, r.index = k) ∧ (∀ r q : ControlReg, r.index = q.index → r = q ∧ r.index < 17) ∧
  (∀ n, 2 ≤ n → n ≤ 2 ^ bitsFor n ∧ 2 ^ (bitsFor n - 1) < n) ∧
  ∀ s : State, Inv s →
    readReg s .phyAddr = some ⟨5, s.phyAddr⟩ ∧
    readReg s .linkUp = some ⟨1, if s.linkUp then 1#1 else 0#1⟩ ∧
    readReg s .txBusy = some ⟨1, if s.txBusy then 1#1 else 0#1⟩ ∧
    (∃ v : BitVec 16, readReg s .txLen = some ⟨16, v⟩ ∧ (s.txLen < 2 ^ 16 → v.toNat = s.txLen)) ∧
    (∃ v : BitVec (bitsFor s.cfg.n), readReg s .head = some ⟨bitsFor s.cfg.n, v⟩ ∧ v.toNat = s.head) ∧
    (∃ v : BitVec (bitsFor s.cfg.n), readReg s .rear = some ⟨bitsFor s.cfg.n, v⟩ ∧ v.toNat = s.rear) ∧
    (∃ v : BitVec (bitsFor (s.cfg.n + 1)), readReg s .sem = some ⟨bitsFor (s.cfg.n + 1), v⟩ ∧ v.toNat = s.sem) ∧
    readReg s .rxTarget = none ∧ regContents s .rxTarget = some ⟨1, if s.rxTarget = .slot then 0#1 else 1#1⟩ ∧
    (s.cfg.statsEn = true →
      readReg s .cntRxOk = some ⟨32, s.cnt.rxOk⟩ ∧ readReg s .cntRxFull = some ⟨32, s.cnt.rxFull⟩ ∧
      readReg s .cntRxBadCrc = some ⟨32, s.cnt.rxBadCrc⟩ ∧ readReg s .cntRxAllocFail = some ⟨32, s.cnt.rxAllocFail⟩ ∧
      readReg s .cntRxDeliverFail = some ⟨32, s.cnt.rxDeliverFail⟩ ∧ readReg s .cntTxOk = some ⟨32, s.cnt.txOk⟩) ∧
    (s.cfg.statsEn = false → ∀ r : ControlReg, 8 ≤ r.index → r.index ≤ 14 → readReg s r = none) ∧
    readReg s .cntRxForceClear = none ∧
    (∃ v : BitVec 3, readReg s .mdioPins = some ⟨3, v⟩ ∧ v.getLsbD 2 = s.mdc ∧ v.getLsbD 1 = s.mdioOe ∧
      v.getLsbD 0 = s.mdioOut) ∧
    readReg s .cfg = none

/-- 30_encoding.md R117, 60_exceptions.md R277 (d): the poll loop, an endless round. With nothing else to run POLL goes on with
`[LINK.POLL; STATS.REPORT]` if the interval has elapsed, a free bit (70_reset_and_hazards.md R306), then `RX.CONSUME`, and
begins again (log 34). -/
def Obligations.PollLoop : Prop :=
  ∀ (s : State) (e : Env), s.up = true → s.poll = .ready → pollMoves s e →
    (s.loop = .service → e.drawInterval.1 = true →
      step s = exec .linkPoll { s with loop := .report, env := e.drawInterval.2 }) ∧
    (s.loop = .service → e.drawInterval.1 = false →
      step s = exec .rxConsume { s with loop := .service, env := e.drawInterval.2 }) ∧
    (s.loop = .report → step s = exec .statsReport { s with loop := .consume, env := e }) ∧
    (s.loop = .consume → step s = exec .rxConsume { s with loop := .service, env := e })

/-- 30_encoding.md R117, 60_exceptions.md R277 (a): between operations a step runs the operation the next record decodes to, and a
record that decodes to none stops it by name; a pending interrupt has waited its turn (60_exceptions.md R267). Before INIT
(70_reset_and_hazards.md R293) a step with no record leaves the state as it is (log 24). -/
def Obligations.StepRunsDecodedRecord : Prop :=
  ∀ (s : State) (e : Env), s.poll = .ready → interruptWaits s e →
    (∀ r rs i, s.env.requests = r :: rs → decode r = .ok i → step s = exec i { s with env := { e with requests := rs } }) ∧
    (∀ r rs x, s.env.requests = r :: rs → decode r = .error x → step s = .refused (undecodable x)) ∧
    (s.env.requests = [] → s.up = false → step s = .next s)

/-- 20_memory.md R86, 10_state.md R55: while POLL is inside an operation, the step runs the first event record (inside a
delivery, or the first TX.SEND record) when its agent has the turn, and passes over the others: commands, and TX.SEND outside
a delivery. A pending interrupt has waited its turn. -/
def Obligations.StepInsideOperation : Prop :=
  ∀ (s : State) (e : Env) (before after : List (List Byte)) (r : List Byte) (i : Instr),
    s.poll ≠ .ready → interruptWaits s e → s.env.requests = before ++ r :: after → decode r = .ok i →
    (∀ x ∈ before, ¬ hasEventSelector x ∧ (hasSendSelector x → ∀ n, s.poll ≠ .delivering n)) →
    ((∃ b, i = .rxByte b) ∨ i = .rxBoundary ∨ i = .txDmaByte ∨
      ((∃ f n, i = .txSend f n) ∧ ∃ n, s.poll = .delivering n)) →
    e.drawTurn.1 = true →
    step s = exec i { s with env := { e.drawTurn.2 with requests := before ++ after } }
end

