-- ==== Sys2Proof/Laws/State.lean ====
section
/-! SUPPORT. What each named update of the state leaves in every field: one theorem per update, which simp takes apart into
one rewrite per field. -/

namespace Sys2Proof.Machine

@[simp] theorem emit_fields (e : Event) (s : State) :
    (emit e s).up = s.up ∧ (emit e s).cfg = s.cfg ∧ (emit e s).crc = s.crc ∧ (emit e s).mdc = s.mdc ∧ (emit e
    s).mdioOut = s.mdioOut ∧ (emit e s).mdioOe = s.mdioOe ∧ (emit e s).mdioSr = s.mdioSr ∧ (emit e s).mdioCell =
    s.mdioCell ∧ (emit e s).phyAddr = s.phyAddr ∧ (emit e s).linkUp = s.linkUp ∧ (emit e s).txBusy = s.txBusy ∧
    (emit e s).txLen = s.txLen ∧ (emit e s).txRd = s.txRd ∧ (emit e s).rxTarget = s.rxTarget ∧ (emit e s).rxWptr
    = s.rxWptr ∧ (emit e s).rxSeq = s.rxSeq ∧ (emit e s).rxIrq = s.rxIrq ∧ (emit e s).rxLost = s.rxLost ∧ (emit
    e s).head = s.head ∧ (emit e s).rear = s.rear ∧ (emit e s).sem = s.sem ∧ (emit e s).slotLen = s.slotLen ∧
    (emit e s).cnt = s.cnt ∧ (emit e s).txbuf = s.txbuf ∧ (emit e s).slotMem = s.slotMem ∧ (emit e s).dummy =
    s.dummy ∧ (emit e s).hbuf = s.hbuf ∧ (emit e s).callers = s.callers ∧ (emit e s).poll = s.poll ∧ (emit e
    s).loop = s.loop ∧ (emit e s).trace = s.trace ++ [e] ∧ (emit e s).env = s.env := by
  refine ⟨?_, ?_, ?_, ?_, ?_, ?_, ?_, ?_, ?_, ?_, ?_, ?_, ?_, ?_, ?_, ?_, ?_, ?_, ?_, ?_, ?_, ?_, ?_, ?_, ?_, ?_, ?_, ?_, ?_, ?_, ?_, ?_⟩ <;> rfl

@[simp] theorem withEnv_fields (e : Env) (s : State) :
    (withEnv e s).up = s.up ∧ (withEnv e s).cfg = s.cfg ∧ (withEnv e s).crc = s.crc ∧ (withEnv e s).mdc = s.mdc
    ∧ (withEnv e s).mdioOut = s.mdioOut ∧ (withEnv e s).mdioOe = s.mdioOe ∧ (withEnv e s).mdioSr = s.mdioSr ∧
    (withEnv e s).mdioCell = s.mdioCell ∧ (withEnv e s).phyAddr = s.phyAddr ∧ (withEnv e s).linkUp = s.linkUp ∧
    (withEnv e s).txBusy = s.txBusy ∧ (withEnv e s).txLen = s.txLen ∧ (withEnv e s).txRd = s.txRd ∧ (withEnv e
    s).rxTarget = s.rxTarget ∧ (withEnv e s).rxWptr = s.rxWptr ∧ (withEnv e s).rxSeq = s.rxSeq ∧ (withEnv e
    s).rxIrq = s.rxIrq ∧ (withEnv e s).rxLost = s.rxLost ∧ (withEnv e s).head = s.head ∧ (withEnv e s).rear =
    s.rear ∧ (withEnv e s).sem = s.sem ∧ (withEnv e s).slotLen = s.slotLen ∧ (withEnv e s).cnt = s.cnt ∧
    (withEnv e s).txbuf = s.txbuf ∧ (withEnv e s).slotMem = s.slotMem ∧ (withEnv e s).dummy = s.dummy ∧ (withEnv
    e s).hbuf = s.hbuf ∧ (withEnv e s).callers = s.callers ∧ (withEnv e s).poll = s.poll ∧ (withEnv e s).loop =
    s.loop ∧ (withEnv e s).trace = s.trace ∧ (withEnv e s).env = e := by
  refine ⟨?_, ?_, ?_, ?_, ?_, ?_, ?_, ?_, ?_, ?_, ?_, ?_, ?_, ?_, ?_, ?_, ?_, ?_, ?_, ?_, ?_, ?_, ?_, ?_, ?_, ?_, ?_, ?_, ?_, ?_, ?_, ?_⟩ <;> rfl

@[simp] theorem semRelease_fields (s : State) :
    (semRelease s).up = s.up ∧ (semRelease s).cfg = s.cfg ∧ (semRelease s).crc = s.crc ∧ (semRelease s).mdc =
    s.mdc ∧ (semRelease s).mdioOut = s.mdioOut ∧ (semRelease s).mdioOe = s.mdioOe ∧ (semRelease s).mdioSr =
    s.mdioSr ∧ (semRelease s).mdioCell = s.mdioCell ∧ (semRelease s).phyAddr = s.phyAddr ∧ (semRelease s).linkUp
    = s.linkUp ∧ (semRelease s).txBusy = s.txBusy ∧ (semRelease s).txLen = s.txLen ∧ (semRelease s).txRd =
    s.txRd ∧ (semRelease s).rxTarget = s.rxTarget ∧ (semRelease s).rxWptr = s.rxWptr ∧ (semRelease s).rxSeq =
    s.rxSeq ∧ (semRelease s).rxIrq = s.rxIrq ∧ (semRelease s).rxLost = s.rxLost ∧ (semRelease s).head = s.head ∧
    (semRelease s).rear = s.rear ∧ (semRelease s).sem = min (s.sem + 1) s.cfg.n ∧ (semRelease s).slotLen =
    s.slotLen ∧ (semRelease s).cnt = s.cnt ∧ (semRelease s).txbuf = s.txbuf ∧ (semRelease s).slotMem = s.slotMem
    ∧ (semRelease s).dummy = s.dummy ∧ (semRelease s).hbuf = s.hbuf ∧ (semRelease s).callers = s.callers ∧
    (semRelease s).poll = s.poll ∧ (semRelease s).loop = s.loop ∧ (semRelease s).trace = s.trace ∧ (semRelease
    s).env = s.env := by
  refine ⟨?_, ?_, ?_, ?_, ?_, ?_, ?_, ?_, ?_, ?_, ?_, ?_, ?_, ?_, ?_, ?_, ?_, ?_, ?_, ?_, ?_, ?_, ?_, ?_, ?_, ?_, ?_, ?_, ?_, ?_, ?_, ?_⟩ <;> rfl

@[simp] theorem semAcquire_fields (s : State) :
    (semAcquire s).up = s.up ∧ (semAcquire s).cfg = s.cfg ∧ (semAcquire s).crc = s.crc ∧ (semAcquire s).mdc =
    s.mdc ∧ (semAcquire s).mdioOut = s.mdioOut ∧ (semAcquire s).mdioOe = s.mdioOe ∧ (semAcquire s).mdioSr =
    s.mdioSr ∧ (semAcquire s).mdioCell = s.mdioCell ∧ (semAcquire s).phyAddr = s.phyAddr ∧ (semAcquire s).linkUp
    = s.linkUp ∧ (semAcquire s).txBusy = s.txBusy ∧ (semAcquire s).txLen = s.txLen ∧ (semAcquire s).txRd =
    s.txRd ∧ (semAcquire s).rxTarget = s.rxTarget ∧ (semAcquire s).rxWptr = s.rxWptr ∧ (semAcquire s).rxSeq =
    s.rxSeq ∧ (semAcquire s).rxIrq = s.rxIrq ∧ (semAcquire s).rxLost = s.rxLost ∧ (semAcquire s).head = s.head ∧
    (semAcquire s).rear = s.rear ∧ (semAcquire s).sem = s.sem - 1 ∧ (semAcquire s).slotLen = s.slotLen ∧
    (semAcquire s).cnt = s.cnt ∧ (semAcquire s).txbuf = s.txbuf ∧ (semAcquire s).slotMem = s.slotMem ∧
    (semAcquire s).dummy = s.dummy ∧ (semAcquire s).hbuf = s.hbuf ∧ (semAcquire s).callers = s.callers ∧
    (semAcquire s).poll = s.poll ∧ (semAcquire s).loop = s.loop ∧ (semAcquire s).trace = s.trace ∧ (semAcquire
    s).env = s.env := by
  refine ⟨?_, ?_, ?_, ?_, ?_, ?_, ?_, ?_, ?_, ?_, ?_, ?_, ?_, ?_, ?_, ?_, ?_, ?_, ?_, ?_, ?_, ?_, ?_, ?_, ?_, ?_, ?_, ?_, ?_, ?_, ?_, ?_⟩ <;> rfl

@[simp] theorem advanceHead_fields (s : State) :
    (advanceHead s).up = s.up ∧ (advanceHead s).cfg = s.cfg ∧ (advanceHead s).crc = s.crc ∧ (advanceHead s).mdc
    = s.mdc ∧ (advanceHead s).mdioOut = s.mdioOut ∧ (advanceHead s).mdioOe = s.mdioOe ∧ (advanceHead s).mdioSr =
    s.mdioSr ∧ (advanceHead s).mdioCell = s.mdioCell ∧ (advanceHead s).phyAddr = s.phyAddr ∧ (advanceHead
    s).linkUp = s.linkUp ∧ (advanceHead s).txBusy = s.txBusy ∧ (advanceHead s).txLen = s.txLen ∧ (advanceHead
    s).txRd = s.txRd ∧ (advanceHead s).rxTarget = s.rxTarget ∧ (advanceHead s).rxWptr = s.rxWptr ∧ (advanceHead
    s).rxSeq = s.rxSeq ∧ (advanceHead s).rxIrq = s.rxIrq ∧ (advanceHead s).rxLost = s.rxLost ∧ (advanceHead
    s).head = (s.head + 1) % s.cfg.n ∧ (advanceHead s).rear = s.rear ∧ (advanceHead s).sem = s.sem ∧
    (advanceHead s).slotLen = s.slotLen ∧ (advanceHead s).cnt = s.cnt ∧ (advanceHead s).txbuf = s.txbuf ∧
    (advanceHead s).slotMem = s.slotMem ∧ (advanceHead s).dummy = s.dummy ∧ (advanceHead s).hbuf = s.hbuf ∧
    (advanceHead s).callers = s.callers ∧ (advanceHead s).poll = s.poll ∧ (advanceHead s).loop = s.loop ∧
    (advanceHead s).trace = s.trace ∧ (advanceHead s).env = s.env := by
  refine ⟨?_, ?_, ?_, ?_, ?_, ?_, ?_, ?_, ?_, ?_, ?_, ?_, ?_, ?_, ?_, ?_, ?_, ?_, ?_, ?_, ?_, ?_, ?_, ?_, ?_, ?_, ?_, ?_, ?_, ?_, ?_, ?_⟩ <;> rfl

@[simp] theorem advanceRear_fields (s : State) :
    (advanceRear s).up = s.up ∧ (advanceRear s).cfg = s.cfg ∧ (advanceRear s).crc = s.crc ∧ (advanceRear s).mdc
    = s.mdc ∧ (advanceRear s).mdioOut = s.mdioOut ∧ (advanceRear s).mdioOe = s.mdioOe ∧ (advanceRear s).mdioSr =
    s.mdioSr ∧ (advanceRear s).mdioCell = s.mdioCell ∧ (advanceRear s).phyAddr = s.phyAddr ∧ (advanceRear
    s).linkUp = s.linkUp ∧ (advanceRear s).txBusy = s.txBusy ∧ (advanceRear s).txLen = s.txLen ∧ (advanceRear
    s).txRd = s.txRd ∧ (advanceRear s).rxTarget = s.rxTarget ∧ (advanceRear s).rxWptr = s.rxWptr ∧ (advanceRear
    s).rxSeq = s.rxSeq ∧ (advanceRear s).rxIrq = s.rxIrq ∧ (advanceRear s).rxLost = s.rxLost ∧ (advanceRear
    s).head = s.head ∧ (advanceRear s).rear = (s.rear + 1) % s.cfg.n ∧ (advanceRear s).sem = s.sem ∧
    (advanceRear s).slotLen = s.slotLen ∧ (advanceRear s).cnt = s.cnt ∧ (advanceRear s).txbuf = s.txbuf ∧
    (advanceRear s).slotMem = s.slotMem ∧ (advanceRear s).dummy = s.dummy ∧ (advanceRear s).hbuf = s.hbuf ∧
    (advanceRear s).callers = s.callers ∧ (advanceRear s).poll = s.poll ∧ (advanceRear s).loop = s.loop ∧
    (advanceRear s).trace = s.trace ∧ (advanceRear s).env = s.env := by
  refine ⟨?_, ?_, ?_, ?_, ?_, ?_, ?_, ?_, ?_, ?_, ?_, ?_, ?_, ?_, ?_, ?_, ?_, ?_, ?_, ?_, ?_, ?_, ?_, ?_, ?_, ?_, ?_, ?_, ?_, ?_, ?_, ?_⟩ <;> rfl

@[simp] theorem armCapture_fields (t : RxTarget) (s : State) :
    (armCapture t s).up = s.up ∧ (armCapture t s).cfg = s.cfg ∧ (armCapture t s).crc = s.crc ∧ (armCapture t
    s).mdc = s.mdc ∧ (armCapture t s).mdioOut = s.mdioOut ∧ (armCapture t s).mdioOe = s.mdioOe ∧ (armCapture t
    s).mdioSr = s.mdioSr ∧ (armCapture t s).mdioCell = s.mdioCell ∧ (armCapture t s).phyAddr = s.phyAddr ∧
    (armCapture t s).linkUp = s.linkUp ∧ (armCapture t s).txBusy = s.txBusy ∧ (armCapture t s).txLen = s.txLen ∧
    (armCapture t s).txRd = s.txRd ∧ (armCapture t s).rxTarget = t ∧ (armCapture t s).rxWptr = 0 ∧ (armCapture t
    s).rxSeq = s.rxSeq ∧ (armCapture t s).rxIrq = s.rxIrq ∧ (armCapture t s).rxLost = s.rxLost ∧ (armCapture t
    s).head = s.head ∧ (armCapture t s).rear = s.rear ∧ (armCapture t s).sem = s.sem ∧ (armCapture t s).slotLen
    = s.slotLen ∧ (armCapture t s).cnt = s.cnt ∧ (armCapture t s).txbuf = s.txbuf ∧ (armCapture t s).slotMem =
    s.slotMem ∧ (armCapture t s).dummy = s.dummy ∧ (armCapture t s).hbuf = s.hbuf ∧ (armCapture t s).callers =
    s.callers ∧ (armCapture t s).poll = s.poll ∧ (armCapture t s).loop = s.loop ∧ (armCapture t s).trace =
    s.trace ∧ (armCapture t s).env = s.env := by
  refine ⟨?_, ?_, ?_, ?_, ?_, ?_, ?_, ?_, ?_, ?_, ?_, ?_, ?_, ?_, ?_, ?_, ?_, ?_, ?_, ?_, ?_, ?_, ?_, ?_, ?_, ?_, ?_, ?_, ?_, ?_, ?_, ?_⟩ <;> rfl

@[simp] theorem signalBoundary_fields (s : State) :
    (signalBoundary s).up = s.up ∧ (signalBoundary s).cfg = s.cfg ∧ (signalBoundary s).crc = s.crc ∧
    (signalBoundary s).mdc = s.mdc ∧ (signalBoundary s).mdioOut = s.mdioOut ∧ (signalBoundary s).mdioOe =
    s.mdioOe ∧ (signalBoundary s).mdioSr = s.mdioSr ∧ (signalBoundary s).mdioCell = s.mdioCell ∧ (signalBoundary
    s).phyAddr = s.phyAddr ∧ (signalBoundary s).linkUp = s.linkUp ∧ (signalBoundary s).txBusy = s.txBusy ∧
    (signalBoundary s).txLen = s.txLen ∧ (signalBoundary s).txRd = s.txRd ∧ (signalBoundary s).rxTarget =
    s.rxTarget ∧ (signalBoundary s).rxWptr = s.rxWptr ∧ (signalBoundary s).rxSeq = .wait ∧ (signalBoundary
    s).rxIrq = true ∧ (signalBoundary s).rxLost = s.rxLost ∧ (signalBoundary s).head = s.head ∧ (signalBoundary
    s).rear = s.rear ∧ (signalBoundary s).sem = s.sem ∧ (signalBoundary s).slotLen = s.slotLen ∧ (signalBoundary
    s).cnt = s.cnt ∧ (signalBoundary s).txbuf = s.txbuf ∧ (signalBoundary s).slotMem = s.slotMem ∧
    (signalBoundary s).dummy = s.dummy ∧ (signalBoundary s).hbuf = s.hbuf ∧ (signalBoundary s).callers =
    s.callers ∧ (signalBoundary s).poll = s.poll ∧ (signalBoundary s).loop = s.loop ∧ (signalBoundary s).trace =
    s.trace ∧ (signalBoundary s).env = s.env := by
  refine ⟨?_, ?_, ?_, ?_, ?_, ?_, ?_, ?_, ?_, ?_, ?_, ?_, ?_, ?_, ?_, ?_, ?_, ?_, ?_, ?_, ?_, ?_, ?_, ?_, ?_, ?_, ?_, ?_, ?_, ?_, ?_, ?_⟩ <;> rfl

@[simp] theorem consumed_fields (o : ConsumeOutcome) (s : State) :
    (consumed o s).up = s.up ∧ (consumed o s).cfg = s.cfg ∧ (consumed o s).crc = s.crc ∧ (consumed o s).mdc =
    s.mdc ∧ (consumed o s).mdioOut = s.mdioOut ∧ (consumed o s).mdioOe = s.mdioOe ∧ (consumed o s).mdioSr =
    s.mdioSr ∧ (consumed o s).mdioCell = s.mdioCell ∧ (consumed o s).phyAddr = s.phyAddr ∧ (consumed o s).linkUp
    = s.linkUp ∧ (consumed o s).txBusy = s.txBusy ∧ (consumed o s).txLen = s.txLen ∧ (consumed o s).txRd =
    s.txRd ∧ (consumed o s).rxTarget = s.rxTarget ∧ (consumed o s).rxWptr = s.rxWptr ∧ (consumed o s).rxSeq =
    s.rxSeq ∧ (consumed o s).rxIrq = s.rxIrq ∧ (consumed o s).rxLost = s.rxLost ∧ (consumed o s).head = s.head ∧
    (consumed o s).rear = s.rear ∧ (consumed o s).sem = s.sem ∧ (consumed o s).slotLen = s.slotLen ∧ (consumed o
    s).cnt = s.cnt ∧ (consumed o s).txbuf = s.txbuf ∧ (consumed o s).slotMem = s.slotMem ∧ (consumed o s).dummy
    = s.dummy ∧ (consumed o s).hbuf = s.hbuf ∧ (consumed o s).callers = s.callers ∧ (consumed o s).poll = .ready
    ∧ (consumed o s).loop = s.loop ∧ (consumed o s).trace = s.trace ++ [.result (.consumed o)] ∧ (consumed o
    s).env = s.env := by
  refine ⟨?_, ?_, ?_, ?_, ?_, ?_, ?_, ?_, ?_, ?_, ?_, ?_, ?_, ?_, ?_, ?_, ?_, ?_, ?_, ?_, ?_, ?_, ?_, ?_, ?_, ?_, ?_, ?_, ?_, ?_, ?_, ?_⟩ <;> rfl

@[simp] theorem mdioPut_fields (b : Bool) (s : State) :
    (mdioPut b s).up = s.up ∧ (mdioPut b s).cfg = s.cfg ∧ (mdioPut b s).crc = s.crc ∧ (mdioPut b s).mdc = true ∧
    (mdioPut b s).mdioOut = b ∧ (mdioPut b s).mdioOe = true ∧ (mdioPut b s).mdioSr = s.mdioSr ∧ (mdioPut b
    s).mdioCell = s.mdioCell + 1 ∧ (mdioPut b s).phyAddr = s.phyAddr ∧ (mdioPut b s).linkUp = s.linkUp ∧
    (mdioPut b s).txBusy = s.txBusy ∧ (mdioPut b s).txLen = s.txLen ∧ (mdioPut b s).txRd = s.txRd ∧ (mdioPut b
    s).rxTarget = s.rxTarget ∧ (mdioPut b s).rxWptr = s.rxWptr ∧ (mdioPut b s).rxSeq = s.rxSeq ∧ (mdioPut b
    s).rxIrq = s.rxIrq ∧ (mdioPut b s).rxLost = s.rxLost ∧ (mdioPut b s).head = s.head ∧ (mdioPut b s).rear =
    s.rear ∧ (mdioPut b s).sem = s.sem ∧ (mdioPut b s).slotLen = s.slotLen ∧ (mdioPut b s).cnt = s.cnt ∧
    (mdioPut b s).txbuf = s.txbuf ∧ (mdioPut b s).slotMem = s.slotMem ∧ (mdioPut b s).dummy = s.dummy ∧ (mdioPut
    b s).hbuf = s.hbuf ∧ (mdioPut b s).callers = s.callers ∧ (mdioPut b s).poll = s.poll ∧ (mdioPut b s).loop =
    s.loop ∧ (mdioPut b s).trace = s.trace ++ [.cell s.mdioCell (.drive b)] ∧ (mdioPut b s).env = s.env := by
  refine ⟨?_, ?_, ?_, ?_, ?_, ?_, ?_, ?_, ?_, ?_, ?_, ?_, ?_, ?_, ?_, ?_, ?_, ?_, ?_, ?_, ?_, ?_, ?_, ?_, ?_, ?_, ?_, ?_, ?_, ?_, ?_, ?_⟩ <;> rfl

@[simp] theorem mdioGet_fields (s : State) :
    ((mdioGet s).2).up = s.up ∧ ((mdioGet s).2).cfg = s.cfg ∧ ((mdioGet s).2).crc = s.crc ∧ ((mdioGet s).2).mdc
    = true ∧ ((mdioGet s).2).mdioOut = s.mdioOut ∧ ((mdioGet s).2).mdioOe = false ∧ ((mdioGet s).2).mdioSr =
    s.mdioSr ∧ ((mdioGet s).2).mdioCell = s.mdioCell + 1 ∧ ((mdioGet s).2).phyAddr = s.phyAddr ∧ ((mdioGet
    s).2).linkUp = s.linkUp ∧ ((mdioGet s).2).txBusy = s.txBusy ∧ ((mdioGet s).2).txLen = s.txLen ∧ ((mdioGet
    s).2).txRd = s.txRd ∧ ((mdioGet s).2).rxTarget = s.rxTarget ∧ ((mdioGet s).2).rxWptr = s.rxWptr ∧ ((mdioGet
    s).2).rxSeq = s.rxSeq ∧ ((mdioGet s).2).rxIrq = s.rxIrq ∧ ((mdioGet s).2).rxLost = s.rxLost ∧ ((mdioGet
    s).2).head = s.head ∧ ((mdioGet s).2).rear = s.rear ∧ ((mdioGet s).2).sem = s.sem ∧ ((mdioGet s).2).slotLen
    = s.slotLen ∧ ((mdioGet s).2).cnt = s.cnt ∧ ((mdioGet s).2).txbuf = s.txbuf ∧ ((mdioGet s).2).slotMem =
    s.slotMem ∧ ((mdioGet s).2).dummy = s.dummy ∧ ((mdioGet s).2).hbuf = s.hbuf ∧ ((mdioGet s).2).callers =
    s.callers ∧ ((mdioGet s).2).poll = s.poll ∧ ((mdioGet s).2).loop = s.loop ∧ ((mdioGet s).2).trace = s.trace
    ++ [.cell s.mdioCell (.release s.env.drawLevel.1)] ∧ ((mdioGet s).2).env = s.env.drawLevel.2 := by
  refine ⟨?_, ?_, ?_, ?_, ?_, ?_, ?_, ?_, ?_, ?_, ?_, ?_, ?_, ?_, ?_, ?_, ?_, ?_, ?_, ?_, ?_, ?_, ?_, ?_, ?_, ?_, ?_, ?_, ?_, ?_, ?_, ?_⟩ <;> rfl

@[simp] theorem txMove_fields (b : Byte) (s : State) :
    (txMove b s).up = s.up ∧ (txMove b s).cfg = s.cfg ∧ (txMove b s).crc = s.crc ∧ (txMove b s).mdc = s.mdc ∧
    (txMove b s).mdioOut = s.mdioOut ∧ (txMove b s).mdioOe = s.mdioOe ∧ (txMove b s).mdioSr = s.mdioSr ∧ (txMove
    b s).mdioCell = s.mdioCell ∧ (txMove b s).phyAddr = s.phyAddr ∧ (txMove b s).linkUp = s.linkUp ∧ (txMove b
    s).txBusy = decide (s.txRd + 1 ≠ s.txLen) ∧ (txMove b s).txLen = s.txLen ∧ (txMove b s).txRd = s.txRd + 1 ∧
    (txMove b s).rxTarget = s.rxTarget ∧ (txMove b s).rxWptr = s.rxWptr ∧ (txMove b s).rxSeq = s.rxSeq ∧ (txMove
    b s).rxIrq = s.rxIrq ∧ (txMove b s).rxLost = s.rxLost ∧ (txMove b s).head = s.head ∧ (txMove b s).rear =
    s.rear ∧ (txMove b s).sem = s.sem ∧ (txMove b s).slotLen = s.slotLen ∧ (txMove b s).cnt = s.cnt ∧ (txMove b
    s).txbuf = s.txbuf ∧ (txMove b s).slotMem = s.slotMem ∧ (txMove b s).dummy = s.dummy ∧ (txMove b s).hbuf =
    s.hbuf ∧ (txMove b s).callers = s.callers ∧ (txMove b s).poll = s.poll ∧ (txMove b s).loop = s.loop ∧
    (txMove b s).trace = s.trace ++ [.txByte b] ∧ (txMove b s).env = s.env := by
  refine ⟨?_, ?_, ?_, ?_, ?_, ?_, ?_, ?_, ?_, ?_, ?_, ?_, ?_, ?_, ?_, ?_, ?_, ?_, ?_, ?_, ?_, ?_, ?_, ?_, ?_, ?_, ?_, ?_, ?_, ?_, ?_, ?_⟩ <;> rfl

@[simp] theorem withRequests_fields (rs : List (List Byte)) (s : State) :
    (withRequests rs s).up = s.up ∧ (withRequests rs s).cfg = s.cfg ∧ (withRequests rs s).crc = s.crc ∧
    (withRequests rs s).mdc = s.mdc ∧ (withRequests rs s).mdioOut = s.mdioOut ∧ (withRequests rs s).mdioOe =
    s.mdioOe ∧ (withRequests rs s).mdioSr = s.mdioSr ∧ (withRequests rs s).mdioCell = s.mdioCell ∧ (withRequests
    rs s).phyAddr = s.phyAddr ∧ (withRequests rs s).linkUp = s.linkUp ∧ (withRequests rs s).txBusy = s.txBusy ∧
    (withRequests rs s).txLen = s.txLen ∧ (withRequests rs s).txRd = s.txRd ∧ (withRequests rs s).rxTarget =
    s.rxTarget ∧ (withRequests rs s).rxWptr = s.rxWptr ∧ (withRequests rs s).rxSeq = s.rxSeq ∧ (withRequests rs
    s).rxIrq = s.rxIrq ∧ (withRequests rs s).rxLost = s.rxLost ∧ (withRequests rs s).head = s.head ∧
    (withRequests rs s).rear = s.rear ∧ (withRequests rs s).sem = s.sem ∧ (withRequests rs s).slotLen =
    s.slotLen ∧ (withRequests rs s).cnt = s.cnt ∧ (withRequests rs s).txbuf = s.txbuf ∧ (withRequests rs
    s).slotMem = s.slotMem ∧ (withRequests rs s).dummy = s.dummy ∧ (withRequests rs s).hbuf = s.hbuf ∧
    (withRequests rs s).callers = s.callers ∧ (withRequests rs s).poll = s.poll ∧ (withRequests rs s).loop =
    s.loop ∧ (withRequests rs s).trace = s.trace ∧ (withRequests rs s).env = { s.env with requests := rs } := by
  refine ⟨?_, ?_, ?_, ?_, ?_, ?_, ?_, ?_, ?_, ?_, ?_, ?_, ?_, ?_, ?_, ?_, ?_, ?_, ?_, ?_, ?_, ?_, ?_, ?_, ?_, ?_, ?_, ?_, ?_, ?_, ?_, ?_⟩ <;> rfl

@[simp] theorem count_fields (f : Counters → Counters) (s : State) :
    (count f s).up = s.up ∧ (count f s).cfg = s.cfg ∧ (count f s).crc = s.crc ∧ (count f s).mdc = s.mdc ∧ (count
    f s).mdioOut = s.mdioOut ∧ (count f s).mdioOe = s.mdioOe ∧ (count f s).mdioSr = s.mdioSr ∧ (count f
    s).mdioCell = s.mdioCell ∧ (count f s).phyAddr = s.phyAddr ∧ (count f s).linkUp = s.linkUp ∧ (count f
    s).txBusy = s.txBusy ∧ (count f s).txLen = s.txLen ∧ (count f s).txRd = s.txRd ∧ (count f s).rxTarget =
    s.rxTarget ∧ (count f s).rxWptr = s.rxWptr ∧ (count f s).rxSeq = s.rxSeq ∧ (count f s).rxIrq = s.rxIrq ∧
    (count f s).rxLost = s.rxLost ∧ (count f s).head = s.head ∧ (count f s).rear = s.rear ∧ (count f s).sem =
    s.sem ∧ (count f s).slotLen = s.slotLen ∧ (count f s).cnt = (if s.cfg.statsEn then f s.cnt else s.cnt) ∧
    (count f s).txbuf = s.txbuf ∧ (count f s).slotMem = s.slotMem ∧ (count f s).dummy = s.dummy ∧ (count f
    s).hbuf = s.hbuf ∧ (count f s).callers = s.callers ∧ (count f s).poll = s.poll ∧ (count f s).loop = s.loop ∧
    (count f s).trace = s.trace ∧ (count f s).env = s.env := by
  unfold count
  split <;> simp

@[simp] theorem writeBytes_fields (r : Region) (o : Nat) (bs : List Byte) (s : State) :
    (writeBytes s r o bs).up = s.up ∧ (writeBytes s r o bs).cfg = s.cfg ∧ (writeBytes s r o bs).crc = s.crc ∧
    (writeBytes s r o bs).mdc = s.mdc ∧ (writeBytes s r o bs).mdioOut = s.mdioOut ∧ (writeBytes s r o bs).mdioOe
    = s.mdioOe ∧ (writeBytes s r o bs).mdioSr = s.mdioSr ∧ (writeBytes s r o bs).mdioCell = s.mdioCell ∧
    (writeBytes s r o bs).phyAddr = s.phyAddr ∧ (writeBytes s r o bs).linkUp = s.linkUp ∧ (writeBytes s r o
    bs).txBusy = s.txBusy ∧ (writeBytes s r o bs).txLen = s.txLen ∧ (writeBytes s r o bs).txRd = s.txRd ∧
    (writeBytes s r o bs).rxTarget = s.rxTarget ∧ (writeBytes s r o bs).rxWptr = s.rxWptr ∧ (writeBytes s r o
    bs).rxSeq = s.rxSeq ∧ (writeBytes s r o bs).rxIrq = s.rxIrq ∧ (writeBytes s r o bs).rxLost = s.rxLost ∧
    (writeBytes s r o bs).head = s.head ∧ (writeBytes s r o bs).rear = s.rear ∧ (writeBytes s r o bs).sem =
    s.sem ∧ (writeBytes s r o bs).slotLen = s.slotLen ∧ (writeBytes s r o bs).cnt = s.cnt ∧ (writeBytes s r o
    bs).poll = s.poll ∧ (writeBytes s r o bs).loop = s.loop ∧ (writeBytes s r o bs).trace = s.trace ∧
    (writeBytes s r o bs).env = s.env := by
  cases r <;> simp [writeBytes, setRegionMem]

end Sys2Proof.Machine
end

