-- ==== Sys2Proof/Laws/Memory.lean ====
section
/-! SUPPORT. The laws of memory: read after write, writes elsewhere, the canonical form, for one region's contents and for
the regions of a state. -/

namespace Sys2Proof.Machine

/-! ### One region's contents -/

theorem Memory.read_write (m : Memory) (o : Nat) (b : Byte) (a : Nat) (h : m.wf = true) :
    (m.write o b).read a = if a = o then some b else m.read a := by
  induction m with
  | nil => simp [Memory.write, Memory.read, eq_comm]
  | cons c m ih =>
    obtain ⟨x, y⟩ := c
    have hw : Memory.wf m = true := by simp only [Memory.wf, Bool.and_eq_true] at h; exact h.2
    simp only [Memory.write]
    split
    · simp only [Memory.read]
    · split
      · subst o
        simp only [Memory.read]
        split <;> rfl
      · simp only [Memory.read, ih hw]
        by_cases ha : a = x
        · rw [if_pos ha, if_pos ha, if_neg (by omega)]
        · rw [if_neg ha, if_neg ha]

theorem Memory.above_write (m : Memory) (o : Nat) (b : Byte) (k : Nat) (h : m.above k = true) (hk : k < o) :
    (m.write o b).above k = true := by
  cases m with
  | nil => simpa [Memory.write, Memory.above] using hk
  | cons c m =>
    obtain ⟨x, y⟩ := c
    have hx : k < x := by simpa [Memory.above] using h
    simp only [Memory.write]
    split
    · simpa [Memory.above] using hk
    · split
      · simpa [Memory.above] using hk
      · simpa [Memory.above] using hx

/-- A write keeps the canonical form. -/
theorem Memory.wf_write (m : Memory) (o : Nat) (b : Byte) (h : m.wf = true) : (m.write o b).wf = true := by
  induction m with
  | nil => rfl
  | cons c m ih =>
    obtain ⟨x, y⟩ := c
    simp only [Memory.wf, Bool.and_eq_true] at h
    simp only [Memory.write]
    split
    · next hlt => simp only [Memory.wf, Memory.above, hlt, decide_true, Bool.true_and, Bool.and_eq_true]; exact h
    · split
      · subst x; simp only [Memory.wf, Bool.and_eq_true]; exact h
      · simp only [Memory.wf, Bool.and_eq_true]
        exact ⟨Memory.above_write m o b x h.1 (by omega), ih h.2⟩

/-- A run of writes keeps the canonical form. -/
theorem Memory.wf_writeAll (bs : List Byte) (m : Memory) (o : Nat) (h : m.wf = true) :
    (m.writeAll o bs).wf = true := by
  induction bs generalizing m o with
  | nil => exact h
  | cons b bs ih => exact ih _ _ (Memory.wf_write m o b h)

/-- What a run of writes leaves at every offset. -/
theorem Memory.read_writeAll (bs : List Byte) (m : Memory) (o a : Nat) (h : m.wf = true) :
    (m.writeAll o bs).read a = if o ≤ a ∧ a < o + bs.length then bs[a - o]? else m.read a := by
  induction bs generalizing m o with
  | nil => simp [Memory.writeAll]
  | cons b bs ih =>
    rw [Memory.writeAll, ih _ _ (Memory.wf_write m o b h), Memory.read_write m o b a h]
    by_cases h1 : o + 1 ≤ a ∧ a < o + 1 + bs.length
    · have h2 : o ≤ a ∧ a < o + (b :: bs).length := by simp; omega
      rw [if_pos h1, if_pos h2, show a - o = (a - (o + 1)) + 1 by omega]
      simp
    · rw [if_neg h1]
      by_cases h3 : a = o
      · subst a; rw [if_pos rfl, if_pos ⟨Nat.le_refl _, by simp⟩]; simp
      · rw [if_neg h3, if_neg (by simp; omega)]

/-! ### The regions of a state -/

/-- The state has the region. -/
def present (s : State) : Region → Prop
  | .txbuf => True
  | .slot i => i < s.slotMem.length
  | .dummy => True
  | .hbuf => s.hbuf.isSome
  | .caller k => k < s.callers.length

theorem regionMem_setRegionMem_same (s : State) (r : Region) (m : Memory) (h : present s r) :
    regionMem (setRegionMem s r m) r = m := by
  cases r with
  | txbuf => rfl
  | slot i => simp [present] at h; simp [regionMem, setRegionMem, h]
  | dummy => rfl
  | hbuf =>
    simp only [present] at h
    obtain ⟨b, hb⟩ := Option.isSome_iff_exists.1 h
    simp [regionMem, setRegionMem, hb]
  | caller k => simp [present] at h; simp [regionMem, setRegionMem, h]

theorem regionMem_setRegionMem_absent (s : State) (r r' : Region) (m : Memory) (h : ¬ present s r) :
    regionMem (setRegionMem s r m) r' = regionMem s r' := by
  cases r with
  | txbuf => exact absurd trivial h
  | slot i => simp [present] at h; simp [setRegionMem, List.set_eq_of_length_le h]
  | dummy => exact absurd trivial h
  | hbuf => simp [present] at h; cases r' <;> simp [regionMem, setRegionMem, h]
  | caller k =>
    simp [present] at h
    have hm : s.callers.modify k (fun b => { b with mem := m }) = s.callers := by
      apply List.ext_getElem?
      intro j
      rw [List.getElem?_modify]
      by_cases hj : k = j
      · subst hj; simp [h]
      · simp [hj]
    simp [setRegionMem, hm]

theorem callers_modify_mem (cs : List Buffer) (k j : Nat) (m : Memory) :
    (cs.modify k (fun b => { b with mem := m }))[j]? =
      if k = j then (cs[j]?).map (fun b => { b with mem := m }) else cs[j]? := by
  rw [List.getElem?_modify]
  split
  · rfl
  · simp

theorem regionMem_setRegionMem_other (s : State) (r r' : Region) (m : Memory) (h : r' ≠ r) :
    regionMem (setRegionMem s r m) r' = regionMem s r' := by
  cases r <;> cases r' <;> first
    | rfl
    | exact absurd rfl h
    | (have h' := fun e => h (congrArg Region.slot e)
       simp only [regionMem, setRegionMem, List.getD_eq_getElem?_getD, List.getElem?_set, if_neg (Ne.symm h')])
    | (have h' := fun e => h (congrArg Region.caller e)
       simp only [regionMem, setRegionMem, callers_modify_mem, if_neg (Ne.symm h')])

@[simp] theorem regionCap_setRegionMem (s : State) (r r' : Region) (m : Memory) :
    regionCap (setRegionMem s r m) r' = regionCap s r' := by
  cases r <;> cases r' <;> try rfl
  · simp only [regionCap, setRegionMem]; cases s.hbuf <;> rfl
  · next j k =>
    simp only [regionCap, setRegionMem, callers_modify_mem]
    split
    · cases s.callers[k]? <;> rfl
    · rfl

@[simp] theorem regionCap_writeBytes (s : State) (r r' : Region) (o : Nat) (bs : List Byte) :
    regionCap (writeBytes s r o bs) r' = regionCap s r' := regionCap_setRegionMem s r r' _

theorem memoryWf_region (s : State) (h : memoryWf s = true) (r : Region) : (regionMem s r).wf = true := by
  simp only [memoryWf, Bool.and_eq_true, List.all_eq_true] at h
  obtain ⟨⟨⟨⟨h1, h2⟩, h3⟩, h4⟩, h5⟩ := h
  cases r with
  | txbuf => exact h1
  | slot i =>
    simp only [regionMem, List.getD_eq_getElem?_getD]
    cases hi : s.slotMem[i]? with
    | none => rfl
    | some m => exact h2 m (List.mem_of_getElem? hi)
  | dummy => exact h3
  | hbuf =>
    simp only [regionMem]
    cases hb : s.hbuf with
    | none => rfl
    | some b => simpa [hb] using h4
  | caller k =>
    simp only [regionMem]
    cases hi : s.callers[k]? with
    | none => rfl
    | some b => exact h5 b (List.mem_of_getElem? hi)

theorem memoryWf_setRegionMem (s : State) (h : memoryWf s = true) (r : Region) (m : Memory) (hm : m.wf = true) :
    memoryWf (setRegionMem s r m) = true := by
  simp only [memoryWf, Bool.and_eq_true, List.all_eq_true] at h ⊢
  obtain ⟨⟨⟨⟨h1, h2⟩, h3⟩, h4⟩, h5⟩ := h
  cases r with
  | txbuf => exact ⟨⟨⟨⟨hm, h2⟩, h3⟩, h4⟩, h5⟩
  | slot i =>
    refine ⟨⟨⟨⟨h1, fun x hx => ?_⟩, h3⟩, h4⟩, h5⟩
    rcases List.mem_or_eq_of_mem_set hx with hx | rfl
    · exact h2 x hx
    · exact hm
  | dummy => exact ⟨⟨⟨⟨h1, h2⟩, hm⟩, h4⟩, h5⟩
  | hbuf =>
    refine ⟨⟨⟨⟨h1, h2⟩, h3⟩, ?_⟩, h5⟩
    simp only [setRegionMem]
    cases s.hbuf with
    | none => rfl
    | some b => simpa using hm
  | caller k =>
    refine ⟨⟨⟨⟨h1, h2⟩, h3⟩, h4⟩, fun x hx => ?_⟩
    simp only [setRegionMem] at hx
    obtain ⟨j, hj⟩ := List.getElem?_of_mem hx
    rw [List.getElem?_modify] at hj
    cases hb : s.callers[j]? with
    | none => simp [hb] at hj
    | some b =>
      by_cases hk : k = j
      · simp [hb, hk] at hj; subst hj; exact hm
      · simp [hb, hk] at hj; subst hj; exact h5 b (List.mem_of_getElem? hb)

/-- Every memory operation keeps the canonical form. -/
theorem memoryWf_writeBytes (s : State) (h : memoryWf s = true) (r : Region) (o : Nat) (bs : List Byte) :
    memoryWf (writeBytes s r o bs) = true :=
  memoryWf_setRegionMem s h r _ (Memory.wf_writeAll bs _ o (memoryWf_region s h r))

/-- Bytes read back as written; every other byte of every region reads as before. -/
theorem readByte_writeBytes (s : State) (h : memoryWf s = true) (r : Region) (o : Nat) (bs : List Byte)
    (hp : present s r) (r' : Region) (a : Nat) :
    readByte (writeBytes s r o bs) r' a =
      if r' = r ∧ o ≤ a ∧ a < o + bs.length then bs[a - o]? else readByte s r' a := by
  by_cases hr : r' = r
  · subst hr
    simp only [readByte, writeBytes, regionMem_setRegionMem_same s r' _ hp,
      Memory.read_writeAll bs _ o a (memoryWf_region s h r'), true_and]
  · simp [readByte, writeBytes, regionMem_setRegionMem_other s r r' _ hr, hr]

/-- A byte that reads as a value still does after any write. -/
theorem readByte_writeBytes_isSome (s : State) (h : memoryWf s = true) (r : Region) (o : Nat) (bs : List Byte)
    (r' : Region) (a : Nat) (hs : (readByte s r' a).isSome) : (readByte (writeBytes s r o bs) r' a).isSome := by
  by_cases hp : present s r
  · rw [readByte_writeBytes s h r o bs hp]
    split
    · next hc =>
      have : a - o < bs.length := by omega
      simp [this]
    · exact hs
  · simpa [readByte, writeBytes, regionMem_setRegionMem_absent s r r' _ hp] using hs

/-! ### Runs of bytes -/

theorem readBytes_length {s : State} {r : Region} {o n : Nat} {bs : List Byte} (h : readBytes s r o n = some bs) :
    bs.length = n := by
  induction n generalizing o bs with
  | zero => simp [readBytes] at h; simp [← h]
  | succ n ih =>
    simp only [readBytes] at h
    split at h
    · next b cs hb hcs => cases h; simp [ih hcs]
    · cases h

theorem readBytes_get {s : State} {r : Region} {o n : Nat} {bs : List Byte} (h : readBytes s r o n = some bs)
    (k : Nat) (hk : k < n) : readByte s r (o + k) = bs[k]? := by
  induction n generalizing o bs k with
  | zero => omega
  | succ n ih =>
    simp only [readBytes] at h
    split at h
    · next b cs hb hcs =>
      cases h
      cases k with
      | zero => simpa using hb
      | succ k => have := ih hcs k (by omega); rw [show o + (k + 1) = o + 1 + k by omega, this]; simp
    · cases h

/-- A run reads as a list exactly when every byte of it does. -/
theorem readBytes_eq_some {s : State} {r : Region} {o n : Nat} {bs : List Byte} (hl : bs.length = n)
    (h : ∀ k, k < n → readByte s r (o + k) = bs[k]?) : readBytes s r o n = some bs := by
  induction n generalizing o bs with
  | zero => simp at hl; simp [readBytes, hl]
  | succ n ih =>
    cases bs with
    | nil => simp at hl
    | cons b bs =>
      have h0 : readByte s r o = some b := by simpa using h 0 (by omega)
      have h1 : readBytes s r (o + 1) n = some bs := by
        apply ih (by simpa using hl)
        intro k hk
        have := h (k + 1) (by omega)
        rw [show o + 1 + k = o + (k + 1) by omega, this]; simp
      simp [readBytes, h0, h1]

theorem readBytes_congr {s t : State} {r : Region} {o n : Nat} (h : ∀ k, k < n → readByte t r (o + k) = readByte s r (o + k)) :
    readBytes t r o n = readBytes s r o n := by
  induction n generalizing o with
  | zero => rfl
  | succ n ih =>
    have h0 : readByte t r o = readByte s r o := by simpa using h 0 (by omega)
    have h1 := ih (o := o + 1) fun k hk => by
      have := h (k + 1) (by omega)
      rwa [show o + (k + 1) = o + 1 + k by omega] at this
    simp only [readBytes, h0, h1]

theorem readBytes_isSome {s : State} {r : Region} {o n : Nat} (h : ∀ k, k < n → (readByte s r (o + k)).isSome) :
    (readBytes s r o n).isSome := by
  induction n generalizing o with
  | zero => rfl
  | succ n ih =>
    obtain ⟨b, hb⟩ := Option.isSome_iff_exists.1 (by simpa using h 0 (by omega) : (readByte s r o).isSome)
    obtain ⟨bs, hbs⟩ := Option.isSome_iff_exists.1 (ih (o := o + 1) fun k hk => by
      have := h (k + 1) (by omega)
      rwa [show o + (k + 1) = o + 1 + k by omega] at this)
    simp [readBytes, hb, hbs]

/-- What was written at an offset reads back as a run. -/
theorem readBytes_writeBytes (s : State) (h : memoryWf s = true) (r : Region) (o : Nat) (bs : List Byte)
    (hp : present s r) : readBytes (writeBytes s r o bs) r o bs.length = some bs := by
  apply readBytes_eq_some rfl
  intro k hk
  rw [readByte_writeBytes s h r o bs hp, if_pos ⟨rfl, by omega, by omega⟩]
  simp

theorem readBytes_append {s : State} {r : Region} {o n m : Nat} {as bs : List Byte} (ha : readBytes s r o n = some as)
    (hb : readBytes s r (o + n) m = some bs) : readBytes s r o (n + m) = some (as ++ bs) := by
  have la := readBytes_length ha
  have lb := readBytes_length hb
  apply readBytes_eq_some (by simp [la, lb])
  intro k hk
  by_cases hk' : k < n
  · rw [readBytes_get ha k hk', List.getElem?_append_left (by omega)]
  · rw [List.getElem?_append_right (by omega), la, ← readBytes_get hb (k - n) (by omega)]
    congr 1; omega

end Sys2Proof.Machine
end

