-- ==== Sys2Proof/Laws/Crc.lean ====
section
/-! SUPPORT. The CRC engine: when CRC.APPEND and CRC.VERIFY complete, and what they then do. -/

namespace Sys2Proof.Machine

@[simp] theorem fcsBytes_length (f : Word) : (fcsBytes f).length = 4 := rfl

theorem crcFrom_append (c : Word) (as bs : List Byte) : crcFrom c (as ++ bs) = crcFrom (crcFrom c as) bs := by
  simp [crcFrom]

/-- The ownership test of CRC.APPEND, in the words of the rules. -/
theorem dmaOwns_iff (s : State) (buf : Region) : dmaOwns s buf = true ↔ owned s buf := by
  unfold dmaOwns captureRegion owned
  cases s.rxTarget <;> simp

theorem whenAppendFits_eq {s : State} {buf : Region} {len c : Nat} (k : Outc) (hc : regionCap s buf = some c)
    (hl : len + 4 ≤ c) : whenAppendFits buf len s k = k := by
  simp only [whenAppendFits, hc, if_neg (show ¬ c < len + 4 by omega)]

/-- The guard goes on only when the FCS fits. -/
theorem whenAppendFits_next {s t : State} {buf : Region} {len : Nat} {k : Outc} (h : whenAppendFits buf len s k = .next t) :
    ∃ c, regionCap s buf = some c ∧ len + 4 ≤ c ∧ k = .next t := by
  unfold whenAppendFits at h
  split at h
  · cases h
  · next c hc =>
    split at h
    · cases h
    · exact ⟨c, hc, by omega, h⟩

/-- CRC.APPEND completes when the FCS fits and the data has been written. -/
theorem crcAppend_eq {s : State} {buf : Region} {len c : Nat} {bs : List Byte} (hc : regionCap s buf = some c)
    (hl : len + 4 ≤ c) (hb : readBytes s buf 0 len = some bs) :
    crcAppend buf len s = .next (writeBytes { s with crc := crcAcc bs } buf len (fcsBytes (fcs bs))) := by
  rw [crcAppend, whenAppendFits_eq _ hc hl, hb]

/-- And only then. -/
theorem crcAppend_next {s t : State} {buf : Region} {len : Nat} (h : crcAppend buf len s = .next t) :
    ∃ c bs, regionCap s buf = some c ∧ len + 4 ≤ c ∧ readBytes s buf 0 len = some bs ∧
      t = writeBytes { s with crc := crcAcc bs } buf len (fcsBytes (fcs bs)) := by
  obtain ⟨c, hc, hl, h⟩ := whenAppendFits_next h
  split at h
  · cases h
  · next bs hb => exact ⟨c, bs, hc, hl, hb, (Host.Outcome.next.inj h).symm⟩

/-- A CRC.APPEND that is given its turn runs at once, or is held because a DMA agent is at work on its region (log 18). -/
theorem appendOrWait_next {s t : State} {buf : Region} {len : Nat} (h : appendOrWait buf len s = .next t) :
    (dmaOwns s buf = false ∧ crcAppend buf len s = .next t) ∨
    (dmaOwns s buf = true ∧ t = { s with poll := .appendWait buf len }) := by
  unfold appendOrWait at h
  split at h
  · next ho =>
    obtain ⟨-, -, -, h⟩ := whenAppendFits_next h
    exact .inr ⟨ho, (Host.Outcome.next.inj h).symm⟩
  · next ho => exact .inl ⟨by simpa using ho, h⟩

/-- A held CRC.APPEND that is given its turn waits on, or runs. -/
theorem resumeAppend_next {s t : State} {buf : Region} {len : Nat} (h : resumeAppend buf len s = .next t) :
    (dmaOwns s buf = true ∧ t = s) ∨
    (dmaOwns s buf = false ∧ crcAppend buf len { s with poll := .ready } = .next t) := by
  unfold resumeAppend at h
  split at h
  · next ho => exact .inl ⟨ho, (Host.Outcome.next.inj h).symm⟩
  · next ho => exact .inr ⟨by simpa using ho, h⟩

/-- CRC.VERIFY on a readable region goes on with the comparison. -/
theorem crcVerify_eq {s : State} {buf : Region} {n c : Nat} {bs : List Byte} (k : Bool → State → Outc)
    (hc : regionCap s buf = some c) (h4 : 4 ≤ n) (hn : n ≤ c) (hb : readBytes s buf 0 n = some bs) :
    crcVerify buf n s k = k (fcsMatches bs) { s with crc := crcAcc (bs.take (n - 4)) } := by
  simp only [crcVerify, hc, hb, if_neg (show ¬ n < 4 by omega), if_neg (show ¬ c < n by omega)]

/-- A total under four is false and reads nothing. -/
theorem crcVerify_short {s : State} {buf : Region} {n c : Nat} (k : Bool → State → Outc)
    (hc : regionCap s buf = some c) (hn : n < 4) : crcVerify buf n s k = k false s := by
  simp only [crcVerify, hc, if_pos hn]

/-- If the continuation of CRC.VERIFY was reached, one of these cases holds. -/
theorem crcVerify_next {s t : State} {buf : Region} {n : Nat} {k : Bool → State → Outc}
    (h : crcVerify buf n s k = .next t) : ∃ c, regionCap s buf = some c ∧
      ((n < 4 ∧ k false s = .next t) ∨
       (4 ≤ n ∧ n ≤ c ∧ ∃ bs, readBytes s buf 0 n = some bs ∧
          k (fcsMatches bs) { s with crc := crcAcc (bs.take (n - 4)) } = .next t)) := by
  unfold crcVerify at h
  split at h
  · cases h
  · next c hc =>
    refine ⟨c, hc, ?_⟩
    split at h
    · next h4 => exact .inl ⟨h4, h⟩
    · split at h
      · cases h
      · split at h
        · cases h
        · next bs hb => exact .inr ⟨by omega, by omega, bs, hb, h⟩

theorem fcsBytes_toWord (f : Word) :
    (f.extractLsb' 24 8 ++ f.extractLsb' 16 8 ++ f.extractLsb' 8 8 ++ f.extractLsb' 0 8 : Word) = f := by
  apply BitVec.eq_of_getLsbD_eq
  intro i hi
  simp only [BitVec.getLsbD_append, BitVec.getLsbD_extractLsb']
  by_cases h1 : i < 8
  · simp [h1]
  · by_cases h2 : i - 8 < 8
    · simp [h1, h2, show 8 + (i - 8) = i by omega]
    · by_cases h3 : i - 8 - 8 < 8
      · simp [h1, h2, h3, show 16 + (i - 8 - 8) = i by omega]
      · simp [h1, h2, h3, show i - 8 - 8 - 8 < 8 by omega, show 24 + (i - 8 - 8 - 8) = i by omega]

/-- The four bytes determine the FCS: "no partial acceptance" (40_crc.md R138). -/
theorem fcsBytes_injective {f g : Word} (h : fcsBytes f = fcsBytes g) : f = g := by
  simp only [fcsBytes, List.cons.injEq, and_true] at h
  obtain ⟨h0, h1, h2, h3⟩ := h
  rw [← fcsBytes_toWord f, ← fcsBytes_toWord g, h0, h1, h2, h3]

/-- Data followed by its own FCS passes the comparison. -/
theorem fcsMatches_append (bs : List Byte) : fcsMatches (bs ++ fcsBytes (fcs bs)) = true := by
  simp [fcsMatches]

/-! ### The code is linear, and each step is a bijection -/

theorem crcBit_xor (x y : Word) : crcBit (x ^^^ y) = crcBit x ^^^ crcBit y := by
  unfold crcBit
  rw [BitVec.getLsbD_xor, BitVec.ushiftRight_xor_distrib]
  generalize x >>> 1 = a
  generalize y >>> 1 = b
  cases x.getLsbD 0 <;> cases y.getLsbD 0 <;> simp only [Bool.false_xor, Bool.true_xor, Bool.not_false, Bool.not_true, cond_true, cond_false]
  · ac_rfl
  · ac_rfl
  · rw [show a ^^^ crcPoly ^^^ (b ^^^ crcPoly) = a ^^^ b ^^^ (crcPoly ^^^ crcPoly) by ac_rfl, BitVec.xor_self, BitVec.xor_zero]

theorem crcBits_xor (k : Nat) (x y : Word) : crcBits k (x ^^^ y) = crcBits k x ^^^ crcBits k y := by
  induction k generalizing x y with
  | zero => rfl
  | succ k ih => simp only [crcBits, crcBit_xor, ih]

theorem crcBits_add (j k : Nat) (x : Word) : crcBits (j + k) x = crcBits k (crcBits j x) := by
  induction j generalizing x with
  | zero => simp [crcBits]
  | succ j ih => rw [Nat.add_right_comm]; simp only [crcBits, ih]

theorem crcBits_shift (k : Nat) (x : Word) (h : ∀ i, i < k → x.getLsbD i = false) : crcBits k x = x >>> k := by
  induction k generalizing x with
  | zero => simp [crcBits]
  | succ k ih =>
    rw [crcBits, show crcBit x = x >>> 1 by simp only [crcBit, h 0 (by omega), cond_false], ih]
    · rw [← BitVec.shiftRight_add, Nat.add_comm]
    · intro i hi
      rw [BitVec.getLsbD_ushiftRight]; exact h _ (by omega)

theorem crcBit_top (x : Word) : (crcBit x).getLsbD 31 = x.getLsbD 0 := by
  unfold crcBit crcPoly
  cases h : x.getLsbD 0 <;> simp

theorem crcBit_inj {x y : Word} (h : crcBit x = crcBit y) : x = y := by
  have h0 : x.getLsbD 0 = y.getLsbD 0 := by rw [← crcBit_top, ← crcBit_top, h]
  have hs : x >>> 1 = y >>> 1 := by
    unfold crcBit at h
    rw [h0] at h
    cases hy : y.getLsbD 0 <;> simp only [hy, cond_true, cond_false] at h
    · exact h
    · have := congrArg (· ^^^ crcPoly) h
      simpa [BitVec.xor_assoc] using this
  apply BitVec.eq_of_getLsbD_eq
  intro i hi
  cases i with
  | zero => exact h0
  | succ i =>
    have := congrArg (fun z => BitVec.getLsbD z i) hs
    simpa [BitVec.getLsbD_ushiftRight, Nat.add_comm] using this

theorem crcBits_inj (k : Nat) {x y : Word} (h : crcBits k x = crcBits k y) : x = y := by
  induction k generalizing x y with
  | zero => exact h
  | succ k ih => exact crcBit_inj (ih h)

theorem crcStep_inj {c d : Word} {b : Byte} (h : crcStep c b = crcStep d b) : c = d := by
  have := crcBits_inj 8 h
  have := congrArg (· ^^^ b.setWidth 32) this
  simpa [BitVec.xor_assoc] using this

theorem crcFrom_inj (bs : List Byte) {c d : Word} (h : crcFrom c bs = crcFrom d bs) : c = d := by
  induction bs generalizing c d with
  | nil => exact h
  | cons b bs ih => exact crcStep_inj (ih h)

theorem crcStep_byte {c : Word} {a b : Byte} (h : crcStep c a = crcStep c b) : a = b := by
  have := crcBits_inj 8 h
  have := congrArg (fun z => (z ^^^ c).setWidth 8) this
  have e : ∀ z : Byte, (c ^^^ z.setWidth 32 ^^^ c).setWidth 8 = z := by
    intro z
    rw [show c ^^^ z.setWidth 32 ^^^ c = (c ^^^ c) ^^^ z.setWidth 32 by ac_rfl, BitVec.xor_self, BitVec.zero_xor]
    simp
  simpa [e] using this

theorem crcFrom_modify (m : List Byte) (k : Nat) (f : Byte → Byte) (hf : ∀ b, f b ≠ b) (c : Word) (hk : k < m.length) :
    crcFrom c (m.modify k f) ≠ crcFrom c m := by
  induction m generalizing k c with
  | nil => simp at hk
  | cons b m ih =>
    cases k with
    | zero =>
      intro h
      simp only [List.modify_zero_cons] at h
      exact hf b (crcStep_byte (crcFrom_inj m h))
    | succ k =>
      simp only [List.modify_succ_cons]
      exact ih k _ (by simpa using hk)

end Sys2Proof.Machine
end

