-- ==== Sys2Proof/Laws/Decode.lean ====
section
/-! SUPPORT. The decoder reads back what the encoder writes, operand by operand, and the bits of the frame word W. -/

namespace Sys2Proof

theorem leBytes_length (k n : Nat) : (leBytes k n).length = k := by
  induction k generalizing n with
  | zero => rfl
  | succ k ih => simp [leBytes, ih]

theorem leNat_leBytes (k n : Nat) (h : n < 256 ^ k) : leNat (leBytes k n) = n := by
  induction k generalizing n with
  | zero => simp at h; simp [leBytes, leNat, h]
  | succ k ih =>
    simp only [leBytes, leNat]
    rw [ih (n / 256) (by rw [Nat.div_lt_iff_lt_mul (by decide)]; rwa [Nat.pow_succ] at h)]
    simp [BitVec.toNat_ofNat]; omega

theorem word_length (n : Nat) : (word n).length = 4 := leBytes_length 4 n

theorem readRaw_append (as rest : List Byte) : readRaw as.length (as ++ rest) = .ok (as, rest) := by
  simp [readRaw]

theorem readWord_word (n : Nat) (rest : List Byte) (h : n < wordBound) : readWord (word n ++ rest) = .ok (n, rest) := by
  unfold readWord
  have := readRaw_append (word n) rest
  rw [word_length] at this
  rw [this]
  simp only [Parsed.andThen, done]
  rw [word, leNat_leBytes 4 n (by simpa [wordBound] using h)]

theorem readBits_word {w : Nat} (x : BitVec w) (h : w ≤ 32) (rest : List Byte) :
    readBits w (word x.toNat ++ rest) = .ok (x, rest) := by
  unfold readBits
  have : x.toNat < wordBound := lt_of_lt_of_le x.isLt (Nat.pow_le_pow_right (by decide) h)
  rw [readWord_word _ _ this]
  simp [Parsed.andThen, done, x.isLt]

theorem readFlag_word (b : Bool) (rest : List Byte) : readFlag (flagWord b ++ rest) = .ok (b, rest) := by
  unfold readFlag flagWord
  rw [readWord_word _ _ (by cases b <;> decide)]
  cases b <;> simp [Parsed.andThen, done]

theorem readRegion_words (r : Region) (h : r.wf = true) (rest : List Byte) :
    readRegion (regionWords r ++ rest) = .ok (r, rest) := by
  cases r <;> simp only [regionWords, List.append_assoc, Region.wf, decide_eq_true_eq] at h ⊢ <;>
    unfold readRegion <;> rw [readWord_word _ _ (by decide)] <;> simp only [Parsed.andThen] <;>
    first
    | (rw [readWord_word _ _ h]; simp [done])
    | (rw [readWord_word _ _ (by decide)]; simp [done])

theorem readFrags_bytes (fs : List (List Byte)) (h : ∀ f ∈ fs, f.length < wordBound) (rest : List Byte) :
    readFrags fs.length (fragBytes fs ++ rest) = .ok (fs, rest) := by
  induction fs with
  | nil => rfl
  | cons f fs ih =>
    simp only [fragBytes, List.length_cons, List.append_assoc, readFrags]
    rw [readWord_word _ _ (h f (by simp))]
    simp only [Parsed.andThen]
    rw [readRaw_append]
    simp only
    rw [ih (fun g hg => h g (by simp [hg]))]
    simp [done]

theorem readPins_words (p : CfgPins) (rest : List Byte) (h1 : p.peripheral < wordBound) (h2 : p.seqFirst < wordBound)
    (h3 : p.seqLast < wordBound) (h4 : p.rxBase < wordBound) (h5 : p.txBase < wordBound) (h6 : p.mdioBase < wordBound)
    (h7 : p.refClock < wordBound) : readPins (pinsWords p ++ rest) = .ok (p, rest) := by
  simp only [pinsWords, List.append_assoc, readPins]
  simp only [readWord_word _ _ h1, readWord_word _ _ h2, readWord_word _ _ h3, readWord_word _ _ h4, readWord_word _ _ h5,
    readWord_word _ _ h6, readWord_word _ _ h7, Parsed.andThen, done]

theorem hwaddr_halves (x : BitVec 48) : (x.extractLsb' 32 16 ++ x.extractLsb' 0 32 : BitVec 48) = x := by
  apply BitVec.eq_of_getLsbD_eq
  intro i hi
  simp only [BitVec.getLsbD_append, BitVec.getLsbD_extractLsb']
  by_cases h : i < 32
  · simp [h]
  · simp [h, show i - 32 < 16 by omega, show 32 + (i - 32) = i by omega]

theorem Cfg.legal_bounds {c : Cfg} (h : c.legal = true) :
    2 ≤ c.lwm ∧ c.lwm ≤ 3 ∧ c.lwm + 1 ≤ c.n ∧ 1524 ≤ c.slotCap ∧ 64 ≤ c.txCap ∧ 1 ≤ c.tMdio := by
  simp only [Cfg.legal, Bool.and_eq_true, decide_eq_true_eq] at h
  obtain ⟨⟨⟨⟨⟨h1, h2⟩, h3⟩, h4⟩, h5⟩, h6⟩ := h
  exact ⟨h1, h2, h3, h4, h5, h6⟩

theorem readCfg_words (c : Cfg) (hl : c.legal = true) (hf : c.fits = true) (rest : List Byte) :
    readCfg (cfgWords c ++ rest) = .ok (c, rest) := by
  obtain ⟨b1, b2, b3, b4, b5, b6⟩ := Cfg.legal_bounds hl
  simp only [Cfg.fits, List.all_cons, List.all_nil, Bool.and_true, Bool.and_eq_true, decide_eq_true_eq] at hf
  obtain ⟨f1, f2, f3, p1, p2, p3, p4, p5, p6, p7, f4, f5, f6⟩ := hf
  have wb : wordBound = 4294967296 := by decide
  simp only [cfgWords, List.append_assoc, readCfg]
  rw [readWord_word _ _ (by omega)]; simp only [Parsed.andThen]
  rw [readWord_word _ _ (by omega)]; simp only
  rw [readWord_word _ _ (by omega)]; simp only
  rw [readWord_word _ _ (by omega)]; simp only
  rw [readFlag_word]; simp only
  rw [readFlag_word]; simp only
  rw [readBits_word _ (by decide)]; simp only
  rw [readBits_word (c.hwaddr.extractLsb' 0 32) (by decide)]; simp only
  rw [readBits_word (c.hwaddr.extractLsb' 32 16) (by decide)]; simp only
  rw [readPins_words _ _ p1 p2 p3 p4 p5 p6 p7]; simp only
  rw [readWord_word _ _ f4]; simp only
  rw [readWord_word _ _ f5]; simp only
  rw [readWord_word _ _ (by omega)]; simp only
  rw [show c.lwm - 2 + 2 + 1 + (c.n - (c.lwm + 1)) = c.n by omega, show c.lwm - 2 + 2 = c.lwm by omega,
    show 1524 + (c.slotCap - 1524) = c.slotCap by omega, show 64 + (c.txCap - 64) = c.txCap by omega,
    show c.tMdio - 1 + 1 = c.tMdio by omega, hwaddr_halves, Bool.not_not]
  rw [checkCfg, if_pos (by simp [hl])]
  rfl

/-! ### The selector -/

/-- A parser that goes on has read something. -/
theorem andThen_ok {α β : Type} {p : Parsed α} {k : α → List Byte → Parsed β} {x : β × List Byte} (h : p.andThen k = .ok x) :
    ∃ a r, p = .ok (a, r) ∧ k a r = .ok x := by
  cases p with
  | error e => cases h
  | ok y => exact ⟨y.1, y.2, rfl, h⟩

/-- A record's first byte says which operation it is. -/
theorem parse_selector {sel : Byte} {r rest : List Byte} {i : Instr} (h : parse (sel :: r) = .ok (i, rest)) : sel = selector i := by
  simp only [parse] at h
  split at h
  · next hs =>
    subst hs
    unfold parseFrame at h
    split at h
    · unfold frameOfWord at h
      repeat' (first | split at h | cases h; rfl | cases h)
    · cases h
  · have hn : ∀ k : Nat, sel.toNat = k → sel = BitVec.ofNat 8 k := by rintro k rfl; simp
    unfold parseCmd at h
    split at h
    all_goals
      try
        next hk =>
        rw [hn _ hk]
        first
        | (cases h; rfl)
        | (obtain ⟨a1, r1, -, h⟩ := andThen_ok h
           first
           | (cases h; rfl)
           | (obtain ⟨a2, r2, -, h⟩ := andThen_ok h
              first
              | (cases h; rfl)
              | (obtain ⟨a3, r3, -, h⟩ := andThen_ok h
                 cases h; rfl)))
    cases h

theorem decode_selector {sel : Byte} {r : List Byte} {i : Instr} (h : decode (sel :: r) = .ok i) : sel = selector i := by
  unfold decode at h
  split at h
  · next j hp => cases h; exact parse_selector hp
  · cases h
  · cases h

theorem decode_nil (i : Instr) : decode [] ≠ .ok i := by simp [decode, parse]

/-! ### The frame word -/

/-- The four wire bytes give W back. -/
theorem wireBytes_word (w : Word) :
    (w.extractLsb' 24 8 ++ w.extractLsb' 16 8 ++ w.extractLsb' 8 8 ++ w.extractLsb' 0 8 : Word) = w := by
  apply BitVec.eq_of_getLsbD_eq
  intro i hi
  simp only [BitVec.getLsbD_append, BitVec.getLsbD_extractLsb']
  by_cases h1 : i < 8
  · simp [h1]
  · by_cases h2 : i - 8 < 8
    · simp [h1, h2, show 8 + (i - 8) = i by omega]
    · by_cases h3 : i - 8 - 8 < 8
      · simp [h1, h2, h3, show 16 + (i - 8 - 8) = i by omega]
      · simp [h1, h2, h3, show i - 8 - 8 - 8 < 8 by omega, show 24 + (i - 8 - 8 - 8) = i by omega]

/-- A record of 32 preamble cells and W is W's frame. -/
theorem parse_frame (w : Word) : parse (List.replicate 4 0xFF#8 ++ wireBytes w) = frameOfWord w [] := by
  have h : parse (List.replicate 4 0xFF#8 ++ wireBytes w) =
      frameOfWord (w.extractLsb' 24 8 ++ w.extractLsb' 16 8 ++ w.extractLsb' 8 8 ++ w.extractLsb' 0 8) [] := rfl
  rw [h, wireBytes_word]

/-- Bit i of W of a read frame. -/
theorem readFrameWord_bit (a g : U5) (i : Nat) : (readFrameWord a g).getLsbD i =
    if i < 18 then false else if i < 23 then g.getLsbD (i - 18) else if i < 28 then a.getLsbD (i - 23)
    else (0b0110#4).getLsbD (i - 28) := by
  simp only [readFrameWord, BitVec.getLsbD_append]
  by_cases h1 : i < 18
  · simp [h1]
  · by_cases h2 : i < 23
    · simp [h1, h2, show i - 18 < 5 by omega]
    · by_cases h3 : i < 28
      · simp [h1, h2, h3, show ¬ i - 18 < 5 by omega, show i - 18 - 5 = i - 23 by omega, show i - 23 < 5 by omega]
      · simp only [h1, h2, h3, show ¬ i - 18 < 5 by omega, show ¬ i - 18 - 5 < 5 by omega, if_false,
          show i - 18 - 5 - 5 = i - 28 by omega]
        rw [show (0b0110#4 : BitVec 4) = 0b01#2 ++ 0b10#2 by decide, BitVec.getLsbD_append]

/-- Bit i of W of a write frame. -/
theorem writeFrameWord_bit (a g : U5) (v : Half) (i : Nat) : (writeFrameWord a g v).getLsbD i =
    if i < 16 then v.getLsbD i else if i < 18 then (0b10#2).getLsbD (i - 16)
    else if i < 23 then g.getLsbD (i - 18) else if i < 28 then a.getLsbD (i - 23)
    else (0b0101#4).getLsbD (i - 28) := by
  simp only [writeFrameWord, BitVec.getLsbD_append]
  by_cases h0 : i < 16
  · simp [h0]
  · by_cases h1 : i < 18
    · simp [h0, h1, show i - 16 < 2 by omega]
    · by_cases h2 : i < 23
      · simp [h0, h1, h2, show ¬ i - 16 < 2 by omega, show i - 16 - 2 = i - 18 by omega, show i - 18 < 5 by omega]
      · by_cases h3 : i < 28
        · simp [h0, h1, h2, h3, show ¬ i - 16 < 2 by omega, show ¬ i - 16 - 2 < 5 by omega,
            show i - 16 - 2 - 5 = i - 23 by omega, show i - 23 < 5 by omega]
        · simp only [h0, h1, h2, h3, show ¬ i - 16 < 2 by omega, show ¬ i - 16 - 2 < 5 by omega,
            show ¬ i - 16 - 2 - 5 < 5 by omega, if_false, show i - 16 - 2 - 5 - 5 = i - 28 by omega]
          rw [show (0b0101#4 : BitVec 4) = 0b01#2 ++ 0b01#2 by decide, BitVec.getLsbD_append]

end Sys2Proof
end

