-- ==== Sys2Proof/Laws/Mdio.lean ====
section
/-! SUPPORT. What an MDIO transaction does, in closed form: the pins, the cells it puts into the trace, the levels it takes
from the PHY, and the data register. Everything else it leaves alone. -/

namespace Sys2Proof.Machine

theorem cellEvents_append (k : Nat) (as bs : List CellLevel) :
    cellEvents k (as ++ bs) = cellEvents k as ++ cellEvents (k + as.length) bs := by
  induction as generalizing k with
  | nil => simp [cellEvents]
  | cons a as ih => simp [cellEvents, ih, Nat.add_assoc, Nat.add_comm 1]

@[simp] theorem levels_length (n : Nat) (e : Env) : (levels n e).length = n := by
  induction n generalizing e with
  | zero => rfl
  | succ n ih => simp [levels, ih]

theorem levels_add_two (n : Nat) (e : Env) : levels (n + 2) e =
    e.drawLevel.1 :: e.drawLevel.2.drawLevel.1 :: levels n e.drawLevel.2.drawLevel.2 := rfl

theorem mdioPut_eq (b : Bool) (s : State) : mdioPut b s =
    { s with mdc := true, mdioOut := b, mdioOe := true, mdioCell := s.mdioCell + 1,
             trace := s.trace ++ [.cell s.mdioCell (.drive b)] } := rfl

theorem mdioGet_eq (s : State) : (mdioGet s).2 =
    { s with mdc := true, mdioOe := false, mdioCell := s.mdioCell + 1,
             trace := s.trace ++ [.cell s.mdioCell (.release s.env.drawLevel.1)], env := s.env.drawLevel.2 } := rfl

theorem mdioGet_level (s : State) : (mdioGet s).1 = s.env.drawLevel.1 := rfl

/-- Driven cells, one or more. -/
theorem mdioPutAll_eq (bs : List Bool) (hb : bs ≠ []) (s : State) : mdioPutAll bs s =
    { s with mdc := true, mdioOut := bs.getLast hb, mdioOe := true, mdioCell := s.mdioCell + bs.length,
             trace := s.trace ++ cellEvents s.mdioCell (bs.map .drive) } := by
  induction bs generalizing s with
  | nil => exact absurd rfl hb
  | cons b bs ih =>
    by_cases h : bs = []
    · subst h; rfl
    · rw [mdioPutAll, ih h, mdioPut_eq]
      simp [cellEvents, List.getLast_cons h, Nat.add_assoc, Nat.add_comm 1]

/-- The data phase: only these fields change. -/
theorem mdioGetData_eq (n : Nat) (hn : n ≠ 0) (s : State) : mdioGetData n s =
    { s with mdc := true, mdioOe := false, mdioSr := (mdioGetData n s).mdioSr, mdioCell := s.mdioCell + n,
             trace := s.trace ++ cellEvents s.mdioCell ((levels n s.env).map .release),
             env := envAfterLevels n s.env } := by
  induction n generalizing s with
  | zero => exact absurd rfl hn
  | succ n ih =>
    by_cases h : n = 0
    · subst h; rfl
    · rw [mdioGetData, ih h]
      simp [setSr, cellEvents, levels, envAfterLevels, Nat.add_assoc, Nat.add_comm 1]

theorem setSr_bit (i : Nat) (hi : i < 16) (b : Bool) (s : State) (j : Nat) :
    (setSr i b s).mdioSr.getLsbD j = if j = i then b else s.mdioSr.getLsbD j := by
  by_cases hj : j < 16
  · by_cases h : j = i
    · subst h
      cases b <;> simp [setSr, hj]
    · have h1 : j < i ∨ ¬ j - i = 0 := by omega
      cases b <;> simp [setSr, hj, h]
      · exact fun _ => h1
      · rcases h1 with h1 | h1 <;> simp [h1]
  · have h : j ≠ i := by omega
    rw [if_neg h, BitVec.getLsbD_of_ge _ _ (by omega), BitVec.getLsbD_of_ge _ _ (by omega)]

theorem mdioGetData_bit (n : Nat) (hn : n ≤ 16) (s : State) (j : Nat) :
    (mdioGetData n s).mdioSr.getLsbD j =
      if j < n then (levels n s.env).getD (n - 1 - j) false else s.mdioSr.getLsbD j := by
  induction n generalizing s with
  | zero => simp [mdioGetData]
  | succ n ih =>
    rw [mdioGetData, ih (by omega)]
    by_cases h1 : j < n
    · rw [if_pos h1, if_pos (by omega), show n + 1 - 1 - j = (n - 1 - j) + 1 by omega]
      rfl
    · rw [if_neg h1, setSr_bit n (by omega)]
      by_cases h2 : j = n
      · subst h2; simp [levels, mdioGet_level]
      · rw [if_neg h2, if_neg (by omega)]; simp

theorem readHead_length (addr reg : U5) : (readHead addr reg).length = 46 := by
  simp [readHead, frameHead, msbFirst]

theorem readHead_ne (addr reg : U5) : readHead addr reg ≠ [] := by
  intro h; have := readHead_length addr reg; simp [h] at this

theorem writeCells_length (addr reg : U5) (val : Half) : (writeCells addr reg val).length = 64 := by
  simp [writeCells, frameHead, msbFirst]

theorem writeCells_ne (addr reg : U5) (val : Half) : writeCells addr reg val ≠ [] := by
  intro h; have := writeCells_length addr reg val; simp [h] at this

theorem msbFirst_ne {w : Nat} (x : BitVec (w + 1)) : msbFirst x ≠ [] := by
  intro h; have := congrArg List.length h; simp [msbFirst] at this

theorem msbFirst_getLast {w : Nat} (x : BitVec (w + 1)) : (msbFirst x).getLast (msbFirst_ne x) = x.getLsbD 0 := by
  rw [List.getLast_eq_getElem]; simp [msbFirst]

theorem readHead_getLast (addr reg : U5) : (readHead addr reg).getLast (readHead_ne addr reg) = reg.getLsbD 0 := by
  simp only [readHead, frameHead]
  rw [List.getLast_append_of_ne_nil _ (msbFirst_ne reg), msbFirst_getLast]

theorem writeCells_getLast (addr reg : U5) (val : Half) :
    (writeCells addr reg val).getLast (writeCells_ne addr reg val) = val.getLsbD 0 := by
  simp only [writeCells]
  rw [List.getLast_append_of_ne_nil _ (msbFirst_ne val), msbFirst_getLast]

/-- The whole read transaction: what it changes and what it leaves. -/
theorem mdioReadTransaction_eq (addr reg : U5) (s : State) : mdioReadTransaction addr reg s =
    { s with mdc := true, mdioOut := reg.getLsbD 0, mdioOe := true,
             mdioSr := (mdioReadTransaction addr reg s).mdioSr, mdioCell := 64,
             trace := s.trace ++ cellEvents 0 ((readHead addr reg).map .drive ++ (levels 18 s.env).map .release),
             env := envAfterLevels 18 s.env } := by
  unfold mdioReadTransaction
  rw [mdioGetData_eq 16 (by decide)]
  simp only [mdioReadStart]
  rw [mdioPutAll_eq _ (readHead_ne addr reg), readHead_getLast, readHead_length]
  simp [mdioStart, mdioGet_eq, cellEvents_append, cellEvents, readHead_length, levels, envAfterLevels]

/-- Bit i of the result is the level sampled in cell 63 - i. -/
theorem mdioReadTransaction_bit (addr reg : U5) (s : State) (i : Nat) (hi : i < 16) :
    (mdioReadTransaction addr reg s).mdioSr.getLsbD i = (levels 18 s.env).getD (17 - i) false := by
  simp only [mdioReadTransaction]
  rw [mdioGetData_bit 16 (by decide), if_pos hi]
  simp only [mdioReadStart, mdioPutAll_eq _ (readHead_ne addr reg), mdioStart, mdioGet_eq]
  rw [show 17 - i = (16 - 1 - i) + 2 by omega, levels_add_two 16]
  simp only [List.getD_cons_succ]

/-- The whole write transaction. -/
theorem mdioWriteTransaction_eq (addr reg : U5) (val : Half) (s : State) : mdioWriteTransaction addr reg val s =
    { s with mdc := true, mdioOut := val.getLsbD 0, mdioOe := true, mdioCell := 64,
             trace := s.trace ++ cellEvents 0 ((writeCells addr reg val).map .drive) } := by
  unfold mdioWriteTransaction
  rw [mdioPutAll_eq _ (writeCells_ne addr reg val), writeCells_getLast, writeCells_length]
  simp [mdioStart]

/-- The scan changes nothing but the MDIO state, the PHY address, the trace and what the PHY has answered. -/
theorem scanFrom_eq (as : List U5) (s : State) : (scanFrom as s).2 =
    { s with mdc := (scanFrom as s).2.mdc, mdioOut := (scanFrom as s).2.mdioOut, mdioOe := (scanFrom as s).2.mdioOe,
             mdioSr := (scanFrom as s).2.mdioSr, mdioCell := (scanFrom as s).2.mdioCell,
             phyAddr := (scanFrom as s).2.phyAddr, trace := (scanFrom as s).2.trace,
             env := (scanFrom as s).2.env } := by
  induction as generalizing s with
  | nil => rfl
  | cons a as ih =>
    simp only [scanFrom]
    split
    · rw [mdioReadTransaction_eq a 0 s]
    · rw [ih, mdioReadTransaction_eq a 0 s]

/-- After a scan no transaction is in progress and the line is driven. -/
theorem scanFrom_idle (as : List U5) (s : State) (h : s.mdioCell = 64) (ho : s.mdioOe = true) :
    (scanFrom as s).2.mdioCell = 64 ∧ (scanFrom as s).2.mdioOe = true := by
  induction as generalizing s with
  | nil => exact ⟨h, ho⟩
  | cons a as ih =>
    simp only [scanFrom]
    split
    · rw [mdioReadTransaction_eq a 0 s]; exact ⟨rfl, rfl⟩
    · exact ih _ (by rw [mdioReadTransaction_eq a 0 s]) (by rw [mdioReadTransaction_eq a 0 s])

/-- Bit i of a read's answer is the level of cell 63 - i. -/
theorem readAnswer_bit (e : Env) (i : Nat) (hi : i < 16) :
    (readAnswer e).getLsbD i = (levels 18 e).getD (17 - i) false := by
  unfold readAnswer
  rw [BitVec.getLsbD_setWidth, BitVec.getLsbD_eq_getMsbD, BitVec.getMsbD_ofBoolListBE]
  simp [hi, List.getD_eq_getElem?_getD, show 2 + (18 - 2 - 1 - i) = 17 - i by omega]

/-- What a read transaction leaves in `mdio_sr`. -/
theorem mdioReadTransaction_answer (addr reg : U5) (s : State) :
    (mdioReadTransaction addr reg s).mdioSr = readAnswer s.env := by
  apply BitVec.eq_of_getLsbD_eq
  intro i hi
  rw [mdioReadTransaction_bit _ _ _ i hi, readAnswer_bit _ i hi]

/-- The whole read transaction in closed form. -/
theorem mdioReadTransaction_closed (addr reg : U5) (s : State) : mdioReadTransaction addr reg s =
    { s with mdc := true, mdioOut := reg.getLsbD 0, mdioOe := true, mdioSr := readAnswer s.env, mdioCell := 64,
             trace := s.trace ++ cellEvents 0 (readCells addr reg s.env), env := envAfterLevels 18 s.env } := by
  rw [mdioReadTransaction_eq, mdioReadTransaction_answer]
  rfl

theorem scanAnswer_succ (k : Nat) (e : Env) : scanAnswer k (envAfterLevels 18 e) = scanAnswer (k + 1) e := by
  unfold scanAnswer; rw [show 18 * (k + 1) = 18 * k + 18 by omega]; rfl

/-- A scan that finds a PHY at the j-th address it tries. -/
theorem scanFrom_found (as : List U5) (s : State) (j : Nat) (a : U5) (ha : as[j]? = some a)
    (hb : ∀ k, k < j → scanAnswer k s.env = 0xFFFF#16) (hj : scanAnswer j s.env ≠ 0xFFFF#16) :
    scanFrom as s = (some a,
      { s with mdc := true, mdioOut := false, mdioOe := true, mdioSr := scanAnswer j s.env, mdioCell := 64, phyAddr := a,
               trace := s.trace ++ scanCells (as.take (j + 1)) s.env, env := envAfterLevels (18 * (j + 1)) s.env }) := by
  induction as generalizing s j with
  | nil => simp at ha
  | cons x as ih =>
    cases j with
    | zero =>
      simp at ha; subst ha
      have hj' : readAnswer s.env ≠ 0xFFFF#16 := hj
      simp only [scanFrom, mdioReadTransaction_closed, phyPresent, hj', ne_eq, not_false_eq_true, decide_true, if_true]
      simp [scanAnswer, scanCells, envAfterLevels]
    | succ j =>
      have h0 : readAnswer s.env = 0xFFFF#16 := hb 0 (by omega)
      have hsh := fun k => scanAnswer_succ k s.env
      simp only [scanFrom, mdioReadTransaction_closed, phyPresent, h0, ne_eq, not_true_eq_false, decide_false]
      rw [if_neg (by simp)]
      rw [ih _ j (by simpa using ha) (fun k hk => by rw [hsh]; exact hb _ (by omega)) (by rw [hsh]; exact hj)]
      simp only [hsh, List.take_succ_cons, scanCells, List.append_assoc]
      rfl

/-- A scan that finds none. -/
theorem scanFrom_none (as : List U5) (s : State) (hn : as ≠ [])
    (hb : ∀ k, k < as.length → scanAnswer k s.env = 0xFFFF#16) :
    scanFrom as s = (none,
      { s with mdc := true, mdioOut := false, mdioOe := true, mdioSr := 0xFFFF#16, mdioCell := 64,
               trace := s.trace ++ scanCells as s.env, env := envAfterLevels (18 * as.length) s.env }) := by
  induction as generalizing s with
  | nil => exact absurd rfl hn
  | cons x as ih =>
    have h0 : readAnswer s.env = 0xFFFF#16 := hb 0 (by simp)
    have hsh := fun k => scanAnswer_succ k s.env
    simp only [scanFrom, mdioReadTransaction_closed, phyPresent, h0, ne_eq, not_true_eq_false, decide_false]
    rw [if_neg (by simp)]
    by_cases h : as = []
    · subst h
      simp [scanFrom, scanCells]
    · rw [ih _ h (fun k hk => by rw [hsh]; exact hb _ (by simpa using hk))]
      simp only [scanCells, List.append_assoc]
      rfl

theorem scanAddresses_get (a : U5) : scanAddresses[a.toNat]? = some a := by
  revert a; decide

end Sys2Proof.Machine
end

