-- ==== Sys2Proof/Laws/Invariant.lean ====
section
/-! SUPPORT. Which shared operations keep the invariant, one lemma each. -/

namespace Sys2Proof.Machine

/-- The invariant reads none of these fields. -/
theorem Inv.frame {s : State} (h : Inv s) (up : Bool) (crc : Word) (mdc out : Bool) (sr : Half) (phy : U5) (link : Bool)
    (cnt : Counters) (tr : List Event) (e : Env) :
    Inv { s with up := up, crc := crc, mdc := mdc, mdioOut := out, mdioSr := sr, phyAddr := phy, linkUp := link,
                 cnt := cnt, trace := tr, env := e } :=
  ⟨h.legal, h.single, ⟨h.ring.rear_lt, h.ring.head_eq, h.ring.sem_le, h.ring.permits_le⟩,
    ⟨h.tx.rd_le, h.tx.len_le, h.tx.busy_lt, h.tx.busy_written⟩,
    ⟨h.rx.lens, h.rx.mems, h.rx.wptr_le, h.rx.captured, h.rx.len_le, h.rx.len_written, h.rx.wait_irq, h.rx.lost_idle⟩,
    h.mdio_idle, h.mdio_driven, h.mem_wf, h.mem_bounded⟩

theorem Inv.emit {s : State} (h : Inv s) (e : Event) : Inv (Machine.emit e s) :=
  h.frame s.up s.crc s.mdc s.mdioOut s.mdioSr s.phyAddr s.linkUp s.cnt _ s.env

theorem Inv.withEnv {s : State} (h : Inv s) (e : Env) : Inv (Machine.withEnv e s) :=
  h.frame s.up s.crc s.mdc s.mdioOut s.mdioSr s.phyAddr s.linkUp s.cnt s.trace e

theorem Inv.count {s : State} (h : Inv s) (f : Counters → Counters) : Inv (Machine.count f s) := by
  unfold Machine.count
  split
  · exact h.frame s.up s.crc s.mdc s.mdioOut s.mdioSr s.phyAddr s.linkUp _ s.trace s.env
  · exact h

/-- POLL moves between points at which it holds no slot. -/
theorem Inv.setPoll {s : State} (h : Inv s) (hp : s.poll ≠ .claimed) (p : Poll) (hq : p ≠ .claimed) :
    Inv { s with poll := p } := by
  have e : holding { s with poll := p } = holding s := by simp [holding, hp, hq]
  exact ⟨h.legal, h.single, ⟨h.ring.rear_lt, by rw [e]; exact h.ring.head_eq, h.ring.sem_le, by rw [e]; exact h.ring.permits_le⟩,
    ⟨h.tx.rd_le, h.tx.len_le, h.tx.busy_lt, h.tx.busy_written⟩,
    ⟨h.rx.lens, h.rx.mems, h.rx.wptr_le, h.rx.captured, h.rx.len_le, h.rx.len_written, h.rx.wait_irq, h.rx.lost_idle⟩,
    h.mdio_idle, h.mdio_driven, h.mem_wf, h.mem_bounded⟩

/-- Where the poll loop stands is in no invariant. -/
theorem Inv.setLoop {s : State} (h : Inv s) (l : LoopPoint) : Inv { s with loop := l } :=
  ⟨h.legal, h.single, ⟨h.ring.rear_lt, h.ring.head_eq, h.ring.sem_le, h.ring.permits_le⟩,
    ⟨h.tx.rd_le, h.tx.len_le, h.tx.busy_lt, h.tx.busy_written⟩,
    ⟨h.rx.lens, h.rx.mems, h.rx.wptr_le, h.rx.captured, h.rx.len_le, h.rx.len_written, h.rx.wait_irq, h.rx.lost_idle⟩,
    h.mdio_idle, h.mdio_driven, h.mem_wf, h.mem_bounded⟩

/-- A lost frame begins, goes on or ends outside CAPTURE (R226). -/
theorem Inv.setLost {s : State} (h : Inv s) (b : Bool) (hb : b = true → s.rxSeq ≠ .capture) : Inv { s with rxLost := b } :=
  ⟨h.legal, h.single, ⟨h.ring.rear_lt, h.ring.head_eq, h.ring.sem_le, h.ring.permits_le⟩,
    ⟨h.tx.rd_le, h.tx.len_le, h.tx.busy_lt, h.tx.busy_written⟩,
    ⟨h.rx.lens, h.rx.mems, h.rx.wptr_le, h.rx.captured, h.rx.len_le, h.rx.len_written, h.rx.wait_irq, hb⟩,
    h.mdio_idle, h.mdio_driven, h.mem_wf, h.mem_bounded⟩

theorem Inv.n_pos {s : State} (h : Inv s) : 0 < s.cfg.n := by
  have := Cfg.legal_bounds h.legal; omega

theorem Inv.head_lt {s : State} (h : Inv s) : s.head < s.cfg.n := by
  rw [h.ring.head_eq]; exact Nat.mod_lt _ h.n_pos

/-- The acquire: a permit becomes a held slot (R250). -/
theorem Inv.acquire {s : State} (h : Inv s) (hp : s.poll ≠ .claimed) (hs : s.sem ≠ 0) :
    Inv { semAcquire s with poll := .claimed } := by
  have e : holding s = 0 := by simp [holding, hp]
  have e' : holding { semAcquire s with poll := .claimed } = 1 := by simp [holding]
  have := h.ring.head_eq; have := h.ring.sem_le; have := h.ring.permits_le
  refine ⟨h.legal, h.single, ⟨h.ring.rear_lt, ?_, ?_, ?_⟩,
    ⟨h.tx.rd_le, h.tx.len_le, h.tx.busy_lt, h.tx.busy_written⟩,
    ⟨h.rx.lens, h.rx.mems, h.rx.wptr_le, h.rx.captured, h.rx.len_le, h.rx.len_written, h.rx.wait_irq, h.rx.lost_idle⟩,
    h.mdio_idle, h.mdio_driven, h.mem_wf, h.mem_bounded⟩
  · rw [e']; simp only [semAcquire]; rw [h.ring.head_eq, e]; congr 1; omega
  · simp only [semAcquire]; omega
  · rw [e']; simp only [semAcquire]; omega

/-- The advance of `rear`: the held slot goes back (R250). -/
theorem Inv.release {s : State} (h : Inv s) (hp : s.poll = .claimed) (p : Poll) (hq : p ≠ .claimed) :
    Inv { advanceRear s with poll := p } := by
  have e : holding s = 1 := by simp [holding, hp]
  have e' : holding { advanceRear s with poll := p } = 0 := by simp [holding, hq]
  have := h.ring.sem_le; have := h.ring.permits_le
  refine ⟨h.legal, h.single, ⟨?_, ?_, h.ring.sem_le, ?_⟩,
    ⟨h.tx.rd_le, h.tx.len_le, h.tx.busy_lt, h.tx.busy_written⟩,
    ⟨h.rx.lens, h.rx.mems, h.rx.wptr_le, h.rx.captured, h.rx.len_le, h.rx.len_written, h.rx.wait_irq, h.rx.lost_idle⟩,
    h.mdio_idle, h.mdio_driven, h.mem_wf, h.mem_bounded⟩
  · exact Nat.mod_lt _ h.n_pos
  · rw [e']; simp only [advanceRear]; rw [h.ring.head_eq, e]; simp only [Nat.add_zero, Nat.mod_add_mod]
  · rw [e']; simp only [advanceRear]; omega

/-- The host buffer comes, and goes. -/
theorem Inv.setHbuf {s : State} (h : Inv s) (b : Option Buffer) (hb : ∀ x, b = some x → x.mem = []) :
    Inv { s with hbuf := b } := by
  have hr : ∀ r o, (readByte { s with hbuf := b } r o).isSome → (readByte s r o).isSome ∧ r ≠ .hbuf := by
    intro r o ho
    cases r with
    | hbuf =>
      simp only [readByte, regionMem] at ho
      cases hb' : b with
      | none => simp [hb', Memory.read] at ho
      | some x => simp [hb', hb x hb', Memory.read] at ho
    | _ => exact ⟨ho, by simp⟩
  refine ⟨h.legal, h.single, ⟨h.ring.rear_lt, h.ring.head_eq, h.ring.sem_le, h.ring.permits_le⟩,
    ⟨h.tx.rd_le, h.tx.len_le, h.tx.busy_lt, h.tx.busy_written⟩,
    ⟨h.rx.lens, h.rx.mems, h.rx.wptr_le, ?_, h.rx.len_le, h.rx.len_written, h.rx.wait_irq, h.rx.lost_idle⟩,
    h.mdio_idle, h.mdio_driven, ?_, ?_⟩
  · have := h.rx.captured
    unfold captureRegion at this ⊢
    cases htg : s.rxTarget <;> rw [htg] at this <;> exact this
  · have hw := h.mem_wf
    simp only [memoryWf, Bool.and_eq_true] at hw ⊢
    refine ⟨⟨hw.1.1, ?_⟩, hw.2⟩
    cases hb' : b with
    | none => rfl
    | some x => simp [hb x hb']; rfl
  · intro r o ho
    obtain ⟨h1, h2⟩ := hr r o ho
    obtain ⟨c, hc, hoc⟩ := h.mem_bounded r o h1
    refine ⟨c, ?_, hoc⟩
    cases r <;> first | exact hc | exact absurd rfl h2

/-- A region with a capacity is there. -/
theorem Inv.present {s : State} (h : Inv s) {r : Region} {c : Nat} (hc : regionCap s r = some c) : present s r := by
  cases r with
  | txbuf => trivial
  | slot i =>
    simp only [regionCap] at hc
    split at hc
    · simpa [Machine.present, h.rx.mems]
    · cases hc
  | dummy => trivial
  | hbuf => cases hb : s.hbuf <;> simp [regionCap, hb] at hc; simp [Machine.present, hb]
  | caller k =>
    cases hk : s.callers[k]? with
    | none => simp [regionCap, hk] at hc
    | some b => exact (List.getElem?_eq_some_iff.1 hk).1

/-- A write inside a region. -/
theorem Inv.write {s : State} (h : Inv s) {r : Region} {c : Nat} (hc : regionCap s r = some c) (o : Nat) (bs : List Byte)
    (hb : o + bs.length ≤ c) : Inv (writeBytes s r o bs) := by
  have hp := h.present hc
  have some_of : ∀ r' a, (readByte s r' a).isSome → (readByte (writeBytes s r o bs) r' a).isSome :=
    readByte_writeBytes_isSome s h.mem_wf r o bs
  have ew : ∀ r' k, written s r' k → written (writeBytes s r o bs) r' k := fun r' k hw a ha => some_of r' a (hw a ha)
  have ep : holding (writeBytes s r o bs) = holding s := by simp [holding]
  have ec : captureRegion (writeBytes s r o bs) = captureRegion s := by simp [captureRegion]
  have el : ∀ i, slotLength (writeBytes s r o bs) i = slotLength s i := by simp [slotLength]
  refine ⟨?_, ?_, ⟨?_, ?_, ?_, ?_⟩, ⟨?_, ?_, ?_, ?_⟩, ⟨?_, ?_, ?_, ?_, ?_, ?_, ?_, ?_⟩, ?_, ?_, ?_, ?_⟩
  · simpa using h.legal
  · simpa using h.single
  · simpa using h.ring.rear_lt
  · simpa [ep] using h.ring.head_eq
  · simpa using h.ring.sem_le
  · simpa [ep] using h.ring.permits_le
  · simpa using h.tx.rd_le
  · simpa using h.tx.len_le
  · simpa using h.tx.busy_lt
  · intro hbusy; exact ew _ _ (by simpa using h.tx.busy_written (by simpa using hbusy))
  · simpa using h.rx.lens
  · cases r <;> simpa [writeBytes, setRegionMem] using h.rx.mems
  · simpa using h.rx.wptr_le
  · rw [ec]; exact ew _ _ (by simpa using h.rx.captured)
  · intro i; rw [el]; simpa using h.rx.len_le i
  · intro i; rw [el]; exact ew _ _ (h.rx.len_written i)
  · simpa using h.rx.wait_irq
  · simpa using h.rx.lost_idle
  · simpa using h.mdio_idle
  · simpa using h.mdio_driven
  · exact memoryWf_writeBytes s h.mem_wf r o bs
  · intro r' a ha
    rw [readByte_writeBytes s h.mem_wf r o bs hp] at ha
    rw [regionCap_writeBytes]
    split at ha
    · next hr => obtain ⟨rfl, h1, h2⟩ := hr; exact ⟨c, hc, by omega⟩
    · exact h.mem_bounded r' a ha

/-- Lengths, sequencer and channel after an interrupt that records `l` (R229, R234). -/
theorem Inv.rearm {s : State} (h : Inv s) (l : List Nat) (h1 : l.length = s.cfg.n) (h2 : ∀ i, l.getD i 0 ≤ s.cfg.slotCap)
    (h3 : ∀ i, written s (.slot i) (l.getD i 0)) (t : RxTarget) :
    Inv { s with rxIrq := false, rxSeq := .listen, rxTarget := t, rxWptr := 0, slotLen := l } :=
  ⟨h.legal, h.single, ⟨h.ring.rear_lt, h.ring.head_eq, h.ring.sem_le, h.ring.permits_le⟩,
    ⟨h.tx.rd_le, h.tx.len_le, h.tx.busy_lt, h.tx.busy_written⟩,
    ⟨h1, h.rx.mems, Nat.zero_le _, fun o ho => absurd ho (Nat.not_lt_zero o), h2, h3, by simp, by simp⟩,
    h.mdio_idle, h.mdio_driven, h.mem_wf, h.mem_bounded⟩

/-- What step 1 of the producer leaves in the lengths (R229, R251). -/
theorem Inv.recorded {s : State} (h : Inv s) : (recordedLens s).length = s.cfg.n ∧
    (∀ i, (recordedLens s).getD i 0 ≤ s.cfg.slotCap) ∧ ∀ i, written s (.slot i) ((recordedLens s).getD i 0) := by
  have hh := h.head_lt
  have hc := h.rx.captured
  unfold recordedLens captureRegion at *
  cases htg : s.rxTarget with
  | dummy => exact ⟨h.rx.lens, h.rx.len_le, h.rx.len_written⟩
  | slot =>
    simp only [htg] at hc
    refine ⟨by simpa using h.rx.lens, fun i => ?_, fun i => ?_⟩
    · by_cases hi : i = s.head
      · subst hi; simp [List.getD_eq_getElem?_getD, h.rx.lens, hh]; exact h.rx.wptr_le
      · simpa [List.getD_eq_getElem?_getD, List.getElem?_set, Ne.symm hi, slotLength] using h.rx.len_le i
    · by_cases hi : i = s.head
      · subst hi
        simpa [List.getD_eq_getElem?_getD, h.rx.lens, hh] using hc
      · simpa [List.getD_eq_getElem?_getD, List.getElem?_set, Ne.symm hi, slotLength] using h.rx.len_written i

/-- The ring after a release (R231, R232, R250). -/
theorem Inv.advance {s : State} (h : Inv s) (hw : s.rxWptr = 0) (hf : ringFull s = false) :
    Inv { s with head := (s.head + 1) % s.cfg.n, sem := min (s.sem + 1) s.cfg.n } := by
  obtain ⟨hl2, hl3, hn, -⟩ := Cfg.legal_bounds h.legal
  have h1 := h.ring.head_eq; have h2 := h.ring.permits_le; have h3 := h.ring.sem_le
  have hf : s.sem < s.cfg.n - s.cfg.lwm := by simp [ringFull] at hf; omega
  have hh : holding s ≤ 1 := by unfold holding; split <;> omega
  have hmin : min (s.sem + 1) s.cfg.n = s.sem + 1 := by omega
  rw [hmin]
  refine ⟨h.legal, h.single, ⟨h.ring.rear_lt, ?_, ?_, ?_⟩,
    ⟨h.tx.rd_le, h.tx.len_le, h.tx.busy_lt, h.tx.busy_written⟩,
    ⟨h.rx.lens, h.rx.mems, h.rx.wptr_le, fun o ho => ?_, h.rx.len_le, h.rx.len_written, h.rx.wait_irq, h.rx.lost_idle⟩,
    h.mdio_idle, h.mdio_driven, h.mem_wf, h.mem_bounded⟩
  · show (s.head + 1) % s.cfg.n = (s.rear + holding s + (s.sem + 1)) % s.cfg.n
    rw [h1, Nat.mod_add_mod, Nat.add_assoc]
  · show s.sem + 1 ≤ s.cfg.n - s.cfg.lwm
    omega
  · show s.sem + 1 + holding s ≤ s.cfg.n - s.cfg.lwm + 1
    omega
  · have ho : o < s.rxWptr := ho
    omega

/-- Steps 0 and 1 of the producer (R228, R229). -/
theorem recordLength_eq (s : State) : recordLength (acknowledge s) =
    { s with rxIrq := false, slotLen := recordedLens s } := by
  cases s with
  | mk up cfg crc mdc mo moe sr cell phy link busy len rd target wptr seq irq lost head rear sem lens cnt txb slots dummy hbuf callers poll loop trace env =>
    cases target <;> rfl

/-- A count changes only the counters. -/
theorem count_eq (f : Counters → Counters) (s : State) : count f s = { s with cnt := counted f s } := by
  unfold count counted
  split <;> rfl

/-- The boundary interrupt when the ring is judged full (R233). -/
theorem takeBoundary_full (s : State) (h : ringFull s = true) : takeBoundaryInterrupt s =
    { s with rxIrq := false, slotLen := recordedLens s, rxTarget := .dummy, rxWptr := 0,
             cnt := counted Counters.incRxFull s, rxSeq := .listen, trace := s.trace ++ [.retrigger] } := by
  unfold takeBoundaryInterrupt judgeRing
  rw [recordLength_eq, if_pos (show ringFull { s with rxIrq := false, slotLen := recordedLens s } = true from h)]
  unfold dropNext
  rw [count_eq]
  rfl

/-- And when it is not (R231, R232). -/
theorem takeBoundary_notFull (s : State) (h : ringFull s = false) : takeBoundaryInterrupt s =
    { s with rxIrq := false, slotLen := recordedLens s, head := (s.head + 1) % s.cfg.n, rxTarget := .slot, rxWptr := 0,
             cnt := counted Counters.incRxOk s, sem := min (s.sem + 1) s.cfg.n, rxSeq := .listen,
             trace := s.trace ++ [.retrigger] } := by
  unfold takeBoundaryInterrupt judgeRing
  rw [recordLength_eq, if_neg (show ¬ ringFull { s with rxIrq := false, slotLen := recordedLens s } = true from
    fun e => Bool.false_ne_true (h.symm.trans e))]
  unfold releaseSlot
  rw [count_eq]
  rfl

/-- The boundary interrupt (R250: release adds one to `head` and `sem`; the full branch changes neither). -/
theorem Inv.boundary {s : State} (h : Inv s) : Inv (takeBoundaryInterrupt s) := by
  obtain ⟨h1, h2, h3⟩ := h.recorded
  cases hf : ringFull s with
  | true =>
    rw [takeBoundary_full s hf]
    exact (h.rearm _ h1 h2 h3 .dummy).frame s.up s.crc s.mdc s.mdioOut s.mdioSr s.phyAddr s.linkUp _ _ s.env
  | false =>
    rw [takeBoundary_notFull s hf]
    have ha := (h.rearm _ h1 h2 h3 .slot).advance rfl hf
    exact ha.frame s.up s.crc s.mdc s.mdioOut s.mdioSr s.phyAddr s.linkUp _ _ s.env

/-- RXCAP's half of a boundary (R225). -/
theorem Inv.signal {s : State} (h : Inv s) : Inv (signalBoundary s) :=
  ⟨h.legal, h.single, ⟨h.ring.rear_lt, h.ring.head_eq, h.ring.sem_le, h.ring.permits_le⟩,
    ⟨h.tx.rd_le, h.tx.len_le, h.tx.busy_lt, h.tx.busy_written⟩,
    ⟨h.rx.lens, h.rx.mems, h.rx.wptr_le, h.rx.captured, h.rx.len_le, h.rx.len_written, by simp, by simp⟩,
    h.mdio_idle, h.mdio_driven, h.mem_wf, h.mem_bounded⟩

theorem captureCap_region {s : State} (h : Inv s) : regionCap s (captureRegion s) = some (captureCap s) := by
  unfold captureRegion captureCap
  cases s.rxTarget with
  | slot => simp [regionCap, h.head_lt]
  | dummy => rfl

theorem captureCap_eq (s : State) : captureCap s = s.cfg.slotCap := by
  unfold captureCap; cases s.rxTarget <;> rfl

/-- A byte is captured (R223, R224). -/
theorem Inv.capture {s : State} (h : Inv s) (hl : rxListening s = true) (b : Byte) :
    Inv { storeByte b s with rxSeq := .capture } := by
  obtain ⟨hw, hlost⟩ : s.rxSeq ≠ .wait ∧ s.rxLost = false := by simpa [rxListening] using hl
  have hi : s.rxIrq = false := by
    cases hq : s.rxIrq with
    | false => rfl
    | true => exact absurd (h.rx.wait_irq.2 hq) hw
  have seq : ∀ t, Inv t → t.rxIrq = false → t.rxLost = false → Inv { t with rxSeq := .capture } := fun t ht htq htl =>
    ⟨ht.legal, ht.single, ⟨ht.ring.rear_lt, ht.ring.head_eq, ht.ring.sem_le, ht.ring.permits_le⟩,
      ⟨ht.tx.rd_le, ht.tx.len_le, ht.tx.busy_lt, ht.tx.busy_written⟩,
      ⟨ht.rx.lens, ht.rx.mems, ht.rx.wptr_le, ht.rx.captured, ht.rx.len_le, ht.rx.len_written, by simp [htq], by simp [htl]⟩,
      ht.mdio_idle, ht.mdio_driven, ht.mem_wf, ht.mem_bounded⟩
  unfold storeByte
  split
  · next hlt =>
    have hc := captureCap_region h
    have hcap := captureCap_eq s
    have hw' : Inv (writeBytes s (captureRegion s) s.rxWptr [b]) := h.write hc _ _ (by simp; omega)
    have ec : captureRegion (writeBytes s (captureRegion s) s.rxWptr [b]) = captureRegion s := by
      simp [captureRegion]
    apply seq
    · refine ⟨hw'.legal, hw'.single, ⟨hw'.ring.rear_lt, hw'.ring.head_eq, hw'.ring.sem_le, hw'.ring.permits_le⟩,
        ⟨hw'.tx.rd_le, hw'.tx.len_le, hw'.tx.busy_lt, hw'.tx.busy_written⟩,
        ⟨hw'.rx.lens, hw'.rx.mems, ?_, ?_, hw'.rx.len_le, hw'.rx.len_written, hw'.rx.wait_irq, hw'.rx.lost_idle⟩,
        hw'.mdio_idle, hw'.mdio_driven, hw'.mem_wf, hw'.mem_bounded⟩
      · simp; omega
      · intro o ho
        have ho : o < s.rxWptr + 1 := ho
        change (readByte (writeBytes s (captureRegion s) s.rxWptr [b])
          (captureRegion (writeBytes s (captureRegion s) s.rxWptr [b])) o).isSome = true
        rw [ec, readByte_writeBytes s h.mem_wf _ _ _ (h.present hc)]
        split
        · next hin => simp [show o - s.rxWptr = 0 by omega]
        · next hout => exact h.rx.captured o (by simp at hout; omega)
    · simp [hi]
    · simp [hlost]
  · exact seq s h hi hlost

/-- The transfer is armed over bytes that are there (R208). -/
theorem Inv.arm {s : State} (h : Inv s) (n : Nat) (hn : n + 4 ≤ s.cfg.txCap) (hw : written s .txbuf (n + 4)) :
    Inv (armTransmit n s) := by
  have : Inv { s with txLen := n + 4, txRd := 0, txBusy := true } :=
    ⟨h.legal, h.single, ⟨h.ring.rear_lt, h.ring.head_eq, h.ring.sem_le, h.ring.permits_le⟩,
      ⟨Nat.zero_le _, hn, fun _ => Nat.succ_pos _, fun _ => hw⟩,
      ⟨h.rx.lens, h.rx.mems, h.rx.wptr_le, h.rx.captured, h.rx.len_le, h.rx.len_written, h.rx.wait_irq, h.rx.lost_idle⟩,
      h.mdio_idle, h.mdio_driven, h.mem_wf, h.mem_bounded⟩
  exact (this.count _).emit _

/-- One byte is moved (R210). -/
theorem Inv.move {s : State} (h : Inv s) (b : Byte) (he : txDmaEnabled s = true) : Inv (txMove b s) := by
  obtain ⟨hb, hlt⟩ : s.txBusy = true ∧ s.txRd < s.txLen := by simpa [txDmaEnabled] using he
  exact ⟨h.legal, h.single, ⟨h.ring.rear_lt, h.ring.head_eq, h.ring.sem_le, h.ring.permits_le⟩,
    ⟨by simp; omega, by simpa using h.tx.len_le, fun hb' => by simp at hb' ⊢; omega,
      fun _ => h.tx.busy_written hb⟩,
    ⟨h.rx.lens, h.rx.mems, h.rx.wptr_le, h.rx.captured, h.rx.len_le, h.rx.len_written, h.rx.wait_irq, h.rx.lost_idle⟩,
    h.mdio_idle, h.mdio_driven, h.mem_wf, h.mem_bounded⟩

/-- A read transaction. -/
theorem Inv.mdioRead {s : State} (h : Inv s) (a g : U5) : Inv (mdioReadTransaction a g s) := by
  rw [mdioReadTransaction_eq, show (64 : Nat) = s.mdioCell from h.mdio_idle.symm, show true = s.mdioOe from h.mdio_driven.symm]
  exact h.frame s.up s.crc _ _ _ s.phyAddr s.linkUp s.cnt _ _

/-- A write transaction. -/
theorem Inv.mdioWrite {s : State} (h : Inv s) (a g : U5) (v : Half) : Inv (mdioWriteTransaction a g v s) := by
  rw [mdioWriteTransaction_eq, show (64 : Nat) = s.mdioCell from h.mdio_idle.symm, show true = s.mdioOe from h.mdio_driven.symm]
  exact h.frame s.up s.crc _ _ _ s.phyAddr s.linkUp s.cnt _ _

/-- A scan. -/
theorem Inv.scan {s : State} (h : Inv s) (as : List U5) : Inv (scanFrom as s).2 := by
  have hi := scanFrom_idle as s h.mdio_idle h.mdio_driven
  rw [scanFrom_eq, show (scanFrom as s).2.mdioCell = s.mdioCell by rw [hi.1, h.mdio_idle],
    show (scanFrom as s).2.mdioOe = s.mdioOe by rw [hi.2, h.mdio_driven]]
  exact h.frame s.up s.crc _ _ _ _ s.linkUp s.cnt _ _

/-- Bring-up with a legal configuration (R291). -/
theorem Inv.bring {s : State} (h : Inv s) (c : Cfg) (hc : c.legal = true) (hd : c.dualRx = false) :
    Inv (bringUp c s) := by
  obtain ⟨hl2, hl3, hn, hs, ht, hm⟩ := Cfg.legal_bounds hc
  have hread : ∀ r o, (readByte (bringUp c s) r o).isSome → ∃ k, r = .caller k ∧ (readByte s r o).isSome := by
    intro r o ho
    cases r with
    | caller k => exact ⟨k, rfl, ho⟩
    | slot i =>
      simp only [readByte, regionMem, bringUp, List.getD_eq_getElem?_getD, List.getElem?_replicate] at ho
      split at ho <;> simp [Memory.read] at ho
    | _ => simp [readByte, regionMem, bringUp, Memory.read] at ho
  have hl : ∀ i, slotLength (bringUp c s) i = 0 := by
    intro i
    simp only [slotLength, bringUp, List.getD_eq_getElem?_getD, List.getElem?_replicate]
    split <;> rfl
  have hw := h.mem_wf
  simp only [memoryWf, Bool.and_eq_true] at hw
  refine ⟨hc, hd, ⟨?_, ?_, ?_, ?_⟩, ⟨?_, ?_, ?_, ?_⟩, ⟨?_, ?_, ?_, ?_, ?_, ?_, ?_, ?_⟩, rfl, rfl, ?_, ?_⟩
  · simp only [bringUp]; omega
  · simp [bringUp, holding]
  · simp [bringUp]
  · simp [bringUp, holding]
  · simp [bringUp]
  · simp [bringUp]
  · simp [bringUp]
  · simp [bringUp]
  · simp [bringUp]
  · simp [bringUp]
  · simp [bringUp]
  · intro o ho; simp [bringUp] at ho
  · intro i; rw [hl]; exact Nat.zero_le _
  · intro i o ho; rw [hl] at ho; omega
  · simp [bringUp]
  · simp [bringUp]
  · simp only [memoryWf, bringUp, Bool.and_eq_true]
    refine ⟨⟨⟨⟨rfl, ?_⟩, rfl⟩, rfl⟩, hw.2⟩
    simp only [List.all_replicate]; split <;> rfl
  · intro r o ho
    obtain ⟨k, rfl, hk⟩ := hread r o ho
    obtain ⟨cap, hcap, hlt⟩ := h.mem_bounded _ _ hk
    exact ⟨cap, hcap, hlt⟩

end Sys2Proof.Machine
end

