-- ==== Sys2Proof/Laws/Frame.lean ====
section
/-! SUPPORT. The guards, and what a store leaves alone. -/

namespace Sys2Proof.Machine

theorem asCommand_ready {s : State} (hu : s.up = true) (hp : s.poll = .ready) (k : Outc) : asCommand s k = k := by
  simp [asCommand, whenUp, whenReady, hu, hp]

theorem asCommand_next {s t : State} {k : Outc} (h : asCommand s k = .next t) :
    s.up = true ∧ s.poll = .ready ∧ k = .next t := by
  unfold asCommand whenUp whenReady at h
  split at h
  · next hu =>
    split at h
    · next hp => exact ⟨hu, hp, h⟩
    · cases h
  · cases h

theorem asCommand_fault {s : State} {k : Outc} {f : Fault} (h : asCommand s k = .fault f) :
    s.up = true ∧ s.poll = .ready ∧ k = .fault f := by
  unfold asCommand whenUp whenReady at h
  split at h
  · next hu =>
    split at h
    · next hp => exact ⟨hu, hp, h⟩
    · cases h
  · cases h

theorem whenMdioIdle_next {s t : State} {k : Outc} (h : whenMdioIdle s k = .next t) : s.mdioCell = 64 ∧ k = .next t := by
  unfold whenMdioIdle at h
  split at h
  · next hc => exact ⟨hc, h⟩
  · cases h

theorem asRxEvent_next {s t : State} {k : Outc} (h : asRxEvent s k = .next t) :
    (s.up = false ∧ t = s) ∨ (s.up = true ∧ s.cfg.dualRx = false ∧ k = .next t) := by
  unfold asRxEvent at h
  split at h
  · next hu =>
    split at h
    · cases h
    · next hd => exact .inr ⟨hu, by simpa using hd, h⟩
  · next hu => cases h; exact .inl ⟨by simpa using hu, rfl⟩

theorem registers_writeBytes (s : State) (r : Region) (o : Nat) (bs : List Byte) :
    registers (writeBytes s r o bs) = registers s := by
  cases r <;> rfl

theorem present_of_cap {s : State} {r : Region} {c : Nat} (hm : s.slotMem.length = s.cfg.n) (hc : regionCap s r = some c) :
    present s r := by
  cases r with
  | txbuf => trivial
  | slot i =>
    simp only [regionCap] at hc
    split at hc
    · simpa [present, hm]
    · cases hc
  | dummy => trivial
  | hbuf => cases hb : s.hbuf <;> simp [regionCap, hb] at hc; simp [present, hb]
  | caller k =>
    cases hk : s.callers[k]? with
    | none => simp [regionCap, hk] at hc
    | some b => exact (List.getElem?_eq_some_iff.1 hk).1

theorem sameRegions_writeBytes (s : State) (r : Region) (o : Nat) (bs : List Byte) :
    sameRegions s (writeBytes s r o bs) := fun r' => regionCap_writeBytes s r r' o bs

theorem sameBytesBut_writeBytes (s : State) (h : memoryWf s = true) (r : Region) (hp : present s r) (o : Nat)
    (bs : List Byte) : sameBytesBut s (writeBytes s r o bs) r o bs.length := by
  intro r' a ha
  rw [readByte_writeBytes s h r o bs hp, if_neg ha]

end Sys2Proof.Machine
end

