-- ==== Sys2Proof/Laws/PerInstr.lean ====
section
/-! SUPPORT. One statement about every instruction, proved constructor by constructor: its record begins with its selector,
which 30_encoding.md R102 lists, or with the preamble of a frame (R104). -/

namespace Sys2Proof.Laws

/-- The first byte of the record, and which first bytes there are. -/
def FirstByte.Statement (i : Instr) : Prop :=
  (encode i).head? = some (selector i) ∧
    selector i ∈ [0x01#8, 0x02#8, 0x03#8, 0x04#8, 0x05#8, 0x06#8, 0x07#8, 0x08#8, 0x09#8, 0x0A#8, 0x10#8, 0x11#8, 0x12#8,
      0xFF#8]

theorem FirstByte.crcAppend (buf : Region) (len : Nat) : FirstByte.Statement (.crcAppend buf len) := ⟨rfl, by simp [selector]⟩
theorem FirstByte.crcVerify (buf : Region) (n : Nat) : FirstByte.Statement (.crcVerify buf n) := ⟨rfl, by simp [selector]⟩
theorem FirstByte.mdioRead (a g : U5) : FirstByte.Statement (.mdioRead a g) := ⟨rfl, by simp [selector]⟩
theorem FirstByte.mdioWrite (a g : U5) (v : Half) : FirstByte.Statement (.mdioWrite a g v) := ⟨rfl, by simp [selector]⟩
theorem FirstByte.phyScan : FirstByte.Statement .phyScan := ⟨rfl, by simp [selector]⟩
theorem FirstByte.linkPoll : FirstByte.Statement .linkPoll := ⟨rfl, by simp [selector]⟩
theorem FirstByte.statsReport : FirstByte.Statement .statsReport := ⟨rfl, by simp [selector]⟩
theorem FirstByte.txSend (f : List (List Byte)) (n : Nat) : FirstByte.Statement (.txSend f n) := ⟨rfl, by simp [selector]⟩
theorem FirstByte.rxConsume : FirstByte.Statement .rxConsume := ⟨rfl, by simp [selector]⟩
theorem FirstByte.init (c : Cfg) : FirstByte.Statement (.init c) := ⟨rfl, by simp [selector]⟩
theorem FirstByte.rxByte (b : Byte) : FirstByte.Statement (.rxByte b) := ⟨rfl, by simp [selector]⟩
theorem FirstByte.rxBoundary : FirstByte.Statement .rxBoundary := ⟨rfl, by simp [selector]⟩
theorem FirstByte.txDmaByte : FirstByte.Statement .txDmaByte := ⟨rfl, by simp [selector]⟩
theorem FirstByte.mdioReadFrame (a g : U5) : FirstByte.Statement (.mdioReadFrame a g) := ⟨rfl, by simp [selector]⟩
theorem FirstByte.mdioWriteFrame (a g : U5) (v : Half) : FirstByte.Statement (.mdioWriteFrame a g v) :=
  ⟨rfl, by simp [selector]⟩

end Sys2Proof.Laws
end

