-- ==== Sys2Proof/Laws/Tx.lean ====
section
/-! SUPPORT. TX.SEND: the frame it builds, when it completes, and what it leaves in memory. -/

namespace Sys2Proof.Machine

/-- The gather loop takes the first bytes of the chain (43_tx_framer.md R203). -/
theorem gather_eq (fs : List (List Byte)) (n : Nat) : gather fs n = fs.flatten.take n := by
  induction fs generalizing n with
  | nil => simp [gather]
  | cons f fs ih =>
    simp only [gather, List.flatten_cons, List.take_append, ih]
    congr 2
    omega

/-- Gather and padding together (43_tx_framer.md R203, R204). -/
theorem padFrame_gather (fs : List (List Byte)) (n : Nat) (h : n ≤ fragmentsLength fs) : padFrame (gather fs n) = transmitFrame fs n := by
  unfold padFrame transmitFrame Config.txMin
  rw [gather_eq]
  have : (fs.flatten.take n).length = n := by simp [fragmentsLength] at h ⊢; exact h
  rw [this]

theorem transmitFrame_length (fs : List (List Byte)) (n : Nat) (h : n ≤ fragmentsLength fs) : (transmitFrame fs n).length = max n 60 := by
  unfold transmitFrame
  have : (fs.flatten.take n).length = n := by simp [fragmentsLength] at h ⊢; exact h
  rw [List.length_append, this]; simp; omega

/-- TX.SEND from the end of its wait on. -/
theorem sendFrame_eq (s : State) (fs : List (List Byte)) (n : Nat) (hw : memoryWf s = true)
    (h1 : max n 60 + 4 ≤ s.cfg.txCap) (h2 : n ≤ fragmentsLength fs) :
    sendFrame fs n s = .next (armTransmit (max n 60) (writeBytes { writeBytes s .txbuf 0 (transmitFrame fs n) with crc := crcAcc (transmitFrame fs n) }
      .txbuf (max n 60) (fcsBytes (fcs (transmitFrame fs n))))) := by
  have hl := transmitFrame_length fs n h2
  unfold sendFrame
  rw [padFrame_gather fs n h2]
  have hr := readBytes_writeBytes s hw .txbuf 0 (transmitFrame fs n) trivial
  dsimp only
  rw [crcAppend_eq (c := s.cfg.txCap) rfl (by omega) hr, hl]
  rfl

theorem memoryWf_framed (s : State) (hw : memoryWf s = true) (m : List Byte) : memoryWf { writeBytes s .txbuf 0 m with crc := crcAcc m } = true :=
  memoryWf_writeBytes s hw .txbuf 0 m

/-- What TX.SEND leaves in memory. -/
theorem readByte_sent (s : State) (hw : memoryWf s = true) (m : List Byte) (r : Region) (a : Nat) :
    readByte (writeBytes { writeBytes s .txbuf 0 m with crc := crcAcc m } .txbuf m.length (fcsBytes (fcs m))) r a =
      if r = .txbuf ∧ a < m.length + 4 then (m ++ fcsBytes (fcs m))[a]? else readByte s r a := by
  rw [readByte_writeBytes _ (memoryWf_framed s hw m) .txbuf _ _ trivial]
  have e : readByte { writeBytes s .txbuf 0 m with crc := crcAcc m } r a = readByte (writeBytes s .txbuf 0 m) r a := by cases r <;> rfl
  rw [e, readByte_writeBytes _ hw .txbuf _ _ trivial, fcsBytes_length]
  by_cases hr : r = .txbuf
  · subst hr
    by_cases h1 : a < m.length
    · simp [h1, show ¬ m.length ≤ a by omega, show a < m.length + 4 by omega]
    · by_cases h2 : a < m.length + 4
      · simp [show m.length ≤ a by omega, h2]
      · simp [h1, h2]
  · simp [hr]

/-- If TX.SEND's last steps complete, this is the state they leave. -/
theorem sendFrame_next {s t : State} {fs : List (List Byte)} {n : Nat} (hw : memoryWf s = true) (e : sendFrame fs n s = .next t) :
    ∃ m, m = padFrame (gather fs n) ∧ m.length + 4 ≤ s.cfg.txCap ∧
      t = armTransmit m.length (writeBytes { writeBytes s .txbuf 0 m with crc := crcAcc m } .txbuf m.length (fcsBytes (fcs m))) := by
  refine ⟨padFrame (gather fs n), rfl, ?_⟩
  unfold sendFrame at e
  dsimp only at e
  generalize padFrame (gather fs n) = m at *
  cases hx : crcAppend .txbuf m.length (writeBytes s .txbuf 0 m) with
  | fault f => rw [hx] at e; cases e
  | refused f => rw [hx] at e; cases e
  | next u =>
    rw [hx] at e
    simp only [Outc.andThen] at e
    cases e
    obtain ⟨c, bs, hc, hl, hb, rfl⟩ := crcAppend_next hx
    cases hc
    have hr' := readBytes_writeBytes s hw .txbuf 0 m trivial
    rw [hr'] at hb; cases hb
    exact ⟨hl, rfl⟩

theorem whenFits_next {s t : State} {fs : List (List Byte)} {n : Nat} {k : Outc} (h : whenSubmissionFits fs n s k = .next t) :
    submissionFits s n = true ∧ n ≤ fragmentsLength fs ∧ k = .next t := by
  unfold whenSubmissionFits at h
  split at h
  · next h1 =>
    split at h
    · next h2 => exact ⟨h1, h2, h⟩
    · cases h
  · cases h

end Sys2Proof.Machine
end

