-- ==== Sys2Proof/Laws/Step.lean ====
section
/-! SUPPORT. The ways a step can go, and the invariant through the larger operations. -/

namespace Sys2Proof.Machine

/-! ### Scheduling -/

theorem takeAdmitted_mem {p : Poll} {rs rest : List (List Byte)} {r : List Byte} (h : takeAdmitted p rs = some (r, rest)) : r ∈ rs ∧ admits p r = true ∧ ∀ x ∈ rest, x ∈ rs := by
  induction rs generalizing rest with
  | nil => cases h
  | cons x rs ih =>
    simp only [takeAdmitted] at h
    split at h
    · next ha => cases h; exact ⟨by simp, ha, fun y hy => by simp [hy]⟩
    · cases hx : takeAdmitted p rs with
      | none => simp [hx] at h
      | some y =>
        obtain ⟨y1, y2⟩ := y
        simp [hx] at h
        obtain ⟨rfl, rfl⟩ := h
        obtain ⟨h1, h2, h3⟩ := ih hx
        refine ⟨by simp [h1], h2, ?_⟩
        intro z hz
        rcases List.mem_cons.1 hz with rfl | hz
        · simp
        · simp [h3 z hz]

theorem interruptWaits_requests {s : State} {e : Env} (h : interruptWaits s e) : e.requests = s.env.requests := by
  rcases h with ⟨-, rfl⟩ | ⟨-, -, rfl⟩ <;> rfl

theorem pollMoves_requests {s : State} {e : Env} (h : pollMoves s e) : e.requests = s.env.requests := by
  obtain ⟨e₀, h₀, h⟩ := h
  have h₀ := interruptWaits_requests h₀
  rcases h with ⟨-, h⟩ | ⟨-, -, -, h⟩ <;> rw [h]
  · exact h₀
  · exact h₀

/-- A step in which IRQ does not move. -/
theorem step_waits {s : State} {e : Env} (h : interruptWaits s e) : step s = stepOther (withEnv e s) := by
  unfold step stepAgents
  rcases h with ⟨hi, rfl⟩ | ⟨hi, ht, rfl⟩
  · simp [hi, withEnv]
  · simp [hi, ht]

/-- Nothing can run where POLL stands: POLL goes on. -/
theorem stepOther_none {s : State} (h : takeAdmitted s.poll s.env.requests = none) : stepOther s = resumePoll s := by
  simp only [stepOther, h]

/-- A step in which POLL goes on by itself. -/
theorem step_pollMoves {s : State} {e : Env} (h : pollMoves s e) : step s = resumePoll (withEnv e s) := by
  obtain ⟨e₀, h₀, h⟩ := h
  have hr := interruptWaits_requests h₀
  rw [step_waits h₀]
  rcases h with ⟨hn, he⟩ | ⟨hn, hp, ht, he⟩ <;> subst he
  · exact stepOther_none (show takeAdmitted s.poll e.requests = none by rw [hr]; exact hn)
  · unfold stepOther
    rw [show takeAdmitted (withEnv e₀ s).poll (withEnv e₀ s).env.requests = takeAdmitted s.poll s.env.requests by
      rw [← hr]; rfl]
    cases hx : takeAdmitted s.poll s.env.requests with
    | none => exact absurd hx hn
    | some y => simp [withEnv, hp, ht]

/-- A step in which the first admitted record runs. -/
theorem stepOther_runs {s : State} {r : List Byte} {rest : List (List Byte)}
    (h : takeAdmitted s.poll s.env.requests = some (r, rest)) : stepOther s =
      if s.poll = .ready then runRecord r (withRequests rest s)
      else if s.env.drawTurn.1 then runRecord r (withRequests rest (withEnv s.env.drawTurn.2 s))
      else resumePoll (withEnv s.env.drawTurn.2 s) := by
  simp only [stepOther, h]

/-- Every way a step can go: IRQ, POLL by itself, or the first admitted record. -/
theorem step_cases (s : State) :
    (irqPending s = true ∧ s.env.drawTurn.1 = true ∧ step s = .next (takeBoundaryInterrupt (withEnv s.env.drawTurn.2 s))) ∨
    (∃ e, pollMoves s e ∧ step s = resumePoll (withEnv e s)) ∨
    (∃ e r rest, takeAdmitted s.poll s.env.requests = some (r, rest) ∧ e.requests = rest ∧
      step s = runRecord r (withEnv e s)) := by
  have other : ∀ e, interruptWaits s e → (∃ e, pollMoves s e ∧ step s = resumePoll (withEnv e s)) ∨
      (∃ e r rest, takeAdmitted s.poll s.env.requests = some (r, rest) ∧ e.requests = rest ∧
        step s = runRecord r (withEnv e s)) := by
    intro e he
    cases hx : takeAdmitted s.poll s.env.requests with
    | none =>
      have h : pollMoves s e := ⟨e, he, .inl ⟨hx, rfl⟩⟩
      exact .inl ⟨e, h, step_pollMoves h⟩
    | some y =>
      obtain ⟨r, rest⟩ := y
      by_cases hm : s.poll ≠ .ready ∧ e.drawTurn.1 = false
      · have h : pollMoves s e.drawTurn.2 := ⟨e, he, .inr ⟨by simp [hx], hm.1, hm.2, rfl⟩⟩
        exact .inl ⟨_, h, step_pollMoves h⟩
      · have hx' : takeAdmitted (withEnv e s).poll (withEnv e s).env.requests = some (r, rest) := by
          rw [← hx, ← interruptWaits_requests he]; rfl
        rw [step_waits he, stepOther_runs hx']
        by_cases hp : s.poll = .ready
        · exact .inr ⟨{ e with requests := rest }, r, rest, rfl, rfl, by rw [if_pos (show (withEnv e s).poll = .ready from hp)]; rfl⟩
        · have ht : e.drawTurn.1 = true := by
            cases h : e.drawTurn.1
            · exact absurd ⟨hp, h⟩ hm
            · rfl
          exact .inr ⟨{ e.drawTurn.2 with requests := rest }, r, rest, rfl, rfl, by
            rw [if_neg (show ¬ (withEnv e s).poll = .ready from hp), if_pos (show (withEnv e s).env.drawTurn.1 = true from ht)]
            rfl⟩
  by_cases hi : irqPending s = true
  · cases ht : s.env.drawTurn.1 with
    | true => exact .inl ⟨hi, rfl, by unfold step stepAgents; rw [if_pos hi, if_pos ht]⟩
    | false => exact .inr (other _ (.inr ⟨hi, ht, rfl⟩))
  · exact .inr (other _ (.inl ⟨by simpa using hi, rfl⟩))

/-- From the end of INIT on POLL goes on with its loop when it is between operations. -/
theorem resumePoll_loop {s : State} (hu : s.up = true) (hp : s.poll = .ready) : resumePoll s = pollLoop s := by
  simp only [resumePoll, hp, hu, if_true]

/-- The poll loop's next operation, and what it leaves of the state before it (30_encoding.md R117). -/
theorem pollLoop_cases (s : State) : ∃ i l e, (i = .linkPoll ∨ i = .statsReport ∨ i = .rxConsume) ∧
    e.requests = s.env.requests ∧ pollLoop s = exec i { withEnv e s with loop := l } := by
  unfold pollLoop
  split
  · next h =>
    dsimp only
    split
    · exact ⟨.linkPoll, .report, s.env.drawInterval.2, .inl rfl, rfl, rfl⟩
    · exact ⟨.rxConsume, s.loop, s.env.drawInterval.2, .inr (.inr rfl), rfl, rfl⟩
  · exact ⟨.statsReport, .consume, s.env, .inr (.inl rfl), rfl, rfl⟩
  · exact ⟨.rxConsume, .service, s.env, .inr (.inr rfl), rfl, rfl⟩

/-! ### The invariant -/

theorem Inv.crcAppend {s t : State} {r : Region} {n : Nat} (h : Inv s) (e : Machine.crcAppend r n s = .next t) : Inv t := by
  obtain ⟨c, bs, hc, hl, hb, rfl⟩ := crcAppend_next e
  have h' : Inv { s with crc := crcAcc bs } := h.frame s.up _ s.mdc s.mdioOut s.mdioSr s.phyAddr s.linkUp s.cnt s.trace s.env
  exact h'.write (r := r) (c := c) (by cases r <;> exact hc) _ _ hl

theorem Inv.appendOrWait {s t : State} {r : Region} {n : Nat} (h : Inv s) (hp : s.poll ≠ .claimed)
    (e : Machine.appendOrWait r n s = .next t) : Inv t := by
  rcases appendOrWait_next e with ⟨-, e⟩ | ⟨-, rfl⟩
  · exact h.crcAppend e
  · exact h.setPoll hp _ (by simp)

theorem Inv.resumeAppend {s t : State} {r : Region} {n : Nat} (h : Inv s) (hp : s.poll ≠ .claimed)
    (e : Machine.resumeAppend r n s = .next t) : Inv t := by
  rcases resumeAppend_next e with ⟨-, rfl⟩ | ⟨-, e⟩
  · exact h
  · exact (h.setPoll hp .ready (by simp)).crcAppend e

theorem Inv.sendFrame {s t : State} {fs : List (List Byte)} {n : Nat} (h : Inv s) (e : Machine.sendFrame fs n s = .next t) : Inv t := by
  obtain ⟨m, -, hl, rfl⟩ := sendFrame_next h.mem_wf e
  have hA := h.write (r := .txbuf) (c := s.cfg.txCap) rfl 0 m (by omega)
  have hB : Inv { writeBytes s .txbuf 0 m with crc := crcAcc m } :=
    hA.frame _ _ _ _ _ _ _ _ _ _
  have hC := hB.write (r := .txbuf) (c := s.cfg.txCap) (by simp [regionCap]) m.length (fcsBytes (fcs m)) (by simpa using hl)
  apply hC.arm
  · simpa using hl
  · intro o ho
    have := readByte_sent s h.mem_wf m .txbuf o
    rw [if_pos ⟨rfl, ho⟩] at this
    rw [this, List.getElem?_eq_getElem (by simp; omega)]; rfl

theorem Inv.sendOrWait {s t : State} {fs : List (List Byte)} {n : Nat} {w : Option Nat} (h : Inv s) (hp : s.poll ≠ .claimed)
    (e : Machine.sendOrWait fs n w s = .next t) : Inv t := by
  unfold Machine.sendOrWait at e
  split at e
  · cases e; exact h.setPoll hp _ (by simp)
  · next hb => exact Inv.sendFrame h e

theorem Inv.consumed {s : State} (h : Inv s) (o : ConsumeOutcome) (hp : s.poll ≠ .claimed) : Inv (Machine.consumed o s) :=
  (h.setPoll hp .ready (by simp)).emit _

/-- after a claimed slot is given up -/
theorem Inv.givenUp {s : State} (h : Inv s) (hp : s.poll = .claimed) (o : ConsumeOutcome) : Inv (Machine.consumed o (advanceRear s)) :=
  (h.release hp .ready (by simp)).emit _

theorem Inv.hostInput {s : State} (n : Nat) (h : Inv s) (hp : s.poll ≠ .claimed) : Inv (Machine.hostInput n s) := by
  unfold Machine.hostInput
  have hE := h.withEnv s.env.drawInput.2
  have hB := hE.setHbuf none (by simp)
  dsimp only
  split
  · exact Inv.consumed hB _ hp
  · apply Inv.consumed
    · exact (hB.emit .free).count _
    · rw [count_eq]; exact hp
  · exact hE.setPoll hp _ (by simp)

theorem hostInput_poll (n : Nat) (s : State) (p : Poll) : Machine.hostInput n { s with poll := p } = Machine.hostInput n s := by
  unfold Machine.hostInput
  dsimp only [Machine.withEnv]
  split
  · rfl
  · simp only [count_eq]; rfl
  · rfl

theorem Inv.deliver {s : State} (h : Inv s) (hp : s.poll = .claimed) (bs : List Byte) : Inv (Machine.deliver bs s) := by
  unfold Machine.deliver
  rw [← hostInput_poll _ _ .ready]
  apply Inv.hostInput
  · have hA := h.setHbuf (some ⟨bs.length, []⟩) (by rintro x hx; cases hx; rfl)
    have hB := hA.write (r := .hbuf) (c := bs.length) rfl 0 bs (by simp)
    have hC := hB.release (by simpa using hp) .ready (by simp)
    exact hC.emit _
  · simp

theorem Inv.allocate {s t : State} {n : Nat} (h : Inv s) (hp : s.poll = .claimed) (e : Machine.allocate n s = .next t) : Inv t := by
  unfold Machine.allocate at e
  dsimp only at e
  have h1 : Inv (Machine.emit (.alloc n) (Machine.withEnv s.env.drawAlloc.2 s)) := (h.withEnv _).emit _
  split at e
  · split at e
    · cases e
    · cases e; exact Inv.deliver h1 hp _
  · cases e
    apply Inv.givenUp (h1.count _)
    rw [count_eq]; exact hp

theorem Inv.consumeClaimed {s t : State} (h : Inv s) (hp : s.poll = .claimed) (e : Machine.consumeClaimed s = .next t) : Inv t := by
  unfold Machine.consumeClaimed at e
  dsimp only at e
  obtain ⟨c, hc, ⟨h4, e⟩ | ⟨h4, hn, bs, hb, e⟩⟩ := crcVerify_next e
  · simp at e; subst e
    apply Inv.givenUp (h.count _)
    rw [count_eq]; exact hp
  · have h' : ∀ x, Inv { s with crc := x } := fun x => h.frame s.up x s.mdc s.mdioOut s.mdioSr s.phyAddr s.linkUp s.cnt s.trace s.env
    split at e
    · exact Inv.allocate (h' (crcAcc (bs.take (slotLength s s.rear - 4)))) hp e
    · cases e
      apply Inv.givenUp ((h' _).count _)
      rw [count_eq]; exact hp

theorem Inv.acquireOrWait {s t : State} (h : Inv s) (hp : s.poll ≠ .claimed) (e : Machine.acquireOrWait s = .next t) : Inv t := by
  unfold Machine.acquireOrWait at e
  split at e
  · cases e
    split
    · exact Inv.consumed (h.withEnv _) _ hp
    · exact (h.setPoll hp .semWait (by simp)).withEnv _
  · next hs =>
    unfold afterAcquire at e
    have hA := (h.acquire hp hs).withEnv (semAcquire s).env.drawTurn.2
    dsimp only at e
    split at e
    · cases e; exact hA
    · exact Inv.consumeClaimed hA rfl e

theorem Inv.interruptOrLatency {s : State} (h : Inv s) : Inv (Machine.interruptOrLatency s) := by
  unfold Machine.interruptOrLatency
  dsimp only
  split
  · exact (h.withEnv _).boundary
  · exact h.withEnv _

end Sys2Proof.Machine
end

