-- ==== Sys2Proof/Laws/Writers.lean ====
section
/-! SUPPORT. Which fields each operation may change when it gives a next state, one lemma per operation (10_state.md R20,
the writer column). -/

namespace Sys2Proof.Machine

theorem linkEvents_append (a b : List Event) : linkEvents (a ++ b) = linkEvents a ++ linkEvents b := by
  induction a with
  | nil => rfl
  | cons e a ih => cases e <;> simp [linkEvents, ih]

theorem linkEvents_cells (k : Nat) (ls : List CellLevel) : linkEvents (cellEvents k ls) = [] := by
  induction ls generalizing k with
  | nil => rfl
  | cons l ls ih => simp [cellEvents, linkEvents, ih]

/-- The counters the consumer counts in (10_state.md R37) aside, a change to the counters changes none. -/
def consumerCounts (c d : Counters) : Prop :=
  d = { c with rxBadCrc := d.rxBadCrc, rxAllocFail := d.rxAllocFail, rxDeliverFail := d.rxDeliverFail }

theorem counted_of (s : State) (f : Counters → Counters) {P : Counters → Prop} (h0 : P s.cnt) (hf : P (f s.cnt)) :
    P (counted f s) := by
  unfold counted; split
  · exact hf
  · exact h0

/-! ### The consumer -/

/-- What the parts of RX.CONSUME may change. -/
structure ConsumerFrame (s t : State) : Prop where
  fields : t = { s with sem := t.sem, rear := t.rear, crc := t.crc, cnt := t.cnt, hbuf := t.hbuf, poll := t.poll,
                        trace := t.trace, env := t.env }
  links : linkEvents t.trace = linkEvents s.trace
  counts : consumerCounts s.cnt t.cnt
  sem_le : t.sem ≤ s.sem
  sem_ge : s.sem - 1 ≤ t.sem
  requests : t.env.requests = s.env.requests

theorem ConsumerFrame.trans {s t u : State} (h : ConsumerFrame s t) (g : ConsumerFrame t u) (hs : t.sem = s.sem) :
    ConsumerFrame s u where
  fields := by
    have h1 := h.fields; have h2 := g.fields
    rw [h1] at h2
    exact h2
  links := g.links.trans h.links
  counts := by
    have h1 := h.counts; have h2 := g.counts
    unfold consumerCounts at *
    rw [h1] at h2
    exact h2
  sem_le := by rw [← hs]; exact g.sem_le
  sem_ge := by rw [← hs]; exact g.sem_ge
  requests := g.requests.trans h.requests

theorem hostInput_frame (n : Nat) (s : State) : ConsumerFrame s (hostInput n s) ∧ (hostInput n s).sem = s.sem := by
  unfold hostInput
  dsimp only
  split
  · refine ⟨⟨rfl, ?_, rfl, Nat.le_refl _, Nat.sub_le _ _, rfl⟩, rfl⟩
    simp [consumed, returns, emit, withEnv, linkEvents_append, linkEvents]
  · simp only [count_eq]
    refine ⟨⟨rfl, ?_, ?_, Nat.le_refl _, Nat.sub_le _ _, rfl⟩, rfl⟩
    · simp [consumed, returns, emit, withEnv, linkEvents_append, linkEvents]
    · exact counted_of _ _ rfl rfl
  · exact ⟨⟨rfl, rfl, rfl, Nat.le_refl _, Nat.sub_le _ _, rfl⟩, rfl⟩

theorem givenUp_frame (s : State) (o : ConsumeOutcome) (f : Counters → Counters) (hf : ∀ c, consumerCounts c (f c)) :
    ConsumerFrame s (consumed o (advanceRear (count f s))) := by
  simp only [count_eq]
  refine ⟨rfl, ?_, counted_of s f rfl (hf _), Nat.le_refl _, Nat.sub_le _ _, rfl⟩
  simp [consumed, returns, emit, advanceRear, linkEvents_append, linkEvents]

theorem deliver_frame (bs : List Byte) (s : State) : ConsumerFrame s (deliver bs s) ∧ (deliver bs s).sem = s.sem := by
  unfold deliver
  obtain ⟨h, hs⟩ := hostInput_frame bs.length
    (emit (.input bs) (advanceRear (writeBytes { s with hbuf := some ⟨bs.length, []⟩ } .hbuf 0 bs)))
  have h0 : ConsumerFrame s
      (emit (.input bs) (advanceRear (writeBytes { s with hbuf := some ⟨bs.length, []⟩ } .hbuf 0 bs))) := by
    refine ⟨rfl, ?_, rfl, Nat.le_refl _, Nat.sub_le _ _, rfl⟩
    simp [emit, linkEvents_append, linkEvents]
  exact ⟨h0.trans h rfl, hs⟩

theorem allocate_frame {n : Nat} {s t : State} (e : allocate n s = .next t) : ConsumerFrame s t ∧ t.sem = s.sem := by
  unfold allocate at e
  dsimp only at e
  have h0 : ConsumerFrame s (emit (.alloc n) (withEnv s.env.drawAlloc.2 s)) := by
    refine ⟨rfl, ?_, rfl, Nat.le_refl _, Nat.sub_le _ _, rfl⟩
    simp [emit, withEnv, linkEvents_append, linkEvents]
  split at e
  · split at e
    · cases e
    · next bs _ =>
      cases e
      have := deliver_frame bs (emit (.alloc n) (withEnv s.env.drawAlloc.2 s))
      exact ⟨h0.trans this.1 rfl, this.2⟩
  · cases e
    refine ⟨h0.trans (givenUp_frame _ _ _ fun c => rfl) rfl, ?_⟩
    simp only [count_eq]; rfl

theorem crc_frame (s : State) (x : Word) : ConsumerFrame s { s with crc := x } :=
  ⟨rfl, rfl, rfl, Nat.le_refl _, Nat.sub_le _ _, rfl⟩

theorem consumeClaimed_frame {s t : State} (e : consumeClaimed s = .next t) : ConsumerFrame s t ∧ t.sem = s.sem := by
  unfold consumeClaimed at e
  dsimp only at e
  obtain ⟨c, hc, ⟨h4, e⟩ | ⟨h4, hn, bs, hb, e⟩⟩ := crcVerify_next e
  · simp at e; subst e
    exact ⟨givenUp_frame _ _ _ fun c => rfl, by simp only [count_eq]; rfl⟩
  · split at e
    · have := allocate_frame e
      exact ⟨(crc_frame s _).trans this.1 rfl, this.2⟩
    · cases e
      exact ⟨(crc_frame s _).trans (givenUp_frame _ _ _ fun c => rfl) rfl, by simp only [count_eq]; rfl⟩

theorem acquireOrWait_frame {s t : State} (e : acquireOrWait s = .next t) : ConsumerFrame s t := by
  unfold acquireOrWait at e
  split at e
  · cases e
    split
    · refine ⟨rfl, ?_, rfl, Nat.le_refl _, Nat.sub_le _ _, rfl⟩
      simp [consumed, returns, emit, withEnv, linkEvents_append, linkEvents]
    · exact ⟨rfl, rfl, rfl, Nat.le_refl _, Nat.sub_le _ _, rfl⟩
  · next hs =>
    unfold afterAcquire at e
    dsimp only at e
    have h0 : ConsumerFrame s (withEnv (semAcquire s).env.drawTurn.2 { semAcquire s with poll := .claimed }) :=
      ⟨rfl, rfl, rfl, Nat.sub_le _ _, Nat.le_refl _, rfl⟩
    split at e
    · cases e; exact h0
    · obtain ⟨h1, h2⟩ := consumeClaimed_frame e
      have hx : t.sem = s.sem - 1 := h2
      refine ⟨?_, h1.links, h1.counts, by omega, by omega, h1.requests⟩
      have a1 := h0.fields; have a2 := h1.fields
      rw [a1] at a2
      exact a2

/-! ### TX.SEND -/

/-- What TX.SEND may change; while the transmit DMA owns TXBUF, only where POLL stands. -/
structure SendFrame (s t : State) : Prop where
  fields : t = { s with txbuf := t.txbuf, crc := t.crc, txLen := t.txLen, txRd := t.txRd, txBusy := t.txBusy,
                        cnt := t.cnt, poll := t.poll, trace := t.trace }
  links : linkEvents t.trace = linkEvents s.trace
  counts : t.cnt = { s.cnt with txOk := t.cnt.txOk }
  idle : s.txBusy = false ∨ t = { s with poll := t.poll }

theorem sendFrame_frame {fs : List (List Byte)} {n : Nat} {s t : State} (hb : s.txBusy = false)
    (e : sendFrame fs n s = .next t) : SendFrame s t := by
  unfold sendFrame at e
  dsimp only at e
  generalize padFrame (gather fs n) = m at e
  cases hx : crcAppend .txbuf m.length (writeBytes s .txbuf 0 m) with
  | fault f => rw [hx] at e; cases e
  | refused f => rw [hx] at e; cases e
  | next u =>
    rw [hx] at e
    simp only [Outc.andThen] at e
    cases e
    obtain ⟨c, bs, -, -, -, rfl⟩ := crcAppend_next hx
    refine ⟨?_, ?_, ?_, .inl hb⟩ <;> simp only [armTransmit, count_eq]
    · rfl
    · simp [returns, emit, linkEvents_append, linkEvents]
    · exact counted_of (P := fun d => d = { s.cnt with txOk := d.txOk }) _ _ rfl rfl

theorem sendOrWait_frame {fs : List (List Byte)} {n : Nat} {w : Option Nat} {s t : State}
    (e : sendOrWait fs n w s = .next t) : SendFrame s t := by
  unfold sendOrWait at e
  split at e
  · cases e; exact ⟨rfl, rfl, rfl, .inr rfl⟩
  · next hb => exact sendFrame_frame (by simpa using hb) e

theorem resumeSend_frame {fs : List (List Byte)} {n : Nat} {w : Option Nat} {s t : State}
    (e : resumeSend fs n w s = .next t) : SendFrame s t := by
  unfold resumeSend at e
  split at e
  · cases e; exact ⟨rfl, rfl, rfl, .inr rfl⟩
  · next hb =>
    have h := sendFrame_frame (by simpa using hb) e
    refine ⟨h.fields, h.links, h.counts, ?_⟩
    rcases h.idle with h | h
    · exact .inl h
    · exact .inr h

theorem execTxSend_frame {fs : List (List Byte)} {n : Nat} {s t : State} (e : execTxSend fs n s = .next t) :
    SendFrame s t := by
  unfold execTxSend whenUp at e
  split at e
  · split at e
    · obtain ⟨-, -, e⟩ := whenFits_next e; exact sendOrWait_frame e
    · obtain ⟨-, -, e⟩ := whenFits_next e; exact sendOrWait_frame e
    all_goals cases e
  · cases e

/-! ### The other operations -/

theorem mdioReadTransaction_links (a g : U5) (s : State) :
    linkEvents (mdioReadTransaction a g s).trace = linkEvents s.trace := by
  have h := congrArg State.trace (mdioReadTransaction_closed a g s)
  rw [h]
  show linkEvents (s.trace ++ cellEvents 0 (readCells a g s.env)) = _
  rw [linkEvents_append, linkEvents_cells, List.append_nil]

theorem scanFrom_cons (a : U5) (as : List U5) (s u : State) (h : mdioReadTransaction a 0 s = u) :
    scanFrom (a :: as) s = if phyPresent u.mdioSr then (some a, { u with phyAddr := a }) else scanFrom as u := by
  subst h; rfl

/-- A scan notifies nothing. -/
theorem scanFrom_links (as : List U5) (s : State) : linkEvents (scanFrom as s).2.trace = linkEvents s.trace := by
  induction as generalizing s with
  | nil => rfl
  | cons a as ih =>
    obtain ⟨u, hu⟩ : ∃ u, mdioReadTransaction a 0 s = u := ⟨_, rfl⟩
    have h := mdioReadTransaction_links a 0 s
    rw [hu] at h
    rw [scanFrom_cons a as s u hu]
    cases phyPresent u.mdioSr
    · exact (ih u).trans h
    · exact h

/-- The operations of the MDIO master. -/
structure MdioFrame (s t : State) : Prop where
  fields : t = { s with mdc := t.mdc, mdioOut := t.mdioOut, mdioOe := t.mdioOe, mdioSr := t.mdioSr, mdioCell := t.mdioCell,
                        phyAddr := t.phyAddr, linkUp := t.linkUp, trace := t.trace, env := t.env }

theorem execMdioRead_frame {a g : U5} {s t : State} (e : execMdioRead a g s = .next t) :
    MdioFrame s t ∧ t.phyAddr = s.phyAddr ∧ t.linkUp = s.linkUp ∧ linkEvents t.trace = linkEvents s.trace := by
  obtain ⟨-, -, e⟩ := asCommand_next e
  obtain ⟨-, e⟩ := whenMdioIdle_next e
  rw [mdioReadTransaction_closed] at e
  cases e
  exact ⟨⟨rfl⟩, rfl, rfl, by simp [returns, emit, linkEvents_append, linkEvents_cells, linkEvents]⟩

theorem execMdioReadFrame_frame {a g : U5} {s t : State} (e : execMdioReadFrame a g s = .next t) :
    MdioFrame s t ∧ t.phyAddr = s.phyAddr ∧ t.linkUp = s.linkUp ∧ linkEvents t.trace = linkEvents s.trace := by
  obtain ⟨-, -, e⟩ := asCommand_next e
  obtain ⟨-, e⟩ := whenMdioIdle_next e
  rw [mdioReadTransaction_closed] at e
  cases e
  exact ⟨⟨rfl⟩, rfl, rfl, by simp [linkEvents_append, linkEvents_cells]⟩

theorem execMdioWrite_frame {a g : U5} {v : Half} {s t : State} (e : execMdioWrite a g v s = .next t) :
    MdioFrame s t ∧ t.mdioSr = s.mdioSr ∧ t.phyAddr = s.phyAddr ∧ t.linkUp = s.linkUp ∧ linkEvents t.trace = linkEvents s.trace := by
  obtain ⟨-, -, e⟩ := asCommand_next e
  obtain ⟨-, e⟩ := whenMdioIdle_next e
  rw [mdioWriteTransaction_eq] at e
  cases e
  exact ⟨⟨rfl⟩, rfl, rfl, rfl, by simp [linkEvents_append, linkEvents_cells]⟩

theorem execMdioWriteFrame_frame {a g : U5} {v : Half} {s t : State} (e : execMdioWriteFrame a g v s = .next t) :
    MdioFrame s t ∧ t.mdioSr = s.mdioSr ∧ t.phyAddr = s.phyAddr ∧ t.linkUp = s.linkUp ∧ linkEvents t.trace = linkEvents s.trace := by
  obtain ⟨-, -, e⟩ := asCommand_next e
  obtain ⟨-, e⟩ := whenMdioIdle_next e
  rw [mdioWriteTransaction_eq] at e
  cases e
  exact ⟨⟨rfl⟩, rfl, rfl, rfl, by simp [linkEvents_append, linkEvents_cells]⟩

theorem execPhyScan_frame {s t : State} (e : execPhyScan s = .next t) :
    MdioFrame s t ∧ t.linkUp = s.linkUp ∧ linkEvents t.trace = linkEvents s.trace := by
  obtain ⟨-, -, e⟩ := asCommand_next e
  obtain ⟨-, e⟩ := whenMdioIdle_next e
  have e := Host.Outcome.next.inj e
  subst e
  have h := scanFrom_eq scanAddresses s
  have hl : ((phyScan s).2).linkUp = s.linkUp := by unfold phyScan; rw [h]
  exact ⟨⟨by unfold phyScan; rw [h]⟩, hl, scanFrom_links scanAddresses s⟩

theorem execLinkPoll_frame {s t : State} (e : execLinkPoll s = .next t) :
    MdioFrame s t ∧ t.phyAddr = s.phyAddr ∧ t.linkUp = (readAnswer s.env).getLsbD 2 ∧
      linkEvents t.trace = linkEvents s.trace ++
        (if (readAnswer s.env).getLsbD 2 = s.linkUp then [] else [(readAnswer s.env).getLsbD 2]) := by
  obtain ⟨-, -, e⟩ := asCommand_next e
  obtain ⟨-, e⟩ := whenMdioIdle_next e
  rw [mdioReadTransaction_closed] at e
  have e := Host.Outcome.next.inj e
  subst e
  unfold linkUpdate linkBit
  dsimp only
  split
  · next h => exact ⟨⟨rfl⟩, rfl, h.symm, by simp [linkEvents_append, linkEvents_cells]⟩
  · next h =>
    refine ⟨⟨rfl⟩, rfl, rfl, ?_⟩
    cases (readAnswer s.env).getLsbD 2 <;> simp [emit, linkEvents_append, linkEvents_cells, linkEvents]

theorem execCrcVerify_frame {r : Region} {n : Nat} {s t : State} (e : execCrcVerify r n s = .next t) :
    t = { s with crc := t.crc, trace := t.trace } ∧ linkEvents t.trace = linkEvents s.trace := by
  obtain ⟨-, -, e⟩ := asCommand_next e
  obtain ⟨c, hc, ⟨-, e⟩ | ⟨-, -, bs, -, e⟩⟩ := crcVerify_next e <;> cases e <;>
    exact ⟨rfl, by simp [returns, emit, linkEvents_append, linkEvents]⟩

/-- What a part of CRC.APPEND may change: where POLL stands and, while no DMA agent is at work on the region, the region and
`S.crc`. -/
def AppendFrame (r : Region) (s t : State) : Prop :=
  t = { s with poll := t.poll } ∨
    (dmaOwns s r = false ∧ ∃ x p o bs, t = writeBytes { s with crc := x, poll := p } r o bs)

theorem execCrcAppend_frame {r : Region} {n : Nat} {s t : State} (e : execCrcAppend r n s = .next t) :
    AppendFrame r s t ∧ (dmaOwns s r = false → t.poll = s.poll) := by
  obtain ⟨-, -, e⟩ := asCommand_next e
  rcases appendOrWait_next e with ⟨ho, e⟩ | ⟨ho, rfl⟩
  · obtain ⟨c, bs, -, -, -, rfl⟩ := crcAppend_next e
    exact ⟨.inr ⟨ho, _, s.poll, _, _, rfl⟩, fun _ => by simp⟩
  · exact ⟨.inl rfl, fun h => by rw [ho] at h; cases h⟩

theorem resumeAppend_frame {r : Region} {n : Nat} {s t : State} (e : resumeAppend r n s = .next t) : AppendFrame r s t := by
  rcases resumeAppend_next e with ⟨-, rfl⟩ | ⟨ho, e⟩
  · exact .inl rfl
  · obtain ⟨c, bs, -, -, -, rfl⟩ := crcAppend_next e
    exact .inr ⟨ho, _, .ready, _, _, rfl⟩

theorem execStatsReport_frame {s t : State} (e : execStatsReport s = .next t) :
    t = { s with cnt := t.cnt, poll := t.poll, trace := t.trace, env := t.env } ∧
      linkEvents t.trace = linkEvents s.trace ∧ (t.cnt = s.cnt ∨ t.cnt = Counters.zero) := by
  obtain ⟨-, -, e⟩ := asCommand_next e
  have e := Host.Outcome.next.inj e
  subst e
  unfold reportStats
  split
  · split
    · exact ⟨rfl, by simp [withEnv, snapshotStats, emit, linkEvents_append, linkEvents], .inl rfl⟩
    · exact ⟨rfl, by simp [zeroStats, withEnv, snapshotStats, emit, linkEvents_append, linkEvents], .inr rfl⟩
  · exact ⟨rfl, rfl, .inl rfl⟩

/-- A received byte is lost, or goes into the armed region, or nowhere. -/
theorem execRxByte_frame {b : Byte} {s t : State} (e : execRxByte b s = .next t) :
    t = s ∨ t = { s with rxLost := true } ∨ t = { s with rxSeq := .capture } ∨
      t = { writeBytes s (captureRegion s) s.rxWptr [b] with rxWptr := s.rxWptr + 1, rxSeq := .capture } := by
  rcases asRxEvent_next e with ⟨-, h⟩ | ⟨-, -, e⟩
  · exact .inl h
  · have e := Host.Outcome.next.inj e
    subst e
    split
    · unfold storeByte
      split
      · exact .inr (.inr (.inr rfl))
      · exact .inr (.inr (.inl rfl))
    · exact .inr (.inl rfl)

/-- What the producer may change. -/
theorem takeBoundary_frame (s : State) : takeBoundaryInterrupt s =
      { s with rxIrq := false, rxSeq := .listen, slotLen := recordedLens s, rxWptr := 0,
               head := (takeBoundaryInterrupt s).head, rxTarget := (takeBoundaryInterrupt s).rxTarget,
               cnt := (takeBoundaryInterrupt s).cnt, sem := (takeBoundaryInterrupt s).sem,
               trace := s.trace ++ [.retrigger] } ∧
    (takeBoundaryInterrupt s).cnt = { s.cnt with rxOk := (takeBoundaryInterrupt s).cnt.rxOk,
                                                 rxFull := (takeBoundaryInterrupt s).cnt.rxFull } ∧
    ((takeBoundaryInterrupt s).sem = s.sem ∨ (takeBoundaryInterrupt s).sem = min (s.sem + 1) s.cfg.n) := by
  cases hf : ringFull s with
  | true =>
    rw [takeBoundary_full s hf]
    exact ⟨rfl, counted_of (P := fun d => d = { s.cnt with rxOk := d.rxOk, rxFull := d.rxFull }) s _ rfl rfl, .inl rfl⟩
  | false =>
    rw [takeBoundary_notFull s hf]
    exact ⟨rfl, counted_of (P := fun d => d = { s.cnt with rxOk := d.rxOk, rxFull := d.rxFull }) s _ rfl rfl, .inr rfl⟩

theorem execRxBoundary_frame {s t : State} (e : execRxBoundary s = .next t) :
    t = s ∨ t = { s with rxLost := false } ∨ t = { s with rxSeq := .wait, rxIrq := true, env := s.env.drawTurn.2 } ∨
      t = takeBoundaryInterrupt { s with rxSeq := .wait, rxIrq := true, env := s.env.drawTurn.2 } := by
  rcases asRxEvent_next e with ⟨-, h⟩ | ⟨-, -, e⟩
  · exact .inl h
  · have e := Host.Outcome.next.inj e
    subst e
    split
    · unfold interruptOrLatency
      dsimp only
      split
      · exact .inr (.inr (.inr rfl))
      · exact .inr (.inr (.inl rfl))
    · exact .inr (.inl rfl)

theorem execTxDmaByte_frame {s t : State} (e : execTxDmaByte s = .next t) :
    t = { s with txRd := t.txRd, txBusy := t.txBusy, trace := t.trace } ∧ linkEvents t.trace = linkEvents s.trace := by
  unfold execTxDmaByte at e
  split at e
  · split at e
    · cases e
    · cases e
      exact ⟨rfl, by simp [txMove, emit, linkEvents_append, linkEvents]⟩
  · cases e; exact ⟨rfl, rfl⟩

/-- INIT, once it is not refused. -/
theorem execInit_frame {c : Cfg} {s t : State} (e : execInit c s = .next t) :
    s.up = false ∧ c.legal = true ∧ c.dualRx = false ∧ t = register (phyScan (bringUp c s)).2 := by
  unfold execInit at e
  split at e
  · cases e
  · next hu =>
    split at e
    · next hl =>
      split at e
      · cases e
      · next hd => exact ⟨by simpa using hu, hl, by simpa using hd, (Host.Outcome.next.inj e).symm⟩
    · cases e

/-- A record that runs decodes. -/
theorem runRecord_next {r : List Byte} {s t : State} (e : runRecord r s = .next t) :
    ∃ i, decode r = .ok i ∧ exec i s = .next t := by
  unfold runRecord at e
  split at e
  · next i h => exact ⟨i, h, e⟩
  · cases e

/-- What POLL does when it goes on: before INIT nothing, with its loop from then on, or with the operation it is inside. -/
theorem resumePoll_next {s t : State} (e : resumePoll s = .next t) :
    (s.up = false ∧ t = s) ∨
    (∃ i l v, (i = .linkPoll ∨ i = .statsReport ∨ i = .rxConsume) ∧ v.requests = s.env.requests ∧
      exec i { withEnv v s with loop := l } = .next t) ∨
    ConsumerFrame s t ∨ t = zeroStats s ∨ SendFrame s t ∨ ∃ r n, s.poll = .appendWait r n ∧ AppendFrame r s t := by
  unfold resumePoll at e
  split at e
  · split at e
    · obtain ⟨i, l, v, hi, hv, he⟩ := pollLoop_cases s
      exact .inr (.inl ⟨i, l, v, hi, hv, he ▸ e⟩)
    · next hu => cases e; exact .inl ⟨by simpa using hu, rfl⟩
  · exact .inr (.inr (.inl (acquireOrWait_frame e)))
  · exact .inr (.inr (.inl (consumeClaimed_frame e).1))
  · cases e; exact .inr (.inr (.inr (.inl rfl)))
  · next n _ => cases e; exact .inr (.inr (.inl (hostInput_frame n s).1))
  · exact .inr (.inr (.inr (.inr (.inl (resumeSend_frame e)))))
  · next r n hp => exact .inr (.inr (.inr (.inr (.inr ⟨r, n, hp, resumeAppend_frame e⟩))))

end Sys2Proof.Machine
end

