-- ==== Sys2Proof/Tests/Slice0.lean ====
section
/-! SUPPORT. The model's own tests. Expected values are the spec's: spec/95_test_vectors.md (vector ids are named), the
encodings of 30_encoding.md, the rules cited. Then one witness per statement of Obligations.lean: a concrete state and
operands that meet its hypotheses together. -/

set_option Elab.async false

namespace Sys2Proof.Tests

open Sys2Proof.Machine

/-! ### Small states -/

/-- The configuration of spec/95_test_vectors.md, with a value for each open parameter. -/
def cfg0 : Cfg where
  n := 4
  lwm := 2
  slotCap := 1524
  txCap := 1524
  statsEn := true
  dualRx := false
  phyAddrDefault := 0
  hwaddr := 0
  pins := ⟨0, 0, 0, 0, 0, 0, 0⟩
  semTimeout := 0
  linkPollInterval := 0
  tMdio := 1

/-- After INIT, but for the scan's traces (70_reset_and_hazards.md R294). -/
def idle : State := register (bringUp cfg0 State.reset)

/-- Memory holding bytes from offset 0. -/
def bytesAt0 (bs : List Byte) : Machine.Memory := Memory.writeAll [] 0 bs

/-- One caller buffer. -/
def withCaller (cap : Nat) (bs : List Byte) : State := { idle with callers := [⟨cap, bytesAt0 bs⟩] }

/-- One frame captured and released in slot 0. -/
def withFrame (bs : List Byte) : State :=
  { idle with slotMem := [bytesAt0 bs, [], [], []], slotLen := [bs.length, 0, 0, 0], head := 1, sem := 1 }

/-- The scheduler's next choices. -/
def withTurns (ts : List Bool) (s : State) : State := { s with env := { s.env with turns := ts } }

/-- The host's next answers. -/
def withHost (a : List Bool) (i : List InputAnswer) (s : State) : State :=
  { s with env := { s.env with allocAnswers := a, inputAnswers := i } }

/-- The PHY's answer to one read: turnaround 1 0, then 16 bits, most significant first. -/
def answer (v : Half) : List Bool := [true, false] ++ msbFirst v

/-- The PHY's next answers. -/
def withPhy (vs : List Half) (s : State) : State :=
  { s with env := { s.env with phyLevels := vs.flatMap answer } }

/-- The next records. -/
def withRecords (rs : List (List Byte)) (s : State) : State := { s with env := { s.env with requests := rs } }

/-- The machine goes on, and the state is as said. -/
def goesOn (o : Outc) (p : State → Bool) : Bool :=
  match o with
  | .next t => p t
  | .fault _ => false
  | .refused _ => false

/-- The machine refuses by this name. -/
def refuses (o : Outc) (r : Refusal) : Bool :=
  match o with
  | .refused q => decide (q = r)
  | .next _ => false
  | .fault _ => false

/-- The machine stops with this fault. -/
def faults (o : Outc) (f : Fault) : Bool :=
  match o with
  | .fault q => decide (q = f)
  | .next _ => false
  | .refused _ => false

theorem goesOn_next {o : Outc} {p : State → Bool} (h : goesOn o p = true) : ∃ t, o = .next t ∧ p t = true := by
  cases o with
  | next t => exact ⟨t, rfl, h⟩
  | fault f => cases h
  | refused r => cases h

theorem faults_fault {o : Outc} {f : Fault} (h : faults o f = true) : o = .fault f := by
  cases o with
  | next t => cases h
  | fault g => cases g; cases f; rfl
  | refused r => cases h

/-- The digits of vector V6. -/
def digits : List Byte := [0x31#8, 0x32#8, 0x33#8, 0x34#8, 0x35#8, 0x36#8, 0x37#8, 0x38#8, 0x39#8]

/-- The digits with their FCS: vectors Y1, X6. -/
def digitsFrame : List Byte := digits ++ [0x26#8, 0x39#8, 0xF4#8, 0xCB#8]

/-- Nothing pending and nothing that can run: POLL goes on. -/
theorem pollMoves_idle {s : State} (h : irqPending s = false) (hr : takeAdmitted s.poll s.env.requests = none) :
    pollMoves s s.env := ⟨s.env, .inl ⟨h, rfl⟩, .inl ⟨hr, rfl⟩⟩

/-- An interrupt is pending and an event could run, and both are refused the turn: POLL goes on. -/
theorem pollMoves_refused {s : State} (h : irqPending s = true) (h1 : s.env.drawTurn.1 = false)
    (hr : takeAdmitted s.poll s.env.requests ≠ none) (hp : s.poll ≠ .ready) (h2 : s.env.drawTurn.2.drawTurn.1 = false) :
    pollMoves s s.env.drawTurn.2.drawTurn.2 := ⟨s.env.drawTurn.2, .inr ⟨h, h1, rfl⟩, .inr ⟨hr, hp, h2, rfl⟩⟩

/-- A boundary is pending and another byte is on the wire, but POLL, which stands at p, has the turn; a command waits. -/
def overtaken (p : Poll) : State :=
  { idle with poll := p, rxSeq := .wait, rxIrq := true,
              env := { idle.env with requests := [[0x07#8], [0x12#8]], turns := [false, false] } }

theorem pollMoves_overtaken (p : Poll) (hp : p ≠ .ready) : pollMoves (overtaken p) { idle.env with requests := [[0x07#8], [0x12#8]] } := by
  refine pollMoves_refused (s := overtaken p) rfl rfl ?_ hp rfl
  cases p <;> first | exact absurd rfl hp | simp [overtaken, takeAdmitted, admits, isEvent, isTxSend]

/-! ### WellFormed refuses what is ill formed -/

theorem test_wf_len : (Instr.crcAppend .txbuf (2 ^ 32)).wf = false := by decide
theorem test_wf_total : (Instr.crcVerify .txbuf (2 ^ 32)).wf = false := by decide
theorem test_wf_slot : (Instr.crcVerify (.slot (2 ^ 32)) 4).wf = false := by decide
theorem test_wf_caller : (Instr.crcAppend (.caller (2 ^ 32)) 4).wf = false := by decide
theorem test_wf_send_total : (Instr.txSend [] (2 ^ 32)).wf = false := by decide
theorem test_wf_send_count (fs : List (List Byte)) (h : fs.length = 2 ^ 32) : (Instr.txSend fs 0).wf = false := by
  simp [Instr.wf, wordBound, h]
theorem test_wf_send_fragment (f : List Byte) (h : f.length = 2 ^ 32) : (Instr.txSend [f] 0).wf = false := by
  simp [Instr.wf, wordBound, h]
theorem test_wf_init_lwm : (Instr.init { cfg0 with lwm := 1 }).wf = false ∧ (Instr.init { cfg0 with lwm := 4, n := 9 }).wf = false := by
  decide
theorem test_wf_init_n : (Instr.init { cfg0 with n := 2 }).wf = false := by decide
theorem test_wf_init_slotCap : (Instr.init { cfg0 with slotCap := 1523 }).wf = false := by decide
theorem test_wf_init_txCap : (Instr.init { cfg0 with txCap := 63 }).wf = false := by decide
theorem test_wf_init_tMdio : (Instr.init { cfg0 with tMdio := 0 }).wf = false := by decide
theorem test_wf_init_fits : (Instr.init { cfg0 with semTimeout := 2 ^ 32 }).wf = false := by decide
/-- An excess word of all ones is legal: 00_scope.md R7 gives T_MDIO no upper bound. -/
theorem test_decode_init_wide : readCfg (cfgWords { cfg0 with tMdio := 2 ^ 32 }) = .ok ({ cfg0 with tMdio := 2 ^ 32 }, []) := by
  decide +kernel
theorem test_wf_good : (Instr.init cfg0).wf = true ∧ (Instr.txSend [digits] 9).wf = true := by decide

/-! ### Decoding: words written out from 30_encoding.md R102, R105, R120 and spec/95_test_vectors.md sections 3.1, 7 -/

theorem test_decode_crcAppend : decode [0x01#8, 3#8, 0#8, 0#8, 0#8, 0#8, 0#8, 0#8, 0#8, 9#8, 0#8, 0#8, 0#8] =
    .ok (.crcAppend (.caller 0) 9) := by rfl
theorem test_decode_crcVerify : decode [0x02#8, 1#8, 0#8, 0#8, 0#8, 2#8, 0#8, 0#8, 0#8, 0#8, 1#8, 0#8, 0#8] =
    .ok (.crcVerify (.slot 2) 256) := by rfl
theorem test_decode_mdioRead : decode [0x03#8, 31#8, 0#8, 0#8, 0#8, 10#8, 0#8, 0#8, 0#8] = .ok (.mdioRead 31 10) := by rfl
theorem test_decode_mdioWrite : decode [0x04#8, 1#8, 0#8, 0#8, 0#8, 4#8, 0#8, 0#8, 0#8, 0xE1#8, 0x01#8, 0#8, 0#8] =
    .ok (.mdioWrite 1 4 0x01E1) := by rfl
theorem test_decode_plain : decode [0x05#8] = .ok .phyScan ∧ decode [0x06#8] = .ok .linkPoll ∧
    decode [0x07#8] = .ok .statsReport ∧ decode [0x09#8] = .ok .rxConsume := ⟨rfl, rfl, rfl, rfl⟩
theorem test_decode_txSend : decode [0x08#8, 3#8, 0#8, 0#8, 0#8, 2#8, 0#8, 0#8, 0#8, 1#8, 0#8, 0#8, 0#8, 0xAA#8,
    2#8, 0#8, 0#8, 0#8, 0xBB#8, 0xCC#8] = .ok (.txSend [[0xAA#8], [0xBB#8, 0xCC#8]] 3) := by rfl
theorem test_decode_init : decodeTableWord 8 0x0A =
    some (.init { cfg0 with n := 3, txCap := 64 }) := by decide +kernel
theorem test_decode_events : decode [0x10#8, 0x55#8, 0#8, 0#8, 0#8] = .ok (.rxByte 0x55) ∧
    decode [0x11#8] = .ok .rxBoundary ∧ decode [0x12#8] = .ok .txDmaByte := ⟨rfl, rfl, rfl⟩
/-- M6: preamble, then 0110 00001 00001 and released cells written as 0. -/
theorem test_decode_readFrame : decode [0xFF#8, 0xFF#8, 0xFF#8, 0xFF#8, 0b01100000#8, 0b10000100#8, 0#8, 0#8] =
    .ok (.mdioReadFrame 1 1) := by rfl
/-- M2: 0101 11111 11111 10 1010010111000011. -/
theorem test_decode_writeFrame : decode [0xFF#8, 0xFF#8, 0xFF#8, 0xFF#8, 0b01011111#8, 0b11111110#8, 0xA5#8, 0xC3#8] =
    .ok (.mdioWriteFrame 31 31 0xA5C3) := by rfl
/-- Z1, Z2 and the frames R112 refuses: ST 00, OP 00, turnaround 01. -/
theorem test_decode_refused : decode [0x00#8] = .error (.reservedSelector 0) ∧ decode [0x0B#8] = .error (.reservedSelector 11) ∧
    decode [0xFF#8] = .error (.reservedSelector 255) ∧ decodeTableWord 32 0x10840000 = none ∧
    decodeTableWord 32 0x40820000 = none ∧ decodeTableWord 32 0x50810000 = none := by decide +kernel

/-! ### One or two steps of each instruction -/

/-- P5 step 1. -/
theorem test_crcAppend : goesOn (exec (.crcAppend (.caller 0) 9) (withCaller 16 digits)) (fun t =>
    decide (readBytes t (.caller 0) 0 13 = some digitsFrame) && decide (t.crc = 0x340BC6D9#32)) = true := by decide +kernel
/-- P5 step 1 on a slot RXCAP is not armed on, and on the armed one before any byte; R46: inside a frame POLL does not write it. -/
theorem test_crcAppend_slot : goesOn (exec (.crcAppend (.slot 0) 9) (withFrame digits)) (fun t =>
      decide (readBytes t (.slot 0) 0 13 = some digitsFrame) && decide (t.crc = 0x340BC6D9#32)) = true ∧
    goesOn (exec (.crcAppend (.slot 0) 9) { withFrame digits with head := 0, sem := 0 }) (fun t =>
      decide (readBytes t (.slot 0) 0 13 = some digitsFrame) && decide (t.crc = 0x340BC6D9#32)) = true ∧
    goesOn (exec (.crcAppend (.slot 0) 9) { withFrame digits with head := 0, sem := 0, rxSeq := .capture }) (fun t =>
      decide (t.slotMem = [bytesAt0 digits, [], [], []])) = true := by decide +kernel
/-- R28, R297: nothing writes TXBUF while a transfer runs; R136 once it is complete. -/
theorem test_crcAppend_busy : goesOn (exec (.crcAppend .txbuf 0) { idle with txBusy := true, txLen := 64 }) (fun t =>
      decide (t.txbuf = []) && t.txBusy) = true ∧
    goesOn (step { idle with poll := .appendWait .txbuf 0 }) (fun t =>
      decide (readBytes t .txbuf 0 4 = some [0#8, 0#8, 0#8, 0#8]) && decide (t.poll = .ready)) = true := by decide +kernel
/-- P5 step 4, Y11. -/
theorem test_crcAppend_past : refuses (exec (.crcAppend (.caller 0) 13) (withCaller 16 digits)) .appendPastEnd = true := by
  decide +kernel
/-- Y1 and Y8. -/
theorem test_crcVerify : goesOn (exec (.crcVerify (.caller 0) 13) (withCaller 16 digitsFrame)) (fun t =>
      decide (t.trace = [.result (.verdict true)])) = true ∧
    goesOn (exec (.crcVerify (.caller 0) 13) (withCaller 16 (digits ++ [0xCB#8, 0xF4#8, 0x39#8, 0x26#8]))) (fun t =>
      decide (t.trace = [.result (.verdict false)])) = true := by decide +kernel
/-- Y10 and Y7. -/
theorem test_crcVerify_corners : refuses (exec (.crcVerify (.caller 0) 17) (withCaller 16 digitsFrame)) .verifyPastEnd = true ∧
    goesOn (exec (.crcVerify (.caller 0) 3) (withCaller 16 [])) (fun t =>
      decide (t.trace = [.result (.verdict false)])) = true := by decide +kernel
/-- M10. -/
theorem test_mdioRead : goesOn (exec (.mdioRead 1 1) (withPhy [0x786D] idle)) (fun t =>
    decide (t.mdioSr = 0x786D#16) && t.mdioOe && t.mdioOut && t.mdc && decide (t.mdioCell = 64) &&
      decide (t.trace.length = 65) && decide (t.trace.getLast? = some (.result (.value 0x786D)))) = true := by decide +kernel
/-- M12: the turnaround is not checked. -/
theorem test_mdioRead_turnaround : goesOn (exec (.mdioRead 1 1)
    { idle with env := { idle.env with phyLevels := [true, true] ++ msbFirst 0x786D#16 } }) (fun t =>
      decide (t.mdioSr = 0x786D#16)) = true := by decide +kernel
/-- M14, and M2's cells 32 to 63. -/
theorem test_mdioWrite : goesOn (exec (.mdioWrite 31 31 0xA5C3) idle) (fun t =>
    t.mdioOut && t.mdioOe && t.mdc && decide (t.mdioSr = 0) && decide (t.trace.length = 64) &&
      decide (t.trace[46]? = some (.cell 46 (.drive true))) && decide (t.trace[47]? = some (.cell 47 (.drive false))) &&
      decide (t.trace[49]? = some (.cell 49 (.drive false)))) = true := by decide +kernel
/-- S1. -/
theorem test_phyScan : goesOn (exec .phyScan (withPhy [0xFFFF, 0x3100] idle)) (fun t =>
    decide (t.phyAddr = 1) && decide (t.trace.length = 128)) = true := by decide +kernel
/-- S2: 0x0000 is not all ones, and nothing is read after the first answer. -/
theorem test_phyScan_zero : goesOn (exec .phyScan (withPhy [0x0000] { idle with phyAddr := 7 })) (fun t =>
    decide (t.phyAddr = 0) && decide (t.trace.length = 64)) = true := by decide +kernel
/-- K2 and K1. -/
theorem test_linkPoll : goesOn (exec .linkPoll (withPhy [0x786D] idle)) (fun t =>
      t.linkUp && decide (t.trace.getLast? = some .linkUp)) = true ∧
    goesOn (exec .linkPoll (withPhy [0x7849] idle)) (fun t => !t.linkUp && decide (t.trace.length = 64)) = true := by
  decide +kernel
/-- K6 and K3. -/
theorem test_linkPoll_up : goesOn (exec .linkPoll (withPhy [0xFFFB] { idle with linkUp := true })) (fun t =>
      !t.linkUp && decide (t.trace.getLast? = some .linkDown)) = true ∧
    goesOn (exec .linkPoll (withPhy [0x786D] { idle with linkUp := true })) (fun t =>
      t.linkUp && decide (t.trace.length = 64)) = true := by decide +kernel
/-- Q1. -/
theorem test_statsReport : goesOn (exec .statsReport (withTurns [false] { idle with cnt := ⟨5, 1, 0, 0, 0, 2, 0⟩ })) (fun t =>
    decide (t.cnt = Counters.zero) && decide (t.trace = [.statsReport ⟨5, 1, 0, 0, 0, 2, 0⟩])) = true := by decide +kernel
/-- Q2. -/
theorem test_statsReport_off : goesOn (exec .statsReport { idle with cfg := { cfg0 with statsEn := false } }) (fun t =>
    decide (t.trace = [])) = true := by decide +kernel
/-- T7: the chain is longer than declared. -/
theorem test_txSend : goesOn (exec (.txSend [List.replicate 10 0x11#8, List.replicate 10 0x22#8] 15) idle) (fun t =>
    decide (readBytes t .txbuf 0 64 = some (List.replicate 10 0x11#8 ++ List.replicate 5 0x22#8 ++ List.replicate 45 0#8 ++
      [0x08#8, 0xB4#8, 0xC9#8, 0x75#8])) && decide (t.txLen = 64) && t.txBusy && decide (t.cnt.txOk = 1)) = true := by
  decide +kernel
/-- T10 and T11. -/
theorem test_txSend_refused : refuses (exec (.txSend [List.replicate 1521 0#8] 1521) idle) .submissionTooLong = true ∧
    refuses (exec (.txSend [List.replicate 10 0x11#8] 11) idle) .fragmentsTooShort = true := by decide +kernel
/-- X6. -/
theorem test_rxConsume : goesOn (exec .rxConsume (withHost [true] [.ok] (withTurns [false] (withFrame digitsFrame)))) (fun t =>
    decide (t.sem = 0) && decide (t.rear = 1) &&
      decide (t.trace = [.alloc 9, .input digits, .result (.consumed (.delivered 9))])) = true := by decide +kernel
/-- X8: three bytes. -/
theorem test_rxConsume_short : goesOn (exec .rxConsume (withTurns [false] (withFrame [1#8, 2#8, 3#8]))) (fun t =>
    decide (t.cnt.rxBadCrc = 1) && decide (t.rear = 1) && decide (t.trace = [.result (.consumed .badCrc)])) = true := by
  decide +kernel
/-- P1 step 1. -/
theorem test_init : goesOn (exec (.init cfg0) (withPhy [0xFFFF, 0x3100] State.reset)) (fun t =>
    t.up && decide (t.phyAddr = 1) && decide (t.mdioSr = 0x3100#16) && t.mdc && !t.mdioOut && t.mdioOe &&
      decide (t.trace.length = 128)) = true := by decide +kernel
/-- Z5 and Z6. -/
theorem test_init_refused : refuses (exec (.init cfg0) idle) .alreadyInitialised = true ∧
    refuses (exec (.init { cfg0 with dualRx := true }) State.reset) .dualRx = true := by decide +kernel
/-- R223, and X10's saturation. -/
theorem test_rxByte : goesOn (exec (.rxByte 0x55) { idle with rxWptr := 5 }) (fun t =>
      decide (readByte t (.slot 0) 5 = some 0x55#8) && decide (t.rxWptr = 6) && decide (t.rxSeq = .capture)) = true ∧
    goesOn (exec (.rxByte 0x55) { idle with rxWptr := 1524 }) (fun t =>
      decide (t.rxWptr = 1524) && decide (t.slotMem = idle.slotMem)) = true := by decide +kernel
/-- X11. -/
theorem test_rxByte_wait : goesOn (exec (.rxByte 0x55) { idle with rxSeq := .wait, rxIrq := true }) (fun t =>
    decide (t = { idle with rxSeq := .wait, rxIrq := true, rxLost := true })) = true := by decide +kernel
/-- R226: the rest of a frame that started in WAIT is lost too, its boundary included. -/
theorem test_rxByte_late : goesOn (exec (.rxByte 0x55) { idle with rxLost := true }) (fun t =>
      decide (t = { idle with rxLost := true })) = true ∧
    goesOn (exec .rxBoundary { idle with rxLost := true }) (fun t => decide (t = idle)) = true := by decide +kernel
/-- P4 step 1 and X9: the producer of the first frame. -/
theorem test_rxBoundary : goesOn (exec .rxBoundary (withTurns [true] { idle with rxWptr := 64, rxSeq := .capture })) (fun t =>
    decide (t.slotLen = [64, 0, 0, 0]) && decide (t.head = 1) && decide (t.sem = 1) && decide (t.rxTarget = .slot) &&
      decide (t.rxWptr = 0) && decide (t.rxSeq = .listen) && !t.rxIrq && decide (t.cnt.rxOk = 1) &&
      decide (t.trace = [.retrigger])) = true := by decide +kernel
/-- P4 step 3: judged full. -/
theorem test_rxBoundary_full : goesOn (exec .rxBoundary
    (withTurns [true] { idle with head := 2, sem := 2, rxWptr := 13, slotLen := [64, 64, 0, 0] })) (fun t =>
    decide (t.slotLen = [64, 64, 13, 0]) && decide (t.head = 2) && decide (t.sem = 2) && decide (t.rxTarget = .dummy) &&
      decide (t.cnt.rxFull = 1) && decide (t.cnt.rxOk = 0)) = true := by decide +kernel

/-- Two bytes armed. -/
def armed : State := { idle with txbuf := bytesAt0 [0xA1#8, 0xB2#8], txLen := 2, txBusy := true }

/-- R210. -/
theorem test_txDmaByte : goesOn (exec .txDmaByte armed) (fun t =>
      decide (t.trace = [.txByte 0xA1]) && decide (t.txRd = 1) && t.txBusy) = true ∧
    goesOn (exec .txDmaByte { armed with txRd := 1 }) (fun t =>
      decide (t.trace = [.txByte 0xB2]) && decide (t.txRd = 2) && !t.txBusy) = true := by decide +kernel
/-- M6's frame with M10's answer. -/
theorem test_mdioReadFrame : goesOn (exec (.mdioReadFrame 1 1) (withPhy [0x786D] idle)) (fun t =>
    decide (t.mdioSr = 0x786D#16) && decide (t.trace.length = 64) &&
      decide (t.trace[40]? = some (.cell 40 (.drive true))) &&
      decide (t.trace[46]? = some (.cell 46 (.release true)))) = true := by decide +kernel
/-- M3. -/
theorem test_mdioWriteFrame : goesOn (exec (.mdioWriteFrame 0 0 0) idle) (fun t =>
    !t.mdioOut && decide (t.trace.length = 64) && decide (t.trace[35]? = some (.cell 35 (.drive true))) &&
      decide (t.trace[46]? = some (.cell 46 (.drive true)))) = true := by decide +kernel
/-- V2, V4, V7, V8 and the step of section 2.2. -/
theorem test_fcs : fcs [0x00#8] = 0xD202EF8D#32 ∧ fcs [0x61#8] = 0xE8B7BE43#32 ∧ fcs [0#8, 0#8, 0#8, 0#8] = 0x2144DF1C#32 ∧
    fcs [0xFF#8, 0xFF#8, 0xFF#8, 0xFF#8] = 0xFFFFFFFF#32 ∧ crcStep 0xFFFFFFFF#32 0x31#8 = 0x7C231048#32 := by decide +kernel
/-- A placed word runs as the first instruction after reset. -/
theorem test_withFetchWord : goesOn (step (State.reset.withFetchWord 8 0x12)) (fun t => decide (t.env.requests = [])) = true := by
  decide +kernel

/-- R117: the interval has elapsed; then the service part is over; then RX.CONSUME, which times out. -/
theorem test_pollLoop : goesOn (step (withPhy [0x786D] { idle with env := { idle.env with intervals := [true] } })) (fun t =>
      t.linkUp && decide (t.loop = .report)) = true ∧
    goesOn (step (withTurns [false] { idle with loop := .report })) (fun t =>
      decide (t.loop = .consume) && decide (t.trace = [.statsReport Counters.zero])) = true ∧
    goesOn (step { idle with loop := .consume, env := { idle.env with timeouts := [true] } }) (fun t =>
      decide (t.loop = .service) && decide (t.trace = [.result (.consumed .timeout)])) = true := by decide +kernel
/-- R42: the widths at N = 4, LINK_UP and MDIO_PINS. -/
theorem test_readReg : readReg { idle with head := 3 } .head = some ⟨2, 3#2⟩ ∧ readReg { idle with sem := 2 } .sem = some ⟨3, 2#3⟩ ∧
    readReg { idle with txLen := 64 } .txLen = some ⟨16, 64#16⟩ ∧ readReg idle .rxTarget = none ∧
    readReg { idle with mdc := true } .mdioPins = some ⟨3, 0b110#3⟩ := by decide +kernel

/-! ### Witnesses: states and operands that meet the hypotheses of the statements, each clause at a boundary -/

theorem witness_DecodeOfEncode : (Instr.crcAppend (.slot (2 ^ 32 - 1)) (2 ^ 32 - 1)).wf = true ∧
    (Instr.txSend [digits, []] 9).wf = true ∧ (Instr.init cfg0).wf = true ∧ (Instr.mdioWrite 31 31 0xFFFF).wf = true := by decide

theorem witness_ReservedEncodingsRefused :
    (∀ sel ∈ [0x00#8, 0x0B#8, 0x0F#8, 0x13#8, 0xFF#8],
      sel ∉ [0x01#8, 0x02#8, 0x03#8, 0x04#8, 0x05#8, 0x06#8, 0x07#8, 0x08#8, 0x09#8, 0x0A#8, 0x10#8, 0x11#8, 0x12#8] ∧
      ¬ (sel = 0xFF#8 ∧ ([0x00#8] : List Byte).take 3 = [0xFF#8, 0xFF#8, 0xFF#8] ∧ 7 ≤ ([0x00#8] : List Byte).length)) ∧
    (32 < 2 ^ 32 ∧ 31 < 32) ∧ (0x10000 < 2 ^ 32 ∧ 0xFFFF < 0x10000) ∧ (0x100 < 2 ^ 32 ∧ 0xFF < 0x100) := by decide

theorem witness_FrameWordFields : 13 < 14 ∧ 31 < 32 := by decide

theorem witness_FramePatterns : 0x60840000#32 &&& 0xF0000000#32 = 0x60000000#32 ∧
    (¬ 0x50828000#32 &&& 0xF0000000#32 = 0x60000000#32 ∧ 0x50828000#32 &&& 0xF0030000#32 = 0x50020000#32) ∧
    (¬ 0x50810000#32 &&& 0xF0000000#32 = 0x60000000#32 ∧ ¬ 0x50810000#32 &&& 0xF0030000#32 = 0x50020000#32) := by decide

/-- A caller's buffer with the FCS up to its end; the armed slot before any byte of a frame. -/
theorem witness_CrcAppendResult :
    (let s := withCaller 13 digits
     s.up = true ∧ s.poll = .ready ∧ memoryWf s = true ∧ s.slotMem.length = s.cfg.n ∧ ¬ owned s (.caller 0) ∧
      regionCap s (.caller 0) = some 13 ∧ 9 + 4 ≤ 13 ∧ readBytes s (.caller 0) 0 9 = some digits) ∧
    (let s := { withFrame digits with head := 0, sem := 0 }
     s.up = true ∧ s.poll = .ready ∧ memoryWf s = true ∧ s.slotMem.length = s.cfg.n ∧ ¬ owned s (.slot 0) ∧
      regionCap s (.slot 0) = some 1524 ∧ 9 + 4 ≤ 1524 ∧ readBytes s (.slot 0) 0 9 = some digits) := by
  unfold owned; decide +kernel

/-- TXBUF while a transfer runs, and the armed slot inside a frame; a held append that waits, and one that goes on. -/
theorem witness_CrcAppendHeld :
    (armed.up = true ∧ armed.poll = .ready ∧ owned armed .txbuf ∧ regionCap armed .txbuf = some 1524 ∧ 1520 + 4 ≤ 1524) ∧
    (let s := { idle with rxSeq := .capture }
     s.up = true ∧ s.poll = .ready ∧ owned s (.slot 0) ∧ regionCap s (.slot 0) = some 1524) ∧
    (let s := { idle with rxSeq := .capture, rxTarget := .dummy, poll := .appendWait .dummy 0 }
     s.up = true ∧ s.poll = .appendWait .dummy 0 ∧ pollMoves s s.env ∧ owned s .dummy) ∧
    (let s := overtaken (.appendWait .txbuf 2)
     s.up = true ∧ s.poll = .appendWait .txbuf 2 ∧ (∃ e, pollMoves s e) ∧ ¬ owned s .txbuf) :=
  ⟨by unfold owned; decide +kernel, by unfold owned; decide +kernel,
    ⟨rfl, rfl, pollMoves_idle rfl rfl, by unfold owned; decide⟩,
    ⟨rfl, rfl, ⟨_, pollMoves_overtaken _ (by decide)⟩, by unfold owned; decide +kernel⟩⟩

/-- DUMMY in WAIT; a held append on it that can go on. -/
theorem witness_AppendThenVerify :
    (let s := { idle with rxSeq := .wait, rxIrq := true, rxTarget := .dummy }
     s.up = true ∧ s.poll = .ready ∧ memoryWf s = true ∧ s.slotMem.length = s.cfg.n ∧ ¬ owned s .dummy ∧
      regionCap s .dummy = some 1524 ∧ 0 + 4 ≤ 1524 ∧ readBytes s .dummy 0 0 = some []) ∧
    (let s := overtaken (.appendWait .dummy 0)
     s.up = true ∧ s.poll = .appendWait .dummy 0 ∧ memoryWf s = true ∧ s.slotMem.length = s.cfg.n ∧ (∃ e, pollMoves s e) ∧
      ¬ owned s .dummy ∧ regionCap s .dummy = some 1524 ∧ readBytes s .dummy 0 0 = some []) :=
  ⟨by unfold owned; decide +kernel,
    ⟨rfl, rfl, rfl, rfl, ⟨_, pollMoves_overtaken _ (by decide)⟩, by unfold owned; decide +kernel, by decide +kernel, rfl⟩⟩

theorem witness_CrcAppendStops :
    (idle.up = true ∧ idle.poll = .ready ∧ regionCap idle (.slot 4) = none) ∧
    (let s := withCaller 12 digits
     s.up = true ∧ s.poll = .ready ∧ regionCap s (.caller 0) = some 12 ∧ 12 < 9 + 4) ∧
    (let s := withCaller 16 digits
     s.up = true ∧ s.poll = .ready ∧ ¬ owned s (.caller 0) ∧ regionCap s (.caller 0) = some 16 ∧ 12 + 4 ≤ 16 ∧ 9 < 12 ∧
      readByte s (.caller 0) 9 = none) := by
  unfold owned; decide +kernel

theorem witness_CrcVerifyResult : (withCaller 13 digitsFrame).up = true ∧ (withCaller 13 digitsFrame).poll = .ready ∧
    regionCap (withCaller 13 digitsFrame) (.caller 0) = some 13 ∧ digits.length + 4 ≤ 13 ∧
    readBytes (withCaller 13 digitsFrame) (.caller 0) 0 (digits.length + 4) =
      some (digits ++ [0x26#8, 0x39#8, 0xF4#8, 0xCB#8]) := by decide +kernel

theorem witness_CrcVerifyCorners :
    (idle.up = true ∧ idle.poll = .ready ∧ regionCap idle (.slot 3) = some 1524 ∧ 3 < 4 ∧ 4 ≤ 1525 ∧ 1524 < 1525) ∧
    (let s := withCaller 4 [0#8, 0#8, 0#8, 0#8]
     s.up = true ∧ s.poll = .ready ∧ regionCap s (.caller 0) = some 4 ∧ 4 ≤ 4 ∧
      readBytes s (.caller 0) 0 4 = some [0#8, 0#8, 0#8, 0#8]) := by decide +kernel

theorem witness_CrcVerifyStops : (idle.up = true ∧ idle.poll = .ready ∧ regionCap idle (.caller 0) = none) ∧
    (let s := withCaller 16 digits
     s.up = true ∧ s.poll = .ready ∧ regionCap s (.caller 0) = some 16 ∧ 4 ≤ 16 ∧ 16 ≤ 16 ∧ 15 < 16 ∧
      readByte s (.caller 0) 15 = none) := by decide +kernel

/-- Y2, and an FCS that is another one. -/
theorem witness_CorruptionDetected :
    (let s := withCaller 13 (digits ++ [0x27#8, 0x39#8, 0xF4#8, 0xCB#8])
     s.up = true ∧ s.poll = .ready ∧ regionCap s (.caller 0) = some 13 ∧ digits.length + 4 ≤ 13 ∧
      readBytes s (.caller 0) 0 (digits.length + 4) = some (digits ++ fcsBytes 0xCBF43927#32) ∧
      (0xCBF43927#32 : Word) ≠ fcs digits) ∧
    (let s := withCaller 13 (digits ++ [0x26#8, 0x39#8, 0xF4#8, 0x4B#8])
     s.up = true ∧ s.poll = .ready ∧ regionCap s (.caller 0) = some 13 ∧ digits.length + 4 ≤ 13 ∧
      readBytes s (.caller 0) 0 (digits.length + 4) =
        some ((digits ++ fcsBytes (fcs digits)).modify 12 fun b => b ^^^ (1#8 <<< 7)) ∧ 12 < digits.length + 4 ∧ 7 < 8) := by
  decide +kernel

/-- Also the witness of MdioWriteResult, WireFrameResults and LinkPollResult. -/
theorem witness_MdioReadResult : idle.up = true ∧ idle.poll = .ready ∧ idle.mdioCell = 64 := by decide +kernel

theorem witness_MdioReadDependsOnPhyOnly :
    ((withPhy [0x786D] idle).up = true ∧ (withPhy [0x786D] idle).poll = .ready ∧ (withPhy [0x786D] idle).mdioCell = 64) ∧
    ((withPhy [0x786D] armed).up = true ∧ (withPhy [0x786D] armed).poll = .ready ∧ (withPhy [0x786D] armed).mdioCell = 64) ∧
    levels 18 (withPhy [0x786D] idle).env = levels 18 (withPhy [0x786D] armed).env := by decide +kernel

theorem witness_MdioBusyRefused : { idle with mdioCell := 63 }.up = true ∧ { idle with mdioCell := 63 }.poll = .ready ∧
    { idle with mdioCell := 63 }.mdioCell ≠ 64 := by decide +kernel

/-- S2, S3 and S4. -/
theorem witness_PhyScanResult :
    (let s := withPhy [0x0000] idle
     s.up = true ∧ s.poll = .ready ∧ s.mdioCell = 64 ∧ (∀ k, k < (0 : U5).toNat → scanAnswer k s.env = 0xFFFF#16) ∧
      scanAnswer (0 : U5).toNat s.env ≠ 0xFFFF#16) ∧
    (let s := withPhy (List.replicate 31 0xFFFF ++ [0x1000]) idle
     s.up = true ∧ s.poll = .ready ∧ s.mdioCell = 64 ∧ (∀ k, k < (31 : U5).toNat → scanAnswer k s.env = 0xFFFF#16) ∧
      scanAnswer (31 : U5).toNat s.env ≠ 0xFFFF#16) ∧
    (let s := withPhy (List.replicate 32 0xFFFF) idle
     s.up = true ∧ s.poll = .ready ∧ s.mdioCell = 64 ∧ (∀ k, k < 32 → scanAnswer k s.env = 0xFFFF#16)) := by decide +kernel

theorem witness_StatsReportResult :
    (let s := { idle with cfg := { cfg0 with statsEn := false } }
     s.up = true ∧ s.poll = .ready ∧ s.cfg.statsEn = false) ∧
    (let s := withTurns [false] idle
     s.up = true ∧ s.poll = .ready ∧ s.cfg.statsEn = true ∧ s.env.drawTurn.1 = false) ∧
    (let s := withTurns [true] idle
     s.up = true ∧ s.poll = .ready ∧ s.cfg.statsEn = true ∧ s.env.drawTurn.1 = true) ∧
    (∃ e, (overtaken .reporting).poll = .reporting ∧ pollMoves (overtaken .reporting) e) :=
  ⟨by decide +kernel, by decide +kernel, by decide +kernel, _, rfl, pollMoves_overtaken _ (by decide)⟩

theorem witness_TxSendResult :
    (idle.up = true ∧ idle.poll = .ready ∧ idle.txBusy = false ∧ memoryWf idle = true ∧
      max 1520 60 + 4 ≤ idle.cfg.txCap ∧ 1520 ≤ fragmentsLength [List.replicate 1520 0#8]) ∧
    (let s := { idle with poll := .delivering 5 }
     s.up = true ∧ s.poll = .delivering 5 ∧ s.txBusy = false ∧ memoryWf s = true ∧ max 0 60 + 4 ≤ s.cfg.txCap ∧
      0 ≤ fragmentsLength []) := by decide +kernel

theorem witness_TxSendRefused : (idle.up = true ∧ idle.poll = .ready ∧ idle.cfg.txCap < max 1521 60 + 4) ∧
    (max 11 60 + 4 ≤ idle.cfg.txCap ∧ ([List.replicate 10 0x11#8].map List.length).sum < 11) := by decide +kernel

theorem witness_TxSendHeldWhileBusy : (max 9 60 + 4 ≤ armed.cfg.txCap ∧ 9 ≤ fragmentsLength [digits]) ∧
    (armed.up = true ∧ armed.poll = .ready ∧ armed.txBusy = true) ∧
    (let s := { armed with poll := .delivering 5 }
     s.up = true ∧ s.poll = .delivering 5 ∧ s.txBusy = true) ∧
    (let s := { armed with poll := .txWait [digits] 9 none }
     s.up = true ∧ s.poll = .txWait [digits] 9 none ∧ pollMoves s s.env ∧ s.txBusy = true) ∧
    (let s := overtaken (.txWait [digits] 9 none)
     s.up = true ∧ s.poll = .txWait [digits] 9 none ∧ (∃ e, pollMoves s e) ∧ s.txBusy = false) ∧
    (let s := overtaken (.txWait [digits] 9 (some 5))
     s.up = true ∧ s.poll = .txWait [digits] 9 (some 5) ∧ (∃ e, pollMoves s e) ∧ s.txBusy = false) :=
  ⟨by decide +kernel, by decide +kernel, by decide +kernel, ⟨rfl, rfl, pollMoves_idle rfl rfl, rfl⟩,
    ⟨rfl, rfl, ⟨_, pollMoves_overtaken _ (by decide)⟩, rfl⟩, ⟨rfl, rfl, ⟨_, pollMoves_overtaken _ (by decide)⟩, rfl⟩⟩

theorem witness_TxSendThenVerify : idle.up = true ∧ idle.poll = .ready ∧ idle.txBusy = false ∧ memoryWf idle = true ∧
    max 60 60 + 4 ≤ idle.cfg.txCap ∧ 60 ≤ fragmentsLength [List.replicate 60 0x5A#8] := by decide +kernel

theorem witness_TxDmaByteResult :
    ({ armed with txRd := 1 }.up = true ∧ { armed with txRd := 1 }.txBusy = true ∧
      { armed with txRd := 1 }.txRd < { armed with txRd := 1 }.txLen ∧
      readByte { armed with txRd := 1 } .txbuf 1 = some 0xB2#8) ∧
    (idle.up = true ∧ idle.txBusy = false ∧ idle.txLen ≤ idle.txRd) := by decide +kernel

theorem witness_TxDmaStream : armed.up = true ∧ armed.txBusy = true ∧ armed.txRd = 0 ∧ 0 < armed.txLen ∧
    readBytes armed .txbuf 0 armed.txLen = some [0xA1#8, 0xB2#8] := by decide +kernel

theorem witness_RxByteResult :
    (let s := { idle with rxWptr := 1523 }
     s.up = true ∧ s.cfg.dualRx = false ∧ s.rxSeq ≠ .wait ∧ s.rxLost = false ∧ memoryWf s = true ∧ s.slotMem.length = s.cfg.n ∧
      s.head < s.cfg.n ∧ s.rxWptr < s.cfg.slotCap) ∧
    (let s := { idle with rxWptr := 1524, rxTarget := .dummy }
     s.up = true ∧ s.cfg.dualRx = false ∧ s.rxSeq ≠ .wait ∧ s.rxLost = false ∧ memoryWf s = true ∧ s.slotMem.length = s.cfg.n ∧
      s.head < s.cfg.n ∧ s.cfg.slotCap ≤ s.rxWptr) := by decide +kernel

theorem witness_WaitLosesWireEvents :
    (let s := { idle with rxSeq := .wait, rxIrq := true }
     s.up = true ∧ s.cfg.dualRx = false ∧ s.rxSeq = .wait ∧ [0x55#8] ≠ []) ∧
    (let s := { idle with rxLost := true }
     s.up = true ∧ s.cfg.dualRx = false ∧ s.rxLost = true) := by decide +kernel

theorem witness_BoundarySignal : (withTurns [false] idle).up = true ∧ (withTurns [false] idle).cfg.dualRx = false ∧
    (withTurns [false] idle).rxSeq ≠ .wait ∧ (withTurns [false] idle).rxLost = false ∧
    (withTurns [false] idle).env.drawTurn.1 = false := by decide +kernel

/-- Two permits are full, one is not (P4). -/
theorem witness_BoundaryTaken :
    (let s := withTurns [true] { idle with sem := 2, head := 2 }
     s.up = true ∧ s.cfg.dualRx = false ∧ s.rxSeq ≠ .wait ∧ s.rxLost = false ∧ s.env.drawTurn.1 = true ∧ s.cfg.n - s.cfg.lwm ≤ s.sem) ∧
    (let s := withTurns [true] { idle with sem := 1, head := 1 }
     s.up = true ∧ s.cfg.dualRx = false ∧ s.rxSeq ≠ .wait ∧ s.rxLost = false ∧ s.env.drawTurn.1 = true ∧ s.sem < s.cfg.n - s.cfg.lwm) := by
  decide +kernel

/-- A boundary is pending. -/
def pending : State := withTurns [true] { idle with rxSeq := .wait, rxIrq := true, rxWptr := 64, sem := 1, head := 1 }

theorem witness_StepTakesInterrupt : (pending.up = true ∧ pending.rxIrq = true ∧ pending.env.drawTurn.1 = true ∧
      pending.sem < pending.cfg.n - pending.cfg.lwm) ∧
    (let s := { pending with sem := 2, head := 2 }
     s.up = true ∧ s.rxIrq = true ∧ s.env.drawTurn.1 = true ∧ s.cfg.n - s.cfg.lwm ≤ s.sem) := by decide +kernel

theorem witness_ConsumeWaits :
    (let s := { idle with env := { idle.env with timeouts := [true] } }
     s.up = true ∧ s.poll = .ready ∧ s.sem = 0 ∧ s.env.drawTimeout.1 = true) ∧
    (let s := { idle with env := { idle.env with timeouts := [false] } }
     s.up = true ∧ s.poll = .ready ∧ s.sem = 0 ∧ s.env.drawTimeout.1 = false) ∧
    (∃ e, (overtaken .semWait).up = true ∧ (overtaken .semWait).poll = .semWait ∧ pollMoves (overtaken .semWait) e) :=
  ⟨by decide +kernel, by decide +kernel, _, rfl, rfl, pollMoves_overtaken _ (by decide)⟩

/-- X8, and digits with a wrong FCS. -/
theorem witness_ConsumeBadCrc :
    (let s := withTurns [false] (withFrame [1#8, 2#8, 3#8])
     s.up = true ∧ s.poll = .ready ∧ s.sem ≠ 0 ∧ s.env.drawTurn.1 = false ∧ s.rear < s.cfg.n ∧
      slotLength s s.rear ≤ s.cfg.slotCap ∧ slotLength s s.rear < 4) ∧
    (let s := withTurns [false] (withFrame (digits ++ [0x27#8, 0x39#8, 0xF4#8, 0xCB#8]))
     s.up = true ∧ s.poll = .ready ∧ s.sem ≠ 0 ∧ s.env.drawTurn.1 = false ∧ s.rear < s.cfg.n ∧
      slotLength s s.rear ≤ s.cfg.slotCap ∧ slotLength s s.rear = digits.length + 4 ∧
      readBytes s (.slot s.rear) 0 (digits.length + 4) = some (digits ++ [0x27#8, 0x39#8, 0xF4#8, 0xCB#8]) ∧
      fcs digits ≠ 0xCB#8 ++ 0xF4#8 ++ 0x39#8 ++ 0x27#8) := by decide +kernel

/-- X3, X6, X4 and a host that stays. -/
theorem witness_ConsumeDelivers : ∀ a ∈ [([false], []), ([true], [InputAnswer.ok]), ([true], [.fail]), ([true], [.stays])],
    let s := withHost a.1 a.2 (withTurns [false] (withFrame digitsFrame))
    (s.up = true ∧ s.poll = .ready ∧ s.sem ≠ 0 ∧ s.env.drawTurn.1 = false ∧ s.rear < s.cfg.n ∧
      slotLength s s.rear = digits.length + 4 ∧ digits.length + 4 ≤ s.cfg.slotCap ∧
      readBytes s (.slot s.rear) 0 (digits.length + 4) = some (digits ++ [0x26#8, 0x39#8, 0xF4#8, 0xCB#8]) ∧
      fcs digits = 0xCB#8 ++ 0xF4#8 ++ 0x39#8 ++ 0x26#8) ∧
    [s.env.drawTurn.2.drawAlloc.1] = a.1 ∧
    (a.2 ≠ [] → [s.env.drawTurn.2.drawAlloc.2.drawInput.1] = a.2) := by decide +kernel

theorem witness_ConsumeSuspended :
    (let s := withTurns [true] (withFrame digitsFrame)
     s.up = true ∧ s.poll = .ready ∧ s.sem ≠ 0 ∧ s.env.drawTurn.1 = true) ∧
    (∃ e, (overtaken .claimed).up = true ∧ (overtaken .claimed).poll = .claimed ∧ pollMoves (overtaken .claimed) e) :=
  ⟨by decide +kernel, _, rfl, rfl, pollMoves_overtaken _ (by decide)⟩

theorem witness_DeliveryEnds (a : InputAnswer) :
    let s := withHost [] [a] { idle with poll := .delivering 9, hbuf := some ⟨9, bytesAt0 digits⟩ }
    s.poll = .delivering 9 ∧ pollMoves s s.env ∧ s.env.drawInput.1 = a := ⟨rfl, pollMoves_idle rfl rfl, rfl⟩

theorem witness_InitResult : State.reset.up = false ∧ cfg0.legal = true ∧ cfg0.dualRx = false := by decide +kernel

theorem witness_InitRefused : idle.up = true ∧ (State.reset.up = false ∧ { cfg0 with dualRx := true }.legal = true) ∧
    ({ cfg0 with lwm := 1 }.lwm < 2 ∧ 3 < { cfg0 with lwm := 4 }.lwm ∧ { cfg0 with n := 2 }.n < cfg0.lwm + 1 ∧
      { cfg0 with slotCap := 1523 }.slotCap < 1524 ∧ { cfg0 with txCap := 63 }.txCap < 64 ∧
      { cfg0 with tMdio := 0 }.tMdio < 1) := by decide +kernel

theorem witness_BeforeInit : State.reset.up = false := rfl

theorem witness_ResetValues : ∀ k : Nat, Region.txbuf ≠ .caller k := fun _ h => by cases h

theorem witness_HardwareResetDiscardsState : ({ idle with head := 3, crc := 7 }.cfg = idle.cfg) ∧
    ({ idle with head := 3, crc := 7 }.trace = idle.trace) := ⟨rfl, rfl⟩

/-- The invariant holds after INIT. -/
theorem idle_inv : Inv idle := by
  have hread : ∀ r o, readByte idle r o = none := by
    intro r o
    cases r with
    | slot i =>
      show Memory.read (idle.slotMem.getD i []) o = none
      rcases i with _ | _ | _ | _ | i <;> rfl
    | _ => rfl
  have hlen : ∀ i, slotLength idle i = 0 := by intro i; rcases i with _ | _ | _ | _ | i <;> rfl
  refine ⟨by decide, rfl, ⟨by decide, rfl, by decide, by decide⟩,
    ⟨Nat.le_refl _, Nat.zero_le _, (fun h => by cases h), (fun h => by cases h)⟩,
    ⟨rfl, rfl, Nat.zero_le _, fun o ho => absurd ho (Nat.not_lt_zero _), fun i => by rw [hlen]; exact Nat.zero_le _,
      fun i o ho => by rw [hlen] at ho; omega, ⟨(fun h => by cases h), (fun h => by cases h)⟩, (fun h => by cases h)⟩, rfl, rfl, rfl, ?_⟩
  intro r o h
  rw [hread] at h
  cases h

theorem witness_FrameCapture : (withTurns [true] idle).up = true ∧ Inv (withTurns [true] idle) ∧
    (withTurns [true] idle).rxSeq = .listen ∧ (withTurns [true] idle).rxLost = false ∧ (withTurns [true] idle).rxTarget = .slot ∧ (withTurns [true] idle).rxWptr = 0 ∧
    (withTurns [true] idle).sem < (withTurns [true] idle).cfg.n - (withTurns [true] idle).cfg.lwm ∧
    digitsFrame.length ≤ (withTurns [true] idle).cfg.slotCap ∧ (withTurns [true] idle).env.drawTurn.1 = true :=
  ⟨rfl, idle_inv.withEnv _, rfl, rfl, rfl, rfl, by decide, by decide, rfl⟩

/-- A CRC.APPEND on TXBUF is asked for while a transfer runs. -/
theorem witness_TxbufUntouchedWhileBusy : ∃ t : State,
    (let s := withRecords [encode (.crcAppend .txbuf 0)] armed
     s.up = true ∧ s.txBusy = true ∧ step s = .next t) := by
  have h : goesOn (step (withRecords [encode (.crcAppend .txbuf 0)] armed)) (fun _ => true) = true := by decide +kernel
  obtain ⟨t, ht, -⟩ := goesOn_next h
  exact ⟨t, rfl, rfl, ht⟩

/-- A step that sends. -/
theorem witness_StepKeepsInvariant : ∃ s t : State, Inv s ∧ step s = .next t ∧ t.txBusy = true := by
  have h : goesOn (step (withRecords [encode (.txSend [digits] 9)] idle)) (fun t => t.txBusy) = true := by decide +kernel
  obtain ⟨t, ht, hp⟩ := goesOn_next h
  exact ⟨_, t, idle_inv.withEnv _, ht, hp⟩

/-- The block is brought up. -/
theorem witness_RingInvariantReachable : ∃ s, Reachable s ∧ s.up = true := by
  have h : goesOn (step (withEnv (withPhy [0x3100] (withRecords [encode (.init cfg0)] State.reset)).env State.reset))
      (fun t => t.up) = true := by decide +kernel
  obtain ⟨t, ht, hp⟩ := goesOn_next h
  exact ⟨t, .step (.environment _ .reset) ht, hp⟩

theorem witness_ClaimableSlotsUntouched : ∃ s t : State, Inv s ∧ s.up = true ∧
    (∀ r ∈ s.env.requests, ∀ j len, decode r ≠ .ok (.crcAppend (.slot j) len)) ∧
    (∀ j len, s.poll ≠ .appendWait (.slot j) len) ∧ step s = .next t ∧ claimable s 0 := by
  let s := withEnv { Env.empty with turns := [false] }
    { takeBoundaryInterrupt { storeByte 0x55#8 idle with rxSeq := .capture } with loop := .report }
  have hs : Inv s := (((idle_inv.capture rfl 0x55#8).boundary).setLoop _).withEnv _
  have h : goesOn (step s) (fun _ => true) = true := by decide +kernel
  obtain ⟨t, ht, -⟩ := goesOn_next h
  refine ⟨s, t, hs, rfl, ?_, (fun _ _ h => by cases h), ht, ⟨0, by decide, rfl⟩⟩
  intro r hr
  cases hr

theorem witness_StepKeepsLinkNotificationsAlternating : ∃ s t : State, LinkInv s ∧ step s = .next t ∧ t.linkUp = true := by
  have h : goesOn (step (withPhy [0x786D] (withRecords [encode .linkPoll] idle))) (fun t => t.linkUp) = true := by decide +kernel
  obtain ⟨t, ht, hp⟩ := goesOn_next h
  exact ⟨withPhy [0x786D] (withRecords [encode .linkPoll] idle), t, ⟨trivial, rfl, fun _ => rfl⟩, ht, hp⟩

/-- A boundary; a CRC.APPEND on the armed slot inside a frame. -/
theorem witness_SingleWriters : (∃ t : State, idle.up = true ∧ exec .rxBoundary (withTurns [true] idle) = .next t) ∧
    (∃ t : State, { idle with rxSeq := .capture }.up = true ∧ exec (.crcAppend (.slot 0) 0) { idle with rxSeq := .capture } = .next t) := by
  have h : goesOn (exec .rxBoundary (withTurns [true] idle)) (fun _ => true) = true := by decide +kernel
  obtain ⟨t, ht, -⟩ := goesOn_next h
  exact ⟨⟨t, rfl, ht⟩, _, rfl, rfl⟩

theorem witness_OnlyCrcCommandsFault : ∃ (s : State) (f : Fault), Inv s ∧ step s = .fault f :=
  ⟨withRecords [encode (.crcVerify (.slot 0) 4)] idle, .neverWritten, idle_inv.withEnv _,
    faults_fault (by decide +kernel)⟩

theorem witness_StepRunsDecodedRecord :
    (let s := withRecords [[0x07#8]] idle
     s.poll = .ready ∧ s.env.requests = [0x07#8] :: [] ∧ interruptWaits s s.env ∧ decode [0x07#8] = .ok .statsReport) ∧
    (let s := withRecords [[0x07#8]] (withTurns [false] pending)
     s.poll = .ready ∧ s.env.requests = [0x07#8] :: [] ∧ interruptWaits s s.env.drawTurn.2) ∧
    (let s := withRecords [[0x0B#8]] idle
     s.poll = .ready ∧ s.env.requests = [0x0B#8] :: [] ∧ interruptWaits s s.env ∧
      decode [0x0B#8] = .error (.reservedSelector 11)) ∧
    (State.reset.poll = .ready ∧ interruptWaits State.reset State.reset.env ∧ State.reset.env.requests = [] ∧
      State.reset.up = false) :=
  ⟨⟨rfl, rfl, .inl ⟨rfl, rfl⟩, rfl⟩, ⟨rfl, rfl, .inr ⟨rfl, rfl, rfl⟩⟩, ⟨rfl, rfl, .inl ⟨rfl, rfl⟩, rfl⟩,
    ⟨rfl, .inl ⟨rfl, rfl⟩, rfl, rfl⟩⟩

/-- A boundary overtakes a command and a TX.SEND that wait behind RX.CONSUME; another overtakes a pending interrupt; a TX.SEND
comes from inside a delivery. -/
theorem witness_StepInsideOperation :
    (let s := withTurns [true] (withRecords [[0x07#8], [0x08#8], [0x11#8]] { idle with poll := .semWait })
     s.poll ≠ .ready ∧ interruptWaits s s.env ∧ s.env.requests = [[0x07#8], [0x08#8]] ++ [0x11#8] :: [] ∧
      decode [0x11#8] = .ok .rxBoundary ∧
      (∀ x ∈ [[0x07#8], [0x08#8]], ¬ hasEventSelector x ∧ (hasSendSelector x → ∀ n, s.poll ≠ .delivering n)) ∧
      s.env.drawTurn.1 = true) ∧
    (let s := withTurns [false, true] (withRecords [[0x11#8]] { pending with poll := .claimed })
     s.poll ≠ .ready ∧ interruptWaits s s.env.drawTurn.2 ∧ s.env.requests = [] ++ [0x11#8] :: [] ∧
      s.env.drawTurn.2.drawTurn.1 = true) ∧
    (let s := withTurns [true] (withRecords [[0x08#8] ++ word 0 ++ word 0] { idle with poll := .delivering 9 })
     s.poll = .delivering 9 ∧ interruptWaits s s.env ∧ s.env.requests = [] ++ ([0x08#8] ++ word 0 ++ word 0) :: [] ∧
      decode ([0x08#8] ++ word 0 ++ word 0) = .ok (.txSend [] 0) ∧ s.env.drawTurn.1 = true) := by
  refine ⟨⟨by decide, .inl ⟨rfl, rfl⟩, rfl, rfl, ?_, rfl⟩, ⟨by decide, .inr ⟨rfl, rfl, rfl⟩, rfl, rfl⟩,
    ⟨rfl, .inl ⟨rfl, rfl⟩, rfl, rfl, rfl⟩⟩
  intro x hx
  refine ⟨?_, fun _ n h => by cases h⟩
  rintro ⟨rest, h⟩
  simp only [List.mem_cons, List.not_mem_nil, or_false] at hx
  rcases hx with rfl | rfl <;> simp at h

/-- POLL inside RX.CONSUME, and a TX.SEND asked for there. -/
theorem witness_PollBusyRefused : { idle with poll := .claimed }.up = true ∧ { idle with poll := .claimed }.poll ≠ .ready ∧
    ((∃ f n, Instr.txSend [] 0 = .txSend f n) ∧ ∀ n, { idle with poll := .claimed }.poll ≠ .delivering n) :=
  ⟨rfl, by decide, ⟨[], 0, rfl⟩, fun _ h => by cases h⟩

theorem witness_RegisterTable : Inv idle ∧ idle.cfg.statsEn = true ∧ idle.txLen < 2 ^ 16 ∧
    (Inv (register (bringUp { cfg0 with statsEn := false } State.reset))) := by
  refine ⟨idle_inv, rfl, by decide, ?_⟩
  exact (idle_inv.bring { cfg0 with statsEn := false } (by decide) rfl).frame true 0 false false 0 0 false Counters.zero [] Env.empty

/-- The top of the round, with the interval elapsed and not; then the two other points. -/
theorem witness_PollLoop : ∀ b l, let s := { idle with loop := l, env := { idle.env with intervals := [b] } }
    s.up = true ∧ s.poll = .ready ∧ pollMoves s s.env ∧ s.loop = l ∧ s.env.drawInterval.1 = b :=
  fun _ _ => ⟨rfl, rfl, pollMoves_idle rfl rfl, rfl, rfl⟩

end Sys2Proof.Tests
end

section
/-! SUPPORT. The statements about the state, its registers and their writers (10_state.md): reset values, the held CRC.APPEND,
the register table, the single-writer discipline. -/

open Sys2Proof Sys2Proof.Machine
namespace Sys2Proof.Machine

/-! ### Reset values -/

theorem slotLength_bringUp (c : Cfg) (s : State) (i : Nat) : slotLength (bringUp c s) i = 0 :=
  List.getElem?_getD_replicate_default_eq _ c.n i

/-- After INIT's step 1 nothing of the block's own memory has been written. -/
theorem readByte_bringUp (c : Cfg) (s : State) {r : Region} (hr : ∀ k, r ≠ .caller k) (o : Nat) :
    readByte (bringUp c s) r o = none := by
  cases r with
  | slot i => exact congrArg (Memory.read · o) (List.getElem?_getD_replicate_default_eq _ c.n i)
  | txbuf | dummy | hbuf => rfl
  | caller k => exact absurd rfl (hr k)

/-- Settles O48: every other clause is the value that `bringUp` itself writes. -/
theorem resetValues : Obligations.ResetValues := by
  unfold Obligations.ResetValues
  refine ⟨fun c s r o hr => ?_, rfl, rfl⟩
  exact ⟨rfl, rfl, rfl, rfl, rfl, rfl, rfl, rfl, rfl, rfl, rfl, rfl, rfl, rfl, rfl, rfl, rfl, slotLength_bringUp c s, rfl,
    readByte_bringUp c s hr o, rfl⟩

/-! ### The held CRC.APPEND -/

theorem dmaOwns_eq_false_iff (s : State) (buf : Region) : dmaOwns s buf = false ↔ ¬ owned s buf := by
  rw [← dmaOwns_iff, Bool.not_eq_true]

theorem appendOrWait_owned {s : State} {buf : Region} (ho : owned s buf) (len : Nat) :
    appendOrWait buf len s = whenAppendFits buf len s (.next { s with poll := .appendWait buf len }) :=
  if_pos ((dmaOwns_iff s buf).2 ho)

theorem appendOrWait_free {s : State} {buf : Region} (ho : ¬ owned s buf) (len : Nat) :
    appendOrWait buf len s = crcAppend buf len s :=
  if_neg (mt (dmaOwns_iff s buf).1 ho)

theorem resumeAppend_owned {s : State} {buf : Region} (ho : owned s buf) (len : Nat) :
    resumeAppend buf len s = .next s :=
  if_pos ((dmaOwns_iff s buf).2 ho)

theorem resumeAppend_free {s : State} {buf : Region} (ho : ¬ owned s buf) (len : Nat) :
    resumeAppend buf len s = crcAppend buf len { s with poll := .ready } :=
  if_neg (mt (dmaOwns_iff s buf).1 ho)

/-- A step in which a held CRC.APPEND looks again. -/
theorem step_appendWait {s : State} {buf : Region} {len : Nat} {e : Env} (hp : s.poll = .appendWait buf len)
    (hm : pollMoves s e) : step s = resumeAppend buf len (withEnv e s) := by
  rw [step_pollMoves hm]
  simp only [resumePoll, withEnv_fields, hp]

/-- CRC.APPEND from between operations, on a region no DMA agent is at work on. -/
theorem exec_crcAppend_free {s : State} {buf : Region} (hu : s.up = true) (hp : s.poll = .ready) (ho : ¬ owned s buf)
    (len : Nat) : exec (.crcAppend buf len) s = crcAppend buf len s :=
  (asCommand_ready hu hp _).trans (appendOrWait_free ho len)

/-- Settles O8: the append and its resumption test the same ownership, which no answer of the environment changes. -/
theorem crcAppendHeld : Obligations.CrcAppendHeld := by
  unfold Obligations.CrcAppendHeld
  intro s buf len c e hu
  refine ⟨fun hp ho hc hl => ?_, fun hp hm ho => ?_, fun hp hm ho => ?_⟩
  · calc exec (.crcAppend buf len) s
        = appendOrWait buf len s := asCommand_ready hu hp _
      _ = whenAppendFits buf len s (.next { s with poll := .appendWait buf len }) := appendOrWait_owned ho len
      _ = .next { s with poll := .appendWait buf len } := whenAppendFits_eq _ hc hl
  · exact (step_appendWait hp hm).trans (resumeAppend_owned (s := withEnv e s) ho len)
  · calc step s
        = crcAppend buf len { s with poll := .ready, env := e } :=
          (step_appendWait hp hm).trans (resumeAppend_free (s := withEnv e s) ho len)
      _ = exec (.crcAppend buf len) { s with poll := .ready, env := e } :=
          (exec_crcAppend_free (s := { s with poll := .ready, env := e }) hu rfl ho len).symm

/-! ### The register table -/

/-- The register R42 gives an index; the last one for what is no index. -/
def ControlReg.ofIndex : Nat → ControlReg
  | 0 => .phyAddr | 1 => .linkUp | 2 => .txBusy | 3 => .txLen | 4 => .head | 5 => .rear | 6 => .sem | 7 => .rxTarget
  | 8 => .cntRxOk | 9 => .cntRxFull | 10 => .cntRxBadCrc | 11 => .cntRxAllocFail | 12 => .cntRxDeliverFail
  | 13 => .cntTxOk | 14 => .cntRxForceClear | 15 => .mdioPins | _ => .cfg

theorem ControlReg.ofIndex_index (r : ControlReg) : ofIndex r.index = r := by
  cases r <;> rfl

theorem ControlReg.index_ofIndex : ∀ k, k < 17 → (ofIndex k).index = k := by
  decide

theorem ControlReg.index_lt (r : ControlReg) : r.index < 17 := by
  cases r <;> decide

theorem ControlReg.index_injective : Function.Injective ControlReg.index :=
  Function.LeftInverse.injective ofIndex_index

theorem bitsFor_eq {n : Nat} (h : 2 ≤ n) : bitsFor n = (n - 1).log2 + 1 :=
  if_neg (by omega)

theorem le_two_pow_bitsFor {n : Nat} (h : 2 ≤ n) : n ≤ 2 ^ bitsFor n := by
  have : n - 1 < 2 ^ ((n - 1).log2 + 1) := Nat.lt_log2_self
  rw [bitsFor_eq h]
  omega

theorem two_pow_bitsFor_pred_lt {n : Nat} (h : 2 ≤ n) : 2 ^ (bitsFor n - 1) < n := by
  have : 2 ^ (n - 1).log2 ≤ n - 1 := Nat.log2_self_le (by omega)
  rw [bitsFor_eq h, Nat.add_sub_cancel]
  omega

/-- A ring index or a count of permits reads back from its register. -/
theorem toNat_ofNat_bitsFor {n k : Nat} (hn : 2 ≤ n) (hk : k < n) : (BitVec.ofNat (bitsFor n) k).toNat = k := by
  rw [BitVec.toNat_ofNat, Nat.mod_eq_of_lt (hk.trans_le (le_two_pow_bitsFor hn))]

theorem Inv.two_le_n {s : State} (h : Inv s) : 2 ≤ s.cfg.n := by
  obtain ⟨hlwm, -, hn, -⟩ := Cfg.legal_bounds h.legal
  omega

theorem Inv.sem_lt {s : State} (h : Inv s) : s.sem < s.cfg.n + 1 := by
  have := h.ring.sem_le
  omega

/-- TX_LEN reads as the length when it has 16 bits (log 33). -/
theorem toNat_txLenView {n : Nat} (h : n < 2 ^ 16) : (txLenView n).toNat = n := by
  rw [txLenView, if_pos h, BitVec.toNat_ofNat, Nat.mod_eq_of_lt h]

theorem RegView.ofBool_eq (b : Bool) : RegView.ofBool b = ⟨1, if b then 1#1 else 0#1⟩ := by
  cases b <;> rfl

theorem RxTarget.code_eq (t : RxTarget) : t.code = ⟨1, if t = .slot then 0#1 else 1#1⟩ := by
  cases t <;> rfl

theorem counterView_on {s : State} (h : s.cfg.statsEn = true) (f : Counters → Word) : counterView s f = some ⟨32, f s.cnt⟩ :=
  if_pos h

/-- The counters do not exist without STATS_EN (R37). -/
theorem counterView_off {s : State} (h : s.cfg.statsEn = false) (f : Counters → Word) : counterView s f = none :=
  if_neg (by simp [h])

/-- The registers 8 to 14 are the counters. -/
theorem readReg_counter_off {s : State} (h : s.cfg.statsEn = false) {r : ControlReg} (h8 : 8 ≤ r.index)
    (h14 : r.index ≤ 14) : readReg s r = none := by
  cases r with
  | cntRxOk | cntRxFull | cntRxBadCrc | cntRxAllocFail | cntRxDeliverFail | cntTxOk => exact counterView_off h _
  | cntRxForceClear => exact (if_congr Iff.rfl (counterView_off h _) rfl).trans (ite_self _)
  | phyAddr | linkUp | txBusy | txLen | head | rear | sem | rxTarget => exact absurd h8 (by decide)
  | mdioPins | cfg => exact absurd h14 (by decide)

/-- CNT_RX_FORCE_CLEAR does not exist without DUAL_RX (R38). -/
theorem readReg_forceClear_single {s : State} (h : s.cfg.dualRx = false) : readReg s .cntRxForceClear = none := by
  show (if s.cfg.dualRx then counterView s Counters.rxForceClear else none) = none
  simp [h]

/-- MDIO_PINS: the clock, the direction and the data line, highest bit first. -/
theorem mdioPins_bits : ∀ a b c : Bool,
    (BitVec.ofBool a ++ BitVec.ofBool b ++ BitVec.ofBool c).getLsbD 2 = a ∧
      (BitVec.ofBool a ++ BitVec.ofBool b ++ BitVec.ofBool c).getLsbD 1 = b ∧
      (BitVec.ofBool a ++ BitVec.ofBool b ++ BitVec.ofBool c).getLsbD 0 = c := by
  decide

/-- Settles O57: the index has an inverse, the ring indices and permits fit their widths by the ring invariant, and
the other registers show their field as it is. -/
theorem registerTable : Obligations.RegisterTable := by
  unfold Obligations.RegisterTable
  refine ⟨fun k hk => ⟨_, ControlReg.index_ofIndex k hk⟩, fun r q h => ⟨ControlReg.index_injective h, r.index_lt⟩,
    fun n hn => ⟨le_two_pow_bitsFor hn, two_pow_bitsFor_pred_lt hn⟩, fun s h => ?_⟩
  have hn : 2 ≤ s.cfg.n := h.two_le_n
  exact ⟨rfl, congrArg some (RegView.ofBool_eq _), congrArg some (RegView.ofBool_eq _), ⟨_, rfl, toNat_txLenView⟩,
    ⟨_, rfl, toNat_ofNat_bitsFor hn h.head_lt⟩, ⟨_, rfl, toNat_ofNat_bitsFor hn h.ring.rear_lt⟩,
    ⟨_, rfl, toNat_ofNat_bitsFor (by omega) h.sem_lt⟩, rfl, congrArg some (RxTarget.code_eq _),
    fun hs => ⟨counterView_on hs _, counterView_on hs _, counterView_on hs _, counterView_on hs _, counterView_on hs _,
      counterView_on hs _⟩,
    fun hs _ h8 h14 => readReg_counter_off hs h8 h14, readReg_forceClear_single h.single,
    ⟨_, rfl, mdioPins_bits _ _ _⟩, rfl⟩

/-! ### The writers of each field and region -/

theorem readByte_slot (s : State) (i o : Nat) : readByte s (.slot i) o = (s.slotMem.getD i []).read o := rfl

/-- A store changes the region it names and no other. -/
theorem writeBytes_otherRegions (s : State) (r : Region) (o : Nat) (bs : List Byte) :
    (r ≠ .txbuf → (writeBytes s r o bs).txbuf = s.txbuf) ∧
    ((∀ k, r ≠ .slot k) → (writeBytes s r o bs).slotMem = s.slotMem) ∧
    (r ≠ .dummy → (writeBytes s r o bs).dummy = s.dummy) ∧
    (r ≠ .hbuf → (writeBytes s r o bs).hbuf = s.hbuf) ∧
    ((∀ k, r ≠ .caller k) → (writeBytes s r o bs).callers = s.callers) := by
  cases r <;> simp [writeBytes, setRegionMem]

/-- The capture DMA is armed on a slot or on DUMMY (R31), so a store there leaves every other kind of region. -/
theorem writeBytes_captureRegion (s : State) (o : Nat) (bs : List Byte) :
    (writeBytes s (captureRegion s) o bs).txbuf = s.txbuf ∧ (writeBytes s (captureRegion s) o bs).hbuf = s.hbuf ∧
      (writeBytes s (captureRegion s) o bs).callers = s.callers := by
  unfold captureRegion
  cases s.rxTarget <;> exact ⟨rfl, rfl, rfl⟩

section
variable {r : Region} {s t : State} (h : AppendFrame r s t)
include h

theorem AppendFrame.fields :
    t = { s with crc := t.crc, txbuf := t.txbuf, slotMem := t.slotMem, dummy := t.dummy, hbuf := t.hbuf,
                 callers := t.callers, poll := t.poll } := by
  rcases h with h | ⟨-, x, p, o, bs, rfl⟩
  · rw [h]
  · cases r <;> rfl

theorem AppendFrame.otherRegions :
    (r ≠ .txbuf → t.txbuf = s.txbuf) ∧ ((∀ k, r ≠ .slot k) → t.slotMem = s.slotMem) ∧ (r ≠ .dummy → t.dummy = s.dummy) ∧
      (r ≠ .hbuf → t.hbuf = s.hbuf) ∧ ((∀ k, r ≠ .caller k) → t.callers = s.callers) := by
  rcases h with h | ⟨-, x, p, o, bs, rfl⟩
  · rw [h]
    exact ⟨fun _ => rfl, fun _ => rfl, fun _ => rfl, fun _ => rfl, fun _ => rfl⟩
  · exact writeBytes_otherRegions { s with crc := x, poll := p } r o bs

/-- CRC.APPEND leaves every region a DMA agent is at work on: it writes only the one it names, and that one only when it is
free (log 18). -/
theorem AppendFrame.regionMem_owned {r' : Region} (ho : owned s r') : regionMem t r' = regionMem s r' := by
  rcases h with h | ⟨hfree, x, p, o, bs, rfl⟩
  · rw [h]
    cases r' <;> rfl
  · have hne : r' ≠ r := by
      rintro rfl
      exact (dmaOwns_eq_false_iff s r').1 hfree ho
    rw [writeBytes, regionMem_setRegionMem_other _ r r' _ hne]
    cases r' <;> rfl

theorem AppendFrame.txbuf_of_busy (hb : s.txBusy = true) : t.txbuf = s.txbuf :=
  h.regionMem_owned (.inl ⟨hb, rfl⟩)

theorem AppendFrame.armedRegion (hc : s.rxSeq = .capture) :
    (s.rxTarget = .slot → ∀ o, readByte t (.slot s.head) o = readByte s (.slot s.head) o) ∧
      (s.rxTarget = .dummy → t.dummy = s.dummy) :=
  ⟨fun ht o => congrArg (Memory.read · o) (h.regionMem_owned (.inr (.inl ⟨hc, ht, rfl⟩))),
    fun ht => h.regionMem_owned (.inr (.inr ⟨hc, ht, rfl⟩))⟩

end

/-- The counters the consumer does not count in. -/
theorem ConsumerFrame.otherCounts {s t : State} (h : ConsumerFrame s t) :
    t.cnt.rxOk = s.cnt.rxOk ∧ t.cnt.rxFull = s.cnt.rxFull ∧ t.cnt.txOk = s.cnt.txOk ∧
      t.cnt.rxForceClear = s.cnt.rxForceClear := by
  rw [h.counts]
  exact ⟨rfl, rfl, rfl, rfl⟩

/-- The counters TX.SEND does not count in. -/
theorem SendFrame.otherCounts {s t : State} (h : SendFrame s t) :
    t.cnt.rxOk = s.cnt.rxOk ∧ t.cnt.rxFull = s.cnt.rxFull ∧ t.cnt.rxBadCrc = s.cnt.rxBadCrc ∧
      t.cnt.rxAllocFail = s.cnt.rxAllocFail ∧ t.cnt.rxDeliverFail = s.cnt.rxDeliverFail ∧
      t.cnt.rxForceClear = s.cnt.rxForceClear := by
  rw [h.counts]
  exact ⟨rfl, rfl, rfl, rfl, rfl, rfl⟩

theorem SendFrame.txbuf_of_busy {s t : State} (h : SendFrame s t) (hb : s.txBusy = true) : t.txbuf = s.txbuf := by
  rcases h.idle with hi | hi
  · rw [hb] at hi
    cases hi
  · rw [hi]

/-- The counters the producer does not count in. -/
theorem takeBoundary_otherCounts (s : State) :
    (takeBoundaryInterrupt s).cnt.rxBadCrc = s.cnt.rxBadCrc ∧
      (takeBoundaryInterrupt s).cnt.rxAllocFail = s.cnt.rxAllocFail ∧
      (takeBoundaryInterrupt s).cnt.rxDeliverFail = s.cnt.rxDeliverFail ∧
      (takeBoundaryInterrupt s).cnt.txOk = s.cnt.txOk ∧
      (takeBoundaryInterrupt s).cnt.rxForceClear = s.cnt.rxForceClear := by
  rw [(takeBoundary_frame s).2.1]
  exact ⟨rfl, rfl, rfl, rfl, rfl⟩

/-- Settles O54, instruction by instruction: what its frame lemma lets it change are the fields and regions it is a writer
of. CRC.APPEND is the one for which the frame is not enough: it also leaves the regions DMA agents are at work on. -/
theorem singleWriters : Obligations.SingleWriters := by
  unfold Obligations.SingleWriters
  intro s t i hu e
  cases i with
  | crcAppend r n =>
    obtain ⟨h, hpoll⟩ := execCrcAppend_frame e
    rw [dmaOwns_eq_false_iff] at hpoll
    obtain ⟨htx, hslots, hdummy, hhbuf, hcallers⟩ := h.otherRegions
    have hbusy := h.txbuf_of_busy
    have harmed := h.armedRegion
    rw [h.fields]
    simpa [hu, readByte_slot] using ⟨htx, hbusy, harmed, hslots, hdummy, hhbuf, hcallers, hpoll⟩
  | crcVerify r n =>
    rw [(execCrcVerify_frame e).1]
    simp [hu, readByte_slot]
  | mdioRead a g =>
    obtain ⟨⟨h⟩, hphy, hlink, -⟩ := execMdioRead_frame e
    rw [h]
    simp [hu, readByte_slot, hphy, hlink]
  | mdioReadFrame a g =>
    obtain ⟨⟨h⟩, hphy, hlink, -⟩ := execMdioReadFrame_frame e
    rw [h]
    simp [hu, readByte_slot, hphy, hlink]
  | mdioWrite a g v =>
    obtain ⟨⟨h⟩, hsr, hphy, hlink, -⟩ := execMdioWrite_frame e
    rw [h]
    simp [hu, readByte_slot, hsr, hphy, hlink]
  | mdioWriteFrame a g v =>
    obtain ⟨⟨h⟩, hsr, hphy, hlink, -⟩ := execMdioWriteFrame_frame e
    rw [h]
    simp [hu, readByte_slot, hsr, hphy, hlink]
  | phyScan =>
    obtain ⟨⟨h⟩, hlink, -⟩ := execPhyScan_frame e
    rw [h]
    simp [hu, readByte_slot, hlink]
  | linkPoll =>
    obtain ⟨⟨h⟩, hphy, -⟩ := execLinkPoll_frame e
    rw [h]
    simp [hu, readByte_slot, hphy]
  | statsReport =>
    obtain ⟨h, -, hcnt⟩ := execStatsReport_frame e
    rw [h]
    simpa [hu, readByte_slot, Counters.zero] using hcnt
  | txSend f n =>
    have h : SendFrame s t := execTxSend_frame e
    rw [h.fields]
    simpa [hu, readByte_slot, h.otherCounts] using h.txbuf_of_busy
  | rxConsume =>
    obtain ⟨-, -, e⟩ := asCommand_next e
    have h : ConsumerFrame s t := acquireOrWait_frame e
    have hge : s.sem ≤ t.sem + 1 := Nat.sub_le_iff_le_add.1 h.sem_ge
    rw [h.fields]
    simp [hu, readByte_slot, h.otherCounts, h.sem_le, hge]
  | init c =>
    obtain ⟨hdown, -⟩ := execInit_frame e
    simp [hu] at hdown
  | rxByte b =>
    rcases execRxByte_frame e with rfl | rfl | rfl | rfl
    case inr.inr.inr => simp [hu, writeBytes_captureRegion]
    all_goals simp [hu]
  | rxBoundary =>
    rcases execRxBoundary_frame e with rfl | rfl | rfl | rfl
    case inr.inr.inr =>
      obtain ⟨h, -, hsem⟩ := takeBoundary_frame { s with rxSeq := .wait, rxIrq := true, env := s.env.drawTurn.2 }
      rw [h]
      simpa [hu, readByte_slot, takeBoundary_otherCounts] using hsem
    all_goals simp [hu, readByte_slot]
  | txDmaByte =>
    rw [(execTxDmaByte_frame e).1]
    simp [hu, readByte_slot]

end Sys2Proof.Machine
end

section
/-! SUPPORT. The statements about memory and its interleaving (20_memory.md): the consumer overtaken while it holds a slot, and
the records that run inside an operation of POLL. -/

open Sys2Proof Sys2Proof.Machine
namespace Sys2Proof.Machine

/-! ### The overtaken consumer -/

/-- RX.CONSUME from between operations, with a permit. -/
theorem exec_rxConsume_permit {s : State} (hu : s.up = true) (hp : s.poll = .ready) (hs : s.sem ≠ 0) :
    exec .rxConsume s = afterAcquire (semAcquire s) :=
  (asCommand_ready hu hp _).trans (if_neg hs)

theorem afterAcquire_overtaken {s : State} (ht : s.env.drawTurn.1 = true) :
    afterAcquire s = .next (withEnv s.env.drawTurn.2 { s with poll := .claimed }) :=
  if_pos ht

theorem afterAcquire_undisturbed {s : State} (ht : s.env.drawTurn.1 = false) :
    afterAcquire s = consumeClaimed (withEnv s.env.drawTurn.2 { s with poll := .claimed }) :=
  if_neg (by simp [ht])

/-- A step in which the consumer goes on with the slot it holds. -/
theorem step_claimed {s : State} {e : Env} (hp : s.poll = .claimed) (hm : pollMoves s e) :
    step s = consumeClaimed (withEnv e s) := by
  rw [step_pollMoves hm]
  simp only [resumePoll, withEnv_fields, hp]

/-- The call that reaches a held slot `s` with the answers `e` left: the permit still there, and the turn then refused to the
other agents. -/
def beforeAcquire (s : State) (e : Env) : State :=
  { s with poll := .ready, sem := s.sem + 1, env := { e with turns := false :: e.turns } }

/-- The acquire of that call leads to `s`. -/
theorem beforeAcquire_acquired {s : State} (hp : s.poll = .claimed) (e : Env) :
    withEnv (semAcquire (beforeAcquire s e)).env.drawTurn.2 { semAcquire (beforeAcquire s e) with poll := .claimed } =
      withEnv e s := by
  rw [← hp]
  rfl

/-- Settles O43: the acquire takes the permit and then the turn decides; with the permit given back and the turn refused, the
call comes to the slot that the overtaken consumer holds. -/
theorem consumeSuspended : Obligations.ConsumeSuspended := by
  unfold Obligations.ConsumeSuspended
  refine fun s hu => ⟨fun hp hs ht => ?_, fun e hp hm => ?_⟩
  · exact (exec_rxConsume_permit hu hp hs).trans (afterAcquire_overtaken (s := semAcquire s) ht)
  · calc step s
        = consumeClaimed (withEnv e s) := step_claimed hp hm
      _ = afterAcquire (semAcquire (beforeAcquire s e)) := by
          rw [afterAcquire_undisturbed (s := semAcquire (beforeAcquire s e)) rfl, beforeAcquire_acquired hp]
      _ = exec .rxConsume (beforeAcquire s e) :=
          (exec_rxConsume_permit (s := beforeAcquire s e) hu rfl (Nat.succ_ne_zero s.sem)).symm

/-! ### Records that run inside an operation -/

theorem isEvent_iff (r : List Byte) : isEvent r = true ↔ hasEventSelector r := by
  cases r <;> simp [isEvent, hasEventSelector, exists_or]

theorem isTxSend_iff (r : List Byte) : isTxSend r = true ↔ hasSendSelector r := by
  cases r <;> simp [isTxSend, hasSendSelector]

/-- Inside an operation the events run, and TX.SEND inside a delivery (10_state.md R55). -/
theorem admits_inside_iff {p : Poll} (hp : p ≠ .ready) (r : List Byte) :
    admits p r = true ↔ hasEventSelector r ∨ hasSendSelector r ∧ ∃ n, p = .delivering n := by
  cases p with
  | ready => exact absurd rfl hp
  | delivering n => simp [admits, isEvent_iff, isTxSend_iff]
  | semWait | claimed | reporting | txWait | appendWait => simp [admits, isEvent_iff]

/-- The first admitted record is taken out; the ones before it stay in order (log 5). -/
theorem takeAdmitted_append {p : Poll} {before : List (List Byte)} {r : List Byte} (hb : ∀ x ∈ before, ¬ admits p x = true)
    (hr : admits p r = true) (after : List (List Byte)) :
    takeAdmitted p (before ++ r :: after) = some (r, before ++ after) := by
  induction before with
  | nil => exact if_pos hr
  | cons x xs ih =>
    obtain ⟨hx, hxs⟩ := List.forall_mem_cons.1 hb
    simp [takeAdmitted, hx, ih hxs]

/-- A record that decodes begins with its operation's selector. -/
theorem eq_selector_cons_of_decode {r : List Byte} {i : Instr} (h : decode r = .ok i) : ∃ rest, r = selector i :: rest := by
  cases r with
  | nil => exact absurd h (decode_nil i)
  | cons sel rest => exact ⟨rest, by rw [decode_selector h]⟩

theorem runRecord_decoded {r : List Byte} {i : Instr} (h : decode r = .ok i) (s : State) : runRecord r s = exec i s := by
  simp only [runRecord, h]

/-- A step inside an operation in which the first admitted record's agent has the turn. -/
theorem step_runsAdmitted {s : State} {e : Env} {r : List Byte} {rest : List (List Byte)} (hp : s.poll ≠ .ready)
    (hw : interruptWaits s e) (ha : takeAdmitted s.poll s.env.requests = some (r, rest)) (ht : e.drawTurn.1 = true) :
    step s = runRecord r { s with env := { e.drawTurn.2 with requests := rest } } := by
  rw [← interruptWaits_requests hw] at ha
  rw [step_waits hw, stepOther_runs (s := withEnv e s) ha]
  exact (if_neg hp).trans (if_pos ht)

/-- Settles O60: a record's selector is its operation's, so the given record is the first one admitted. -/
theorem stepInsideOperation : Obligations.StepInsideOperation := by
  unfold Obligations.StepInsideOperation
  intro s e before after r i hp hw hreq hd hb hi ht
  have hr : admits s.poll r = true := by
    obtain ⟨rest, rfl⟩ := eq_selector_cons_of_decode hd
    rw [admits_inside_iff hp]
    rcases hi with ⟨b, rfl⟩ | rfl | rfl | ⟨⟨f, n, rfl⟩, hn⟩
    · exact .inl ⟨rest, .inl rfl⟩
    · exact .inl ⟨rest, .inr (.inl rfl)⟩
    · exact .inl ⟨rest, .inr (.inr rfl)⟩
    · exact .inr ⟨⟨rest, rfl⟩, hn⟩
  have hpass : ∀ x ∈ before, ¬ admits s.poll x = true := by
    intro x hx
    obtain ⟨hevent, hsend⟩ := hb x hx
    rw [admits_inside_iff hp]
    rintro (h | ⟨h, n, hn⟩)
    · exact hevent h
    · exact hsend h n hn
  have ha : takeAdmitted s.poll s.env.requests = some (r, before ++ after) := by
    rw [hreq]
    exact takeAdmitted_append hpass hr after
  rw [step_runsAdmitted hp hw ha ht, runRecord_decoded hd]

end Sys2Proof.Machine
end

section
/-! SUPPORT. The statements about records (30_encoding.md R102 to R113): decoding what was encoded, the frame word W, and what is
refused. -/

open Sys2Proof Sys2Proof.Machine
namespace Sys2Proof

/-! ### Parsing goes on, or stops -/

@[simp] theorem Parsed.andThen_read {α β : Type} (a : α) (rest : List Byte) (k : α → List Byte → Parsed β) :
    Parsed.andThen (.ok (a, rest)) k = k a rest := rfl

@[simp] theorem Parsed.andThen_error {α β : Type} (x : DecodeError) (k : α → List Byte → Parsed β) :
    Parsed.andThen (.error x) k = .error x := rfl

theorem decode_of_parse {r : List Byte} {i : Instr} (h : parse r = .ok (i, [])) : decode r = .ok i := by
  simp only [decode, h]

theorem decode_of_parse_error {r : List Byte} {x : DecodeError} (h : parse r = .error x) : decode r = .error x := by
  simp only [decode, h]

theorem parse_cmd {sel : Byte} (h : sel ≠ preambleByte) (r : List Byte) : parse (sel :: r) = parseCmd sel.toNat r :=
  if_neg h

/-! ### Decoding what was encoded -/

/-- A command's operands end where they say: what follows them is left. -/
theorem parseCmd_operandBytes {i : Instr} (hs : selector i ≠ preambleByte) (h : i.wf = true) (rest : List Byte) :
    parseCmd (selector i).toNat (operandBytes i ++ rest) = .ok (i, rest) := by
  cases i with
  | crcAppend buf n | crcVerify buf n =>
    obtain ⟨hbuf, hn⟩ : buf.wf = true ∧ n < wordBound := by simpa [Instr.wf] using h
    simp [selector, operandBytes, parseCmd, readRegion_words _ hbuf, readWord_word _ _ hn, done]
  | mdioRead | mdioWrite | rxByte => simp [selector, operandBytes, parseCmd, readBits_word, done]
  | txSend fs n =>
    obtain ⟨⟨hn, hk⟩, hfs⟩ : (n < wordBound ∧ fs.length < wordBound) ∧ ∀ f ∈ fs, f.length < wordBound := by
      simpa [Instr.wf] using h
    simp [selector, operandBytes, parseCmd, readWord_word _ _ hn, readWord_word _ _ hk, readFrags_bytes _ hfs, done]
  | init c =>
    obtain ⟨hlegal, hfits⟩ : c.legal = true ∧ c.fits = true := by simpa [Instr.wf] using h
    simp [selector, operandBytes, parseCmd, readCfg_words _ hlegal hfits, done]
  | phyScan | linkPoll | statsReport | rxConsume | rxBoundary | txDmaByte => rfl
  | mdioReadFrame | mdioWriteFrame => exact absurd rfl hs

theorem decode_encode_cmd {i : Instr} (hs : selector i ≠ preambleByte) (h : i.wf = true) : decode (encode i) = .ok i := by
  apply decode_of_parse
  rw [encode, parse_cmd hs, ← List.append_nil (operandBytes i), parseCmd_operandBytes hs h]

/-! ### The fields of W -/

theorem readFrameWord_fields (a g : U5) :
    (readFrameWord a g).extractLsb' 30 2 = 0b01#2 ∧ (readFrameWord a g).extractLsb' 28 2 = 0b10#2 ∧
      (readFrameWord a g).extractLsb' 23 5 = a ∧ (readFrameWord a g).extractLsb' 18 5 = g := by
  have h (st op : BitVec 2) (tail : BitVec 18) :
      (st ++ op ++ a ++ g ++ tail).extractLsb' 30 2 = st ∧ (st ++ op ++ a ++ g ++ tail).extractLsb' 28 2 = op ∧
        (st ++ op ++ a ++ g ++ tail).extractLsb' 23 5 = a ∧ (st ++ op ++ a ++ g ++ tail).extractLsb' 18 5 = g := by
    simp only [BitVec.extractLsb'_append_eq_of_le, BitVec.extractLsb'_append_eq_of_add_le, BitVec.extractLsb'_eq_self,
      Nat.reduceLeDiff, Nat.reduceSub, and_self]
  exact h _ _ _

theorem writeFrameWord_fields (a g : U5) (v : Half) :
    (writeFrameWord a g v).extractLsb' 30 2 = 0b01#2 ∧ (writeFrameWord a g v).extractLsb' 28 2 = 0b01#2 ∧
      (writeFrameWord a g v).extractLsb' 23 5 = a ∧ (writeFrameWord a g v).extractLsb' 18 5 = g ∧
      (writeFrameWord a g v).extractLsb' 16 2 = 0b10#2 ∧ (writeFrameWord a g v).extractLsb' 0 16 = v := by
  have h (st op ta : BitVec 2) :
      (st ++ op ++ a ++ g ++ ta ++ v).extractLsb' 30 2 = st ∧ (st ++ op ++ a ++ g ++ ta ++ v).extractLsb' 28 2 = op ∧
        (st ++ op ++ a ++ g ++ ta ++ v).extractLsb' 23 5 = a ∧ (st ++ op ++ a ++ g ++ ta ++ v).extractLsb' 18 5 = g ∧
        (st ++ op ++ a ++ g ++ ta ++ v).extractLsb' 16 2 = ta ∧ (st ++ op ++ a ++ g ++ ta ++ v).extractLsb' 0 16 = v := by
    simp only [BitVec.extractLsb'_append_eq_of_le, BitVec.extractLsb'_append_eq_of_add_le, BitVec.extractLsb'_eq_self,
      Nat.reduceLeDiff, Nat.reduceSub, and_self]
  exact h _ _ _

/-- The mask of R111 leaves ST and OP of a read word. -/
theorem readFrameWord_and_mask (a g : U5) : readFrameWord a g &&& 0xF0000000#32 = 0x60000000#32 := by
  have h : (0b01#2 ++ 0b10#2 ++ a ++ g ++ 0#18) &&& (0b11#2 ++ 0b11#2 ++ 0#5 ++ 0#5 ++ 0#18) =
      0b01#2 ++ 0b10#2 ++ 0#5 ++ 0#5 ++ 0#18 := by
    simp only [BitVec.and_append, BitVec.and_zero]
    rfl
  exact h

/-- The mask of R111 leaves ST, OP and the turnaround of a write word. -/
theorem writeFrameWord_and_mask (a g : U5) (v : Half) : writeFrameWord a g v &&& 0xF0030000#32 = 0x50020000#32 := by
  have h : (0b01#2 ++ 0b01#2 ++ a ++ g ++ 0b10#2 ++ v) &&& (0b11#2 ++ 0b11#2 ++ 0#5 ++ 0#5 ++ 0b11#2 ++ 0#16) =
      0b01#2 ++ 0b01#2 ++ 0#5 ++ 0#5 ++ 0b10#2 ++ 0#16 := by
    simp only [BitVec.and_append, BitVec.and_zero]
    rfl
  exact h

/-- A write word matches no read pattern: its OP is 01. -/
theorem writeFrameWord_and_readMask (a g : U5) (v : Half) : writeFrameWord a g v &&& 0xF0000000#32 ≠ 0x60000000#32 := by
  have h : (0b01#2 ++ 0b01#2 ++ a ++ g ++ 0b10#2 ++ v) &&& (0b11#2 ++ 0b11#2 ++ 0#5 ++ 0#5 ++ 0#2 ++ 0#16) =
      0b01#2 ++ 0b01#2 ++ 0#5 ++ 0#5 ++ 0#2 ++ 0#16 := by
    simp only [BitVec.and_append, BitVec.and_zero]
    rfl
  exact ne_of_eq_of_ne h (by decide)

/-- What the decoder makes of 32 preamble cells and W (R111, R112). -/
theorem decode_frame (w : Word) : decode (List.replicate 4 0xFF#8 ++ wireBytes w) =
    if w &&& 0xF0000000#32 = 0x60000000#32 then .ok (.mdioReadFrame (w.extractLsb' 23 5) (w.extractLsb' 18 5))
    else if w &&& 0xF0030000#32 = 0x50020000#32 then
      .ok (.mdioWriteFrame (w.extractLsb' 23 5) (w.extractLsb' 18 5) (w.extractLsb' 0 16))
    else .error .frameNeverGenerated := by
  rw [decode, parse_frame, frameOfWord]
  split_ifs <;> rfl

theorem decode_encode_readFrame (a g : U5) : decode (encode (.mdioReadFrame a g)) = .ok (.mdioReadFrame a g) := by
  obtain ⟨-, -, ha, hg⟩ := readFrameWord_fields a g
  have h := decode_frame (readFrameWord a g)
  rwa [if_pos (readFrameWord_and_mask a g), ha, hg] at h

theorem decode_encode_writeFrame (a g : U5) (v : Half) :
    decode (encode (.mdioWriteFrame a g v)) = .ok (.mdioWriteFrame a g v) := by
  obtain ⟨-, -, ha, hg, -, hv⟩ := writeFrameWord_fields a g v
  have h := decode_frame (writeFrameWord a g v)
  rwa [if_neg (writeFrameWord_and_readMask a g v), if_pos (writeFrameWord_and_mask a g v), ha, hg, hv] at h

/-- Settles O1: a command's operands are read back one by one, and a frame's fields from its word W. -/
theorem decodeOfEncode : Obligations.DecodeOfEncode := by
  unfold Obligations.DecodeOfEncode
  intro i h
  cases i with
  | mdioReadFrame a g => exact decode_encode_readFrame a g
  | mdioWriteFrame a g v => exact decode_encode_writeFrame a g v
  | _ => exact decode_encode_cmd (by simp [selector, preambleByte]) h

/-- Settles O5: the masks keep fixed fields of W, and the decoder tests nothing else. -/
theorem framePatterns : Obligations.FramePatterns := by
  unfold Obligations.FramePatterns
  exact ⟨readFrameWord_and_mask, writeFrameWord_and_mask, decode_frame⟩

/-- Settles O2, by running the decoder. -/
theorem tableWordsDecode : Obligations.TableWordsDecode := by
  unfold Obligations.TableWordsDecode
  exact ⟨rfl, rfl, rfl, rfl, rfl, rfl, rfl, rfl⟩

/-! ### Reserved selectors, and operands outside their type -/

theorem runRecord_undecoded {r : List Byte} {x : DecodeError} (h : decode r = .error x) (s : State) :
    runRecord r s = .refused (undecodable x) := by
  simp only [runRecord, h]

/-- The selectors of format CMD (R102). -/
def listedSelectors : List Byte :=
  [0x01#8, 0x02#8, 0x03#8, 0x04#8, 0x05#8, 0x06#8, 0x07#8, 0x08#8, 0x09#8, 0x0A#8, 0x10#8, 0x11#8, 0x12#8]

/-- A record of format CMD whose selector R102 does not list. -/
theorem parseCmd_reserved {sel : Byte} (r : List Byte) (h : sel ∉ listedSelectors) :
    parseCmd sel.toNat r = .error (.reservedSelector sel.toNat) := by
  have hsel : ∀ k : Nat, sel.toNat = k → sel = BitVec.ofNat 8 k := by
    rintro k rfl
    simp
  unfold parseCmd
  split
  case h_14 => rfl
  all_goals
    next hk =>
    rw [hsel _ hk] at h
    exact absurd h (by decide)

/-- A record that begins with 0xFF and does not go on as a whole frame (log 2). -/
theorem parseFrame_reserved {r : List Byte} (h : ¬ (r.take 3 = [0xFF#8, 0xFF#8, 0xFF#8] ∧ 7 ≤ r.length)) :
    parseFrame r = .error (.reservedSelector 0xFF) := by
  unfold parseFrame
  split
  · exact if_neg (by simpa using h)
  · rfl

theorem decode_reserved {sel : Byte} {rest : List Byte} (h : sel ∉ listedSelectors)
    (hf : ¬ (sel = 0xFF#8 ∧ rest.take 3 = [0xFF#8, 0xFF#8, 0xFF#8] ∧ 7 ≤ rest.length)) :
    decode (sel :: rest) = .error (.reservedSelector sel.toNat) := by
  apply decode_of_parse_error
  by_cases hs : sel = preambleByte
  · subst hs
    exact parseFrame_reserved fun hr => hf ⟨rfl, hr⟩
  · rw [parse_cmd hs, parseCmd_reserved rest h]

/-- A number above the operand's type is refused where it is read; a number within it leaves the refusal to what
follows (R113). -/
theorem readBits_andThen_outOfType {w n : Nat} {rest : List Byte} {α : Type} {k : BitVec w → List Byte → Parsed α}
    (hn : n < 2 ^ 32) (hk : n < 2 ^ w → k (BitVec.ofNat w n) rest = .error .operandOutOfType) :
    (readBits w (word n ++ rest)).andThen k = .error .operandOutOfType := by
  rw [readBits, readWord_word n rest hn, Parsed.andThen_read]
  split
  · next hw => exact hk hw
  · rfl

theorem decode_mdioRead_outOfType {a g : Nat} (ha : a < 2 ^ 32) (hg : g < 2 ^ 32) (h : 31 < a ∨ 31 < g) :
    decode (0x03#8 :: (word a ++ word g)) = .error .operandOutOfType := by
  apply decode_of_parse_error
  rw [parse_cmd (by decide), ← List.append_nil (word g)]
  exact readBits_andThen_outOfType ha fun ha5 => readBits_andThen_outOfType hg fun hg5 => by omega

theorem decode_mdioWrite_outOfType {a g v : Nat} (ha : a < 2 ^ 32) (hg : g < 2 ^ 32) (hv : v < 2 ^ 32)
    (h : 31 < a ∨ 31 < g ∨ 0xFFFF < v) : decode (0x04#8 :: (word a ++ word g ++ word v)) = .error .operandOutOfType := by
  apply decode_of_parse_error
  rw [parse_cmd (by decide), ← List.append_nil (word v), List.append_assoc]
  exact readBits_andThen_outOfType ha fun ha5 => readBits_andThen_outOfType hg fun hg5 =>
    readBits_andThen_outOfType hv fun hv16 => by omega

theorem decode_rxByte_outOfType {b : Nat} (hb : b < 2 ^ 32) (h : 0xFF < b) :
    decode (0x10#8 :: word b) = .error .operandOutOfType := by
  apply decode_of_parse_error
  rw [parse_cmd (by decide), ← List.append_nil (word b)]
  exact readBits_andThen_outOfType hb fun hb8 => by omega

/-- Settles O3: a reserved selector is no arm of the decoder, and an operand above its type is refused where it is read. -/
theorem reservedEncodingsRefused : Obligations.ReservedEncodingsRefused := by
  unfold Obligations.ReservedEncodingsRefused
  exact ⟨fun _ _ s h hf => runRecord_undecoded (decode_reserved h hf) s,
    fun _ _ s ha hg h => runRecord_undecoded (decode_mdioRead_outOfType ha hg h) s,
    fun _ _ _ s ha hg hv h => runRecord_undecoded (decode_mdioWrite_outOfType ha hg hv h) s,
    fun _ s hb h => runRecord_undecoded (decode_rxByte_outOfType hb h) s⟩

end Sys2Proof
end

section
/-! SUPPORT. The statements about the cells of the two MDIO frames (30_encoding.md R104 to R106), and about the step between
operations (R117). -/

open Sys2Proof Sys2Proof.Machine
namespace Sys2Proof.Machine

/-! ### The cells of a frame are the preamble and the bits of W -/

theorem msbFirst_append {v w : Nat} (x : BitVec v) (y : BitVec w) : msbFirst (x ++ y) = msbFirst x ++ msbFirst y := by
  have hx : ∀ k ∈ List.range v, (x ++ y).getLsbD (v + w - 1 - k) = x.getLsbD (v - 1 - k) := by
    intro k hk
    have hk : k < v := List.mem_range.1 hk
    rw [BitVec.getLsbD_append, if_neg (by omega), show v + w - 1 - k - w = v - 1 - k by omega]
  have hy : ∀ k ∈ List.range w, (x ++ y).getLsbD (v + w - 1 - (v + k)) = y.getLsbD (w - 1 - k) := by
    intro k hk
    have hk : k < w := List.mem_range.1 hk
    rw [BitVec.getLsbD_append, if_pos (by omega), show v + w - 1 - (v + k) = w - 1 - k by omega]
  simp only [msbFirst, List.range_add, List.map_append, List.map_map, Function.comp_def]
  rw [List.map_congr_left hx, List.map_congr_left hy]

theorem msbFirst_getElem? {w k : Nat} (x : BitVec w) (hk : k < w) : (msbFirst x)[k]? = some (x.getLsbD (w - 1 - k)) := by
  simp [msbFirst, hk]

theorem preamble_getElem? {l : List Bool} {k : Nat} (hk : k < 32) : (List.replicate 32 true ++ l)[k]? = some true := by
  rw [List.getElem?_append_left (by simpa using hk), List.getElem?_replicate_of_lt hk]

/-- Cell 32 + k is W[31 - k] (R105). -/
theorem wordCell_getElem? (w : Word) {k : Nat} (hk : k < 32) :
    (List.replicate 32 true ++ msbFirst w)[32 + k]? = some (w.getLsbD (31 - k)) := by
  rw [List.getElem?_append_right (by simp), List.length_replicate, Nat.add_sub_cancel_left, msbFirst_getElem? w hk]

theorem writeCells_eq (a g : U5) (v : Half) :
    writeCells a g v = List.replicate 32 true ++ msbFirst (writeFrameWord a g v) := by
  have h : msbFirst (0b01#2 ++ 0b01#2 ++ a ++ g ++ 0b10#2 ++ v) =
      [false, true] ++ [false, true] ++ msbFirst a ++ msbFirst g ++ [true, false] ++ msbFirst v := by
    simp only [msbFirst_append]
    rfl
  exact (congrArg (List.replicate 32 true ++ ·) h).symm

/-- The driven cells of a read are the first ones of its W. -/
theorem readHead_append (a g : U5) :
    readHead a g ++ List.replicate 18 false = List.replicate 32 true ++ msbFirst (readFrameWord a g) := by
  have h : msbFirst (0b01#2 ++ 0b10#2 ++ a ++ g ++ 0#18) =
      [false, true] ++ [true, false] ++ msbFirst a ++ msbFirst g ++ List.replicate 18 false := by
    simp only [msbFirst_append]
    rfl
  exact (congrArg (List.replicate 32 true ++ ·) h).symm

theorem writeCells_word (a g : U5) (v : Half) {k : Nat} (hk : k < 32) :
    (writeCells a g v)[32 + k]? = some ((writeFrameWord a g v).getLsbD (31 - k)) := by
  rw [writeCells_eq, wordCell_getElem? _ hk]

theorem readHead_word (a g : U5) {k : Nat} (hk : k < 14) :
    (readHead a g)[32 + k]? = some ((readFrameWord a g).getLsbD (31 - k)) := by
  rw [← wordCell_getElem? _ (show k < 32 by omega), ← readHead_append,
    List.getElem?_append_left (by rw [readHead_length]; omega)]

/-- Settles O4: a frame's cells after the preamble are the bits of W, highest first. -/
theorem frameWordFields : Obligations.FrameWordFields := by
  unfold Obligations.FrameWordFields
  exact ⟨readFrameWord_fields, writeFrameWord_fields, fun a g _ hk => readHead_word a g hk,
    fun a g v _ hk => writeCells_word a g v hk⟩

/-! ### The fields of a frame in its cells -/

theorem getElem?_append_of_eq_some {α : Type} {l : List α} {k : Nat} {b : α} (h : l[k]? = some b) (l' : List α) :
    (l ++ l')[k]? = some b := by
  obtain ⟨hk, -⟩ := List.getElem?_eq_some_iff.1 h
  rw [List.getElem?_append_left hk, h]

theorem frameHead_preamble (op : List Bool) (a g : U5) {k : Nat} (hk : k < 32) : (frameHead op a g)[k]? = some true := by
  simp only [frameHead, List.append_assoc]
  exact preamble_getElem? hk

section
variable {op : List Bool} (hop : op.length = 2) (a g : U5) {i : Nat} (hi : i < 5)
include hop hi

theorem frameHead_address : (frameHead op a g)[36 + i]? = some (a.getLsbD (4 - i)) := by
  have hl : (List.replicate 32 true ++ [false, true] ++ op).length = 36 := by simp [hop]
  refine getElem?_append_of_eq_some ?_ (msbFirst g)
  rw [List.getElem?_append_right (by omega), hl, Nat.add_sub_cancel_left, msbFirst_getElem? a hi]

theorem frameHead_register : (frameHead op a g)[41 + i]? = some (g.getLsbD (4 - i)) := by
  have hl : (List.replicate 32 true ++ [false, true] ++ op ++ msbFirst a).length = 41 := by simp [hop, msbFirst]
  rw [frameHead, List.getElem?_append_right (by omega), hl, Nat.add_sub_cancel_left, msbFirst_getElem? g hi]

end

theorem readCells_length (a g : U5) (e : Env) : (readCells a g e).length = 64 := by
  simp [readCells, readHead_length]

theorem readCells_driven {a g : U5} {k : Nat} {b : Bool} (h : (readHead a g)[k]? = some b) (e : Env) :
    (readCells a g e)[k]? = some (.drive b) :=
  getElem?_append_of_eq_some (by rw [List.getElem?_map, h]; rfl) _

/-- The last 18 cells of a read are the PHY's. -/
theorem readCells_released (a g : U5) (e : Env) {k : Nat} (hk : k < 18) :
    (readCells a g e)[46 + k]? = some (.release ((levels 18 e).getD k false)) := by
  have hl : ((readHead a g).map CellLevel.drive).length = 46 := by simp [readHead_length]
  rw [readCells, List.getElem?_append_right (by omega), hl, Nat.add_sub_cancel_left]
  simp [hk]

/-- The 16 data cells of a read are the answer's bits, highest first. -/
theorem readCells_data (a g : U5) (e : Env) {i : Nat} (hi : i < 16) :
    (readCells a g e)[48 + i]? = some (.release ((readAnswer e).getLsbD (15 - i))) := by
  rw [readAnswer_bit e _ (by omega), show 17 - (15 - i) = 2 + i by omega, ← readCells_released a g e (by omega)]
  congr 1
  omega

theorem writeCells_frameHead {a g : U5} {k : Nat} {b : Bool} (h : (frameHead [false, true] a g)[k]? = some b) (v : Half) :
    (writeCells a g v)[k]? = some b :=
  getElem?_append_of_eq_some (getElem?_append_of_eq_some h _) _

theorem writeCells_data (a g : U5) (v : Half) {i : Nat} (hi : i < 16) :
    (writeCells a g v)[48 + i]? = some (v.getLsbD (15 - i)) := by
  have hl : (frameHead [false, true] a g ++ [true, false]).length = 48 := by simp [frameHead, msbFirst]
  rw [writeCells, List.getElem?_append_right (by omega), hl, Nat.add_sub_cancel_left, msbFirst_getElem? v hi]

/-- Settles O17: both frames begin with the same head; a read then releases 18 cells, a write drives 10 and the value. -/
theorem frameCells : Obligations.FrameCells := by
  unfold Obligations.FrameCells
  refine ⟨fun a g e => ?_, fun a g v => ?_⟩
  · exact ⟨readCells_length a g e, fun k hk => readCells_driven (frameHead_preamble _ a g hk) e, rfl, rfl, rfl, rfl,
      fun i hi => readCells_driven (frameHead_address rfl a g hi) e,
      fun i hi => readCells_driven (frameHead_register rfl a g hi) e,
      fun i hi => ⟨_, readCells_released a g e (by omega)⟩, fun i hi => readCells_data a g e hi⟩
  · exact ⟨writeCells_length a g v, fun k hk => writeCells_frameHead (frameHead_preamble _ a g hk) v, rfl, rfl, rfl, rfl,
      fun i hi => writeCells_frameHead (frameHead_address rfl a g hi) v,
      fun i hi => writeCells_frameHead (frameHead_register rfl a g hi) v, rfl, rfl, fun i hi => writeCells_data a g v hi⟩

/-! ### The wire frames as instructions -/

theorem whenMdioIdle_idle {s : State} (h : s.mdioCell = 64) (k : Outc) : whenMdioIdle s k = k :=
  if_pos h

section
variable {s : State} (hu : s.up = true) (hp : s.poll = .ready) (hc : s.mdioCell = 64) (a g : U5)
include hu hp hc

theorem exec_mdioReadFrame : exec (.mdioReadFrame a g) s = .next (mdioReadTransaction a g s) :=
  (asCommand_ready hu hp _).trans (whenMdioIdle_idle hc _)

theorem exec_mdioWriteFrame (v : Half) : exec (.mdioWriteFrame a g v) s = .next (mdioWriteTransaction a g v s) :=
  (asCommand_ready hu hp _).trans (whenMdioIdle_idle hc _)

end

/-- Settles O20: the frames are the transactions of MDIO.READ and MDIO.WRITE, in closed form. -/
theorem wireFrameResults : Obligations.WireFrameResults := by
  unfold Obligations.WireFrameResults
  intro s a g v hu hp hc
  rw [exec_mdioReadFrame hu hp hc, exec_mdioWriteFrame hu hp hc, mdioReadTransaction_closed, mdioWriteTransaction_eq]
  exact ⟨rfl, rfl⟩

/-! ### The step between operations -/

/-- A step in which the poll loop goes on (30_encoding.md R117). -/
theorem step_pollLoop {s : State} {e : Env} (hu : s.up = true) (hp : s.poll = .ready) (hm : pollMoves s e) :
    step s = pollLoop (withEnv e s) :=
  (step_pollMoves hm).trans (resumePoll_loop (s := withEnv e s) hu hp)

theorem pollLoop_elapsed {s : State} (hl : s.loop = .service) (hi : s.env.drawInterval.1 = true) :
    pollLoop s = exec .linkPoll { s with loop := .report, env := s.env.drawInterval.2 } := by
  simp [pollLoop, hl, hi, withEnv]

theorem pollLoop_notElapsed {s : State} (hl : s.loop = .service) (hi : s.env.drawInterval.1 = false) :
    pollLoop s = exec .rxConsume { s with loop := .service, env := s.env.drawInterval.2 } := by
  simp [pollLoop, hl, hi, withEnv]

theorem pollLoop_report {s : State} (hl : s.loop = .report) :
    pollLoop s = exec .statsReport { s with loop := .consume } := by
  simp only [pollLoop, hl]

theorem pollLoop_consume {s : State} (hl : s.loop = .consume) :
    pollLoop s = exec .rxConsume { s with loop := .service } := by
  simp only [pollLoop, hl]

/-- Settles O58: such a step is the loop's next operation, by where the loop stands. (`pollLoop` is the model's.) -/
theorem pollLoop_nextOperation : Obligations.PollLoop := by
  unfold Obligations.PollLoop
  intro s e hu hp hm
  rw [step_pollLoop hu hp hm]
  exact ⟨pollLoop_elapsed (s := withEnv e s), pollLoop_notElapsed (s := withEnv e s),
    pollLoop_report (s := withEnv e s), pollLoop_consume (s := withEnv e s)⟩

/-- A step between operations, with a request: the first one runs. -/
theorem step_runsFirst {s : State} {e : Env} {r : List Byte} {rs : List (List Byte)} (hp : s.poll = .ready)
    (hw : interruptWaits s e) (hr : s.env.requests = r :: rs) :
    step s = runRecord r { s with env := { e with requests := rs } } := by
  have ha : takeAdmitted s.poll e.requests = some (r, rs) := by
    rw [interruptWaits_requests hw, hr, hp]
    rfl
  rw [step_waits hw, stepOther_runs (s := withEnv e s) ha]
  exact if_pos hp

/-- Before INIT no interrupt is taken (60_exceptions.md R267), so a step with no request has nothing to do. -/
theorem step_beforeInit {s : State} (hp : s.poll = .ready) (hr : s.env.requests = []) (hu : s.up = false) :
    step s = .next s := by
  have hw : interruptWaits s s.env := .inl ⟨by simp [irqPending, hu], rfl⟩
  have ha : takeAdmitted s.poll s.env.requests = none := by
    rw [hr]
    rfl
  calc step s
      = stepOther s := step_waits hw
    _ = resumePoll s := stepOther_none ha
    _ = .next s := by simp [resumePoll, hp, hu]

/-- Settles O59: between operations every record is admitted, so the first one runs as it decodes. -/
theorem stepRunsDecodedRecord : Obligations.StepRunsDecodedRecord := by
  unfold Obligations.StepRunsDecodedRecord
  intro s e hp hw
  refine ⟨fun r rs i hr hd => ?_, fun r rs x hr hd => ?_, step_beforeInit hp⟩
  · rw [step_runsFirst hp hw hr, runRecord_decoded hd]
  · rw [step_runsFirst hp hw hr, runRecord_undecoded hd]

end Sys2Proof.Machine
end

section
/-! SUPPORT. The statements about the CRC engine (40_crc.md): the byte step and the residue, CRC.APPEND, CRC.VERIFY, and the two
together. -/

open Sys2Proof Sys2Proof.Machine
namespace Sys2Proof.Machine

/-! ### The byte step takes a word apart -/

theorem byte_ushiftRight_eight (b : Byte) : (b.setWidth 32 : Word) >>> 8 = 0#32 := by
  rw [← BitVec.setWidth_ushiftRight (by omega), BitVec.ushiftRight_eq_zero (Nat.le_refl 8), BitVec.setWidth_zero]

/-- A word is its lowest byte and the rest, which eight iterations only shift out. -/
theorem crcBits_lowByte_cleared (f : Word) : crcBits 8 (f ^^^ (f.extractLsb' 0 8).setWidth 32) = f >>> 8 := by
  have hlow : ∀ i, i < 8 → (f ^^^ (f.extractLsb' 0 8).setWidth 32).getLsbD i = false := by
    intro i hi
    simp [hi, show i < 32 by omega]
  rw [crcBits_shift 8 _ hlow, BitVec.ushiftRight_xor_distrib, byte_ushiftRight_eight, BitVec.xor_zero]

/-- Eight iterations absorb the lowest byte of a word as the byte step does, and shift the rest down. -/
theorem crcBits_eight (c f : Word) : crcBits 8 (c ^^^ f) = crcStep c (f.extractLsb' 0 8) ^^^ (f >>> 8) := by
  calc crcBits 8 (c ^^^ f)
      = crcBits 8 ((c ^^^ (f.extractLsb' 0 8).setWidth 32) ^^^ (f ^^^ (f.extractLsb' 0 8).setWidth 32)) := by
        congr 1
        generalize ((f.extractLsb' 0 8).setWidth 32 : Word) = x
        rw [show c ^^^ x ^^^ (f ^^^ x) = c ^^^ f ^^^ (x ^^^ x) by ac_rfl, BitVec.xor_self, BitVec.xor_zero]
    _ = crcStep c (f.extractLsb' 0 8) ^^^ (f >>> 8) := by rw [crcBits_xor, crcBits_lowByte_cleared]; rfl

/-- 40_crc.md R133, for every register value and byte. -/
theorem crcStep_table (c : Word) (b : Byte) :
    crcStep c b = crcTable ((c ^^^ b.setWidth 32).extractLsb' 0 8) ^^^ (c >>> 8) := by
  have hshift : (c ^^^ b.setWidth 32) >>> 8 = c >>> 8 := by
    rw [BitVec.ushiftRight_xor_distrib, byte_ushiftRight_eight, BitVec.xor_zero]
  calc crcStep c b
      = crcBits 8 (0#32 ^^^ (c ^^^ b.setWidth 32)) := by rw [BitVec.zero_xor]; rfl
    _ = crcTable ((c ^^^ b.setWidth 32).extractLsb' 0 8) ^^^ (c >>> 8) := by rw [crcBits_eight, hshift]; rfl

/-- Settles O6: by linearity the bits above the lowest byte are only shifted. -/
theorem crcTableForm : Obligations.CrcTableForm := by
  unfold Obligations.CrcTableForm
  exact ⟨fun _ => rfl, crcStep_table, by decide⟩

/-! ### The residue -/

/-- Accumulating the four bytes of a word is 32 iterations over the register and the word. -/
theorem crcFrom_fcsBytes (c f : Word) : crcFrom c (fcsBytes f) = crcBits 32 (c ^^^ f) := by
  have hext : ∀ n, (f >>> n).extractLsb' 0 8 = f.extractLsb' n 8 := by
    intro n
    apply BitVec.eq_of_getLsbD_eq
    intro i hi
    simp
  have hend : f >>> 32 = 0#32 := BitVec.ushiftRight_eq_zero (Nat.le_refl 32)
  symm
  calc crcBits 32 (c ^^^ f)
      = crcBits 8 (crcBits 8 (crcBits 8 (crcBits 8 (c ^^^ f)))) := by simp only [← crcBits_add]
    _ = crcFrom c (fcsBytes f) := by
      simp only [crcBits_eight, ← BitVec.shiftRight_add, hext, hend, BitVec.xor_zero]
      rfl

/-- The registers of a valid sequence end at one value (40_crc.md R140 c). -/
theorem crcAcc_append_fcs (m : List Byte) : crcAcc (m ++ fcsBytes (fcs m)) = 0xDEBB20E3#32 := by
  have hones : crcAcc m ^^^ fcs m = 0xFFFFFFFF#32 := by
    rw [fcs, ← BitVec.not_xor_right, BitVec.xor_self]
    rfl
  have hbits : crcBits 32 0xFFFFFFFF#32 = 0xDEBB20E3#32 := by decide +kernel
  rw [crcAcc, crcFrom_append, ← crcAcc, crcFrom_fcsBytes, hones, hbits]

/-- Settles O15: the register and the FCS are complements, so the last 32 iterations start from all ones. -/
theorem crcResidue : Obligations.CrcResidue := by
  unfold Obligations.CrcResidue
  intro m
  refine ⟨crcAcc_append_fcs m, ?_⟩
  rw [fcs, crcAcc_append_fcs]
  rfl

/-! ### The comparison -/

theorem fcsMatches_append_fcsBytes (m : List Byte) (f : Word) : fcsMatches (m ++ fcsBytes f) = decide (fcs m = f) := by
  have h : fcsBytes (fcs m) = fcsBytes f ↔ fcs m = f := ⟨fcsBytes_injective, congrArg fcsBytes⟩
  simp [fcsMatches, h]

/-- A sequence that passes the comparison is data with its own FCS, so it has the residue. -/
theorem crcAcc_of_fcsMatches {bs : List Byte} (h : fcsMatches bs = true) : crcAcc bs = 0xDEBB20E3#32 := by
  have hd : fcsBytes (fcs (bs.take (bs.length - 4))) = bs.drop (bs.length - 4) := of_decide_eq_true h
  have hr := crcAcc_append_fcs (bs.take (bs.length - 4))
  rwa [hd, List.take_append_drop] at hr

/-- No change of one byte of a valid sequence passes: the registers differ from there on (40_crc.md R140 d). -/
theorem fcsMatches_modify (m : List Byte) {k : Nat} (hk : k < m.length + 4) {f : Byte → Byte} (hf : ∀ b, f b ≠ b) :
    fcsMatches ((m ++ fcsBytes (fcs m)).modify k f) = false := by
  rw [← Bool.not_eq_true]
  intro h
  have hlen : k < (m ++ fcsBytes (fcs m)).length := by simpa using hk
  exact crcFrom_modify _ k f hf crcInit hlen ((crcAcc_of_fcsMatches h).trans (crcAcc_append_fcs m).symm)

theorem flipBit_ne {j : Nat} (hj : j < 8) (b : Byte) : b ^^^ (1#8 <<< j) ≠ b := by
  intro h
  have hbit := congrArg (BitVec.getLsbD · j) h
  simp [hj] at hbit

theorem fcsBytes_ofBytes (b0 b1 b2 b3 : Byte) : fcsBytes (b3 ++ b2 ++ b1 ++ b0) = [b0, b1, b2, b3] := by
  have h1 : (b3 ++ b2 ++ b1 ++ b0).extractLsb' 8 8 = b1 :=
    (BitVec.extractLsb'_append_eq_of_le (Nat.le_refl 8)).trans BitVec.extractLsb'_append_eq_right
  have h2 : (b3 ++ b2 ++ b1 ++ b0).extractLsb' 16 8 = b2 :=
    (BitVec.extractLsb'_append_eq_of_le (by omega)).trans
      ((BitVec.extractLsb'_append_eq_of_le (Nat.le_refl 8)).trans BitVec.extractLsb'_append_eq_right)
  have h3 : (b3 ++ b2 ++ b1 ++ b0).extractLsb' 24 8 = b3 :=
    (BitVec.extractLsb'_append_eq_of_le (by omega)).trans
      ((BitVec.extractLsb'_append_eq_of_le (by omega)).trans BitVec.extractLsb'_append_eq_left)
  simp only [fcsBytes, List.cons.injEq, and_true]
  exact ⟨BitVec.extractLsb'_append_eq_right, h1, h2, h3⟩

/-! ### CRC.APPEND -/

/-- A run that holds an unwritten byte does not read (10_state.md R47). -/
theorem readBytes_unwritten {s : State} {r : Region} {o n : Nat} (ho : o < n) (h : readByte s r o = none) :
    readBytes s r 0 n = none := by
  cases hb : readBytes s r 0 n with
  | none => rfl
  | some bs =>
    have hget := readBytes_get hb o ho
    rw [Nat.zero_add, h, List.getElem?_eq_getElem (by rw [readBytes_length hb]; exact ho)] at hget
    cases hget

/-- At once or held, the append is behind the guard of R136. -/
theorem appendOrWait_guarded (buf : Region) (len : Nat) (s : State) :
    ∃ k, appendOrWait buf len s = whenAppendFits buf len s k := by
  by_cases ho : owned s buf
  · exact ⟨_, appendOrWait_owned ho len⟩
  · exact ⟨_, appendOrWait_free ho len⟩

theorem whenAppendFits_noRegion {s : State} {buf : Region} (hc : regionCap s buf = none) (len : Nat) (k : Outc) :
    whenAppendFits buf len s k = .refused .noSuchRegion := by
  simp only [whenAppendFits, hc]

theorem whenAppendFits_pastEnd {s : State} {buf : Region} {len c : Nat} (hc : regionCap s buf = some c) (hl : c < len + 4)
    (k : Outc) : whenAppendFits buf len s k = .refused .appendPastEnd := by
  simp only [whenAppendFits, hc, if_pos hl]

theorem crcAppend_unwritten {s : State} {buf : Region} {len c o : Nat} (hc : regionCap s buf = some c) (hl : len + 4 ≤ c)
    (ho : o < len) (hb : readByte s buf o = none) : crcAppend buf len s = .fault .neverWritten := by
  rw [crcAppend, whenAppendFits_eq _ hc hl, readBytes_unwritten ho hb]

/-- Settles O9: the guard of R136 stands before the wait and before the read. -/
theorem crcAppendStops : Obligations.CrcAppendStops := by
  unfold Obligations.CrcAppendStops
  intro s buf len hu hp
  obtain ⟨k, hk⟩ := appendOrWait_guarded buf len s
  have hguard : exec (.crcAppend buf len) s = whenAppendFits buf len s k := (asCommand_ready hu hp _).trans hk
  refine ⟨fun hc => ?_, fun c hc hl => ?_, fun c o hfree hc hl ho hb => ?_⟩
  · exact hguard.trans (whenAppendFits_noRegion hc len k)
  · exact hguard.trans (whenAppendFits_pastEnd hc hl k)
  · exact (exec_crcAppend_free hu hp hfree len).trans (crcAppend_unwritten hc hl ho hb)

/-- What CRC.APPEND leaves (R135). -/
def appended (buf : Region) (m : List Byte) (s : State) : State :=
  writeBytes { s with crc := crcAcc m } buf m.length (fcsBytes (fcs m))

theorem exec_crcAppend_next {s : State} {buf : Region} {len c : Nat} {m : List Byte} (hu : s.up = true) (hp : s.poll = .ready)
    (ho : ¬ owned s buf) (hc : regionCap s buf = some c) (hl : len + 4 ≤ c) (hb : readBytes s buf 0 len = some m) :
    exec (.crcAppend buf len) s = .next (appended buf m s) := by
  rw [exec_crcAppend_free hu hp ho, crcAppend_eq hc hl hb, appended, readBytes_length hb]

theorem regionCap_appended (s : State) (buf : Region) (m : List Byte) (r : Region) :
    regionCap (appended buf m s) r = regionCap s r :=
  regionCap_writeBytes { s with crc := crcAcc m } buf r _ _

theorem registers_appended (s : State) (buf : Region) (m : List Byte) :
    registers (appended buf m s) = registers { s with crc := crcAcc m } :=
  registers_writeBytes _ buf _ _

theorem appended_fields (s : State) (buf : Region) (m : List Byte) :
    (appended buf m s).up = s.up ∧ (appended buf m s).poll = s.poll ∧ (appended buf m s).trace = s.trace := by
  simp [appended]

/-- CRC.APPEND writes the four bytes of the FCS behind the data and no other byte. -/
theorem readByte_appended {s : State} (hw : memoryWf s = true) {buf : Region} (hpr : present s buf) (m : List Byte)
    (r : Region) (a : Nat) :
    readByte (appended buf m s) r a =
      if r = buf ∧ m.length ≤ a ∧ a < m.length + 4 then (fcsBytes (fcs m))[a - m.length]? else readByte s r a :=
  readByte_writeBytes { s with crc := crcAcc m } hw buf m.length (fcsBytes (fcs m)) hpr r a

theorem readByte_appended_fcs {s : State} (hw : memoryWf s = true) {buf : Region} (hpr : present s buf) (m : List Byte)
    {k : Nat} (hk : k < 4) : readByte (appended buf m s) buf (m.length + k) = (fcsBytes (fcs m))[k]? := by
  rw [readByte_appended hw hpr, if_pos ⟨rfl, by omega, by omega⟩, Nat.add_sub_cancel_left]

/-- After CRC.APPEND the region holds the data and its FCS. -/
theorem readBytes_appended {s : State} (hw : memoryWf s = true) {buf : Region} (hpr : present s buf) {m : List Byte}
    (hb : readBytes s buf 0 m.length = some m) :
    readBytes (appended buf m s) buf 0 (m.length + 4) = some (m ++ fcsBytes (fcs m)) := by
  have hdata : readBytes (appended buf m s) buf 0 m.length = some m := by
    rw [← hb]
    refine readBytes_congr fun k hk => ?_
    rw [readByte_appended hw hpr, if_neg (by omega)]
  have hfcs : readBytes (appended buf m s) buf (0 + m.length) 4 = some (fcsBytes (fcs m)) :=
    readBytes_eq_some rfl fun k hk => by rw [Nat.zero_add, readByte_appended_fcs hw hpr m hk]
  exact readBytes_append hdata hfcs

/-- Settles O7: the state it leaves is named, and read byte by byte. -/
theorem crcAppendResult : Obligations.CrcAppendResult := by
  unfold Obligations.CrcAppendResult
  intro s buf len c m hu hp hw hm ho hc hl hb
  have hpr := present_of_cap hm hc
  obtain rfl : m.length = len := readBytes_length hb
  refine ⟨appended buf m s, exec_crcAppend_next hu hp ho hc hl hb, ?_⟩
  refine ⟨readByte_appended_fcs hw hpr m (k := 0) (by omega), readByte_appended_fcs hw hpr m (k := 1) (by omega),
    readByte_appended_fcs hw hpr m (k := 2) (by omega), readByte_appended_fcs hw hpr m (k := 3) (by omega), ?_, ?_, ?_⟩
  · intro r a ha
    rw [readByte_appended hw hpr, if_neg ha]
  · exact regionCap_appended s buf m
  · exact registers_appended s buf m

/-! ### CRC.VERIFY -/

theorem crcVerify_noRegion {s : State} {buf : Region} (hc : regionCap s buf = none) (n : Nat) (k : Bool → State → Outc) :
    crcVerify buf n s k = .refused .noSuchRegion := by
  simp only [crcVerify, hc]

theorem crcVerify_pastEnd {s : State} {buf : Region} {n c : Nat} (hc : regionCap s buf = some c) (h4 : 4 ≤ n) (hn : c < n)
    (k : Bool → State → Outc) : crcVerify buf n s k = .refused .verifyPastEnd := by
  simp only [crcVerify, hc, if_neg (show ¬ n < 4 by omega), if_pos hn]

theorem crcVerify_unwritten {s : State} {buf : Region} {n c o : Nat} (hc : regionCap s buf = some c) (h4 : 4 ≤ n)
    (hn : n ≤ c) (ho : o < n) (hb : readByte s buf o = none) (k : Bool → State → Outc) :
    crcVerify buf n s k = .fault .neverWritten := by
  simp only [crcVerify, hc, readBytes_unwritten ho hb, if_neg (show ¬ n < 4 by omega), if_neg (show ¬ c < n by omega)]

/-- CRC.VERIFY of bytes that have all been written. -/
theorem exec_crcVerify_next {s : State} {buf : Region} {n c : Nat} {bs : List Byte} (hu : s.up = true)
    (hp : s.poll = .ready) (hc : regionCap s buf = some c) (h4 : 4 ≤ n) (hn : n ≤ c) (hb : readBytes s buf 0 n = some bs) :
    exec (.crcVerify buf n) s = .next
      { s with crc := crcAcc (bs.take (n - 4)), trace := s.trace ++ [.result (.verdict (fcsMatches bs))] } :=
  (asCommand_ready hu hp _).trans (crcVerify_eq _ hc h4 hn hb)

/-- Settles O10: four bytes are the FCS exactly when the word they make is. -/
theorem crcVerifyResult : Obligations.CrcVerifyResult := by
  unfold Obligations.CrcVerifyResult
  intro s buf c m b0 b1 b2 b3 hu hp hc hl hb
  rw [exec_crcVerify_next hu hp hc (by omega) hl hb, Nat.add_sub_cancel, List.take_left, ← fcsBytes_ofBytes,
    fcsMatches_append_fcsBytes]

/-- Four bytes alone are the FCS of no data exactly when they are zero. -/
theorem fcsMatches_four {bs : List Byte} (hl : bs.length = 4) :
    fcsMatches bs = decide (bs = [0#8, 0#8, 0#8, 0#8]) := by
  have h0 : fcsBytes (fcs []) = [0#8, 0#8, 0#8, 0#8] := by decide
  simp [fcsMatches, hl, h0, eq_comm]

/-- Settles O11: the FCS of no data is zero. -/
theorem crcVerifyCorners : Obligations.CrcVerifyCorners := by
  unfold Obligations.CrcVerifyCorners
  intro s buf c n hu hp hc
  refine ⟨fun hn => ?_, fun h4 hn => ?_, ?_⟩
  · exact (asCommand_ready hu hp _).trans (crcVerify_short _ hc hn)
  · exact (asCommand_ready hu hp _).trans (crcVerify_pastEnd hc h4 hn _)
  · rintro bs rfl h4 hb
    rw [exec_crcVerify_next hu hp hc (Nat.le_refl 4) h4 hb, fcsMatches_four (readBytes_length hb)]
    rfl

/-- Settles O12: CRC.VERIFY reads all of its bytes, the four last ones included. -/
theorem crcVerifyStops : Obligations.CrcVerifyStops := by
  unfold Obligations.CrcVerifyStops
  intro s buf n hu hp
  refine ⟨fun hc => ?_, fun c o hc h4 hn ho hb => ?_⟩
  · exact (asCommand_ready hu hp _).trans (crcVerify_noRegion hc n _)
  · exact (asCommand_ready hu hp _).trans (crcVerify_unwritten hc h4 hn ho hb _)

/-- Settles O14: another FCS is another four bytes; a sequence with a flipped bit misses the residue. -/
theorem corruptionDetected : Obligations.CorruptionDetected := by
  unfold Obligations.CorruptionDetected
  intro s buf c m bs hu hp hc hl hb hbad
  have hrej : fcsMatches bs = false := by
    obtain ⟨f, hf, rfl⟩ | ⟨k, j, hk, hj, rfl⟩ := hbad
    · rw [fcsMatches_append_fcsBytes]
      exact decide_eq_false hf.symm
    · exact fcsMatches_modify m hk (flipBit_ne hj)
  exact ⟨_, exec_crcVerify_next hu hp hc (by omega) hl hb, by rw [hrej]⟩

/-! ### CRC.APPEND, then CRC.VERIFY -/

theorem append_verify_accepts {s : State} {buf : Region} {len c : Nat} {m : List Byte} (hu : s.up = true)
    (hp : s.poll = .ready) (hw : memoryWf s = true) (hm : s.slotMem.length = s.cfg.n) (ho : ¬ owned s buf)
    (hc : regionCap s buf = some c) (hl : len + 4 ≤ c) (hb : readBytes s buf 0 len = some m) :
    ∃ t u, exec (.crcAppend buf len) s = .next t ∧ exec (.crcVerify buf (len + 4)) t = .next u ∧
      u.trace = s.trace ++ [.result (.verdict true)] := by
  obtain rfl : m.length = len := readBytes_length hb
  have hread := readBytes_appended hw (present_of_cap hm hc) hb
  have hcap := (regionCap_appended s buf m buf).trans hc
  obtain ⟨hup, hpoll, htrace⟩ := appended_fields s buf m
  refine ⟨_, _, exec_crcAppend_next hu hp ho hc hl hb,
    exec_crcVerify_next (hup.trans hu) (hpoll.trans hp) hcap (by omega) hl hread, ?_⟩
  rw [fcsMatches_append, htrace]

/-- Settles O13: a held append that goes on is the append from between operations (`crcAppendHeld`). -/
theorem appendThenVerify : Obligations.AppendThenVerify := by
  unfold Obligations.AppendThenVerify
  intro s buf len c m hu hw hm ho hc hl hb
  refine ⟨fun hp => ?_, fun e hp hmv => ?_⟩
  · obtain ⟨t, u, ht, hu', htr⟩ := append_verify_accepts hu hp hw hm ho hc hl hb
    refine ⟨u, ?_, htr⟩
    simp only [execAll, ht, Outc.andThen, hu']
  · obtain ⟨-, -, hstep⟩ := crcAppendHeld s buf len c e hu
    rw [hstep hp hmv ho]
    have hb' : readBytes { s with poll := .ready, env := e } buf 0 len = some m := by
      rw [← hb]
      exact readBytes_congr fun k _ => rfl
    exact append_verify_accepts (s := { s with poll := .ready, env := e }) hu rfl hw hm ho hc hl hb'

end Sys2Proof.Machine
end

section
/-! SUPPORT. The statements about the MDIO sequencer (41_mdio.md): the bit cell, MDIO.READ and MDIO.WRITE, and what is refused
while a transaction is in progress. -/

namespace Sys2Proof.Machine

/-! ### The bit cell -/

/-- Settles O16: a cell's state is its pin writes carried out in order. -/
theorem bitCellPinOrder : Obligations.BitCellPinOrder := by
  unfold Obligations.BitCellPinOrder
  intro s b
  exact ⟨rfl, mdioPut_eq b s, rfl, mdioGet_level s, mdioGet_eq s⟩

/-! ### MDIO.READ and MDIO.WRITE -/

section
variable {s : State} (hu : s.up = true) (hp : s.poll = .ready) (hc : s.mdioCell = 64) (a g : U5)
include hu hp hc

theorem exec_mdioRead : exec (.mdioRead a g) s =
    .next (returns (.value (mdioReadTransaction a g s).mdioSr) (mdioReadTransaction a g s)) :=
  (asCommand_ready hu hp _).trans (whenMdioIdle_idle hc _)

theorem exec_mdioWrite (v : Half) : exec (.mdioWrite a g v) s = .next (mdioWriteTransaction a g v s) :=
  (asCommand_ready hu hp _).trans (whenMdioIdle_idle hc _)

end

/-- Settles O18: the read transaction in closed form, and then its register as the result. -/
theorem mdioReadResult : Obligations.MdioReadResult := by
  unfold Obligations.MdioReadResult
  intro s a g hu hp hc
  rw [exec_mdioRead hu hp hc, mdioReadTransaction_closed]
  rfl

/-- Settles O19: the write transaction in closed form. -/
theorem mdioWriteResult : Obligations.MdioWriteResult := by
  unfold Obligations.MdioWriteResult
  intro s a g v hu hp hc
  rw [exec_mdioWrite hu hp hc, mdioWriteTransaction_eq]

/-- The answer is made of the 18 levels of the released cells and of nothing else of the environment. -/
theorem readAnswer_congr {e e' : Env} (h : levels 18 e = levels 18 e') : readAnswer e = readAnswer e' := by
  rw [readAnswer, readAnswer, h]

/-- Settles O21: by `mdioReadResult` the register and the result of each run are its PHY's answer. -/
theorem mdioReadDependsOnPhyOnly : Obligations.MdioReadDependsOnPhyOnly := by
  unfold Obligations.MdioReadDependsOnPhyOnly
  intro s s' a g a' g' hu hp hc hu' hp' hc' hlevels
  have hanswer : readAnswer s'.env = readAnswer s.env := readAnswer_congr hlevels.symm
  refine ⟨_, _, readAnswer s.env, mdioReadResult s a g hu hp hc, mdioReadResult s' a' g' hu' hp' hc', rfl, hanswer,
    List.getLast?_concat, ?_⟩
  rw [hanswer]
  exact List.getLast?_concat

/-! ### A transaction in progress -/

theorem whenMdioIdle_busy {s : State} (h : s.mdioCell ≠ 64) (k : Outc) : whenMdioIdle s k = .refused .mdioBusy :=
  if_neg h

/-- Settles O22: the six operations stand behind the same guard of R155. -/
theorem mdioBusyRefused : Obligations.MdioBusyRefused := by
  unfold Obligations.MdioBusyRefused
  intro s a g v hu hp hc
  have hguard (k : Outc) : asCommand s (whenMdioIdle s k) = .refused .mdioBusy :=
    (asCommand_ready hu hp _).trans (whenMdioIdle_busy hc k)
  exact ⟨hguard _, hguard _, hguard _, hguard _, hguard _, hguard _⟩

end Sys2Proof.Machine
end

section
/-! SUPPORT. The statements about the PHY, the link monitor and the statistics (42_phy_link_stats.md): the notifications of every
step, PHY.SCAN, LINK.POLL and STATS.REPORT. -/

namespace Sys2Proof.Machine

/-! ### What a step leaves of the link monitor -/

/-- A move the link monitor has no part in: nothing is notified, and the cached state and bring-up stay. -/
structure LinkQuiet (s t : State) : Prop where
  links : linkEvents t.trace = linkEvents s.trace
  cached : t.linkUp = s.linkUp
  up : t.up = s.up

/-- The fields of `LinkQuiet`, for a move that leaves the trace too. -/
theorem LinkQuiet.of_eq {s t : State} (htrace : t.trace = s.trace) (hcached : t.linkUp = s.linkUp) (hup : t.up = s.up) :
    LinkQuiet s t :=
  ⟨congrArg linkEvents htrace, hcached, hup⟩

theorem ConsumerFrame.linkQuiet {s t : State} (h : ConsumerFrame s t) : LinkQuiet s t :=
  ⟨h.links, by rw [h.fields], by rw [h.fields]⟩

theorem SendFrame.linkQuiet {s t : State} (h : SendFrame s t) : LinkQuiet s t :=
  ⟨h.links, by rw [h.fields], by rw [h.fields]⟩

theorem AppendFrame.linkQuiet {r : Region} {s t : State} (h : AppendFrame r s t) : LinkQuiet s t :=
  .of_eq (by rw [h.fields]) (by rw [h.fields]) (by rw [h.fields])

theorem MdioFrame.up_eq {s t : State} (h : MdioFrame s t) : t.up = s.up := by
  rw [h.fields]

theorem takeBoundary_linkQuiet (s : State) : LinkQuiet s (takeBoundaryInterrupt s) := by
  rw [(takeBoundary_frame s).1]
  exact ⟨by simp [linkEvents_append, linkEvents], rfl, rfl⟩

theorem execRxByte_linkQuiet {b : Byte} {s t : State} (e : execRxByte b s = .next t) : LinkQuiet s t := by
  rcases execRxByte_frame e with rfl | rfl | rfl | rfl
  case inr.inr.inr => exact .of_eq (by simp) (by simp) (by simp)
  all_goals exact ⟨rfl, rfl, rfl⟩

theorem execRxBoundary_linkQuiet {s t : State} (e : execRxBoundary s = .next t) : LinkQuiet s t := by
  rcases execRxBoundary_frame e with rfl | rfl | rfl | rfl
  case inr.inr.inr =>
    have h := takeBoundary_linkQuiet { s with rxSeq := .wait, rxIrq := true, env := s.env.drawTurn.2 }
    exact ⟨h.links, h.cached, h.up⟩
  all_goals exact ⟨rfl, rfl, rfl⟩

/-- Every instruction but LINK.POLL and INIT. -/
theorem exec_linkQuiet {i : Instr} {s t : State} (hi : i ≠ .linkPoll) (hinit : ∀ c, i ≠ .init c) (e : exec i s = .next t) :
    LinkQuiet s t := by
  cases i with
  | linkPoll => exact absurd rfl hi
  | init c => exact absurd rfl (hinit c)
  | crcAppend r n => exact (execCrcAppend_frame e).1.linkQuiet
  | crcVerify r n =>
    obtain ⟨h, hlinks⟩ := execCrcVerify_frame e
    exact ⟨hlinks, by rw [h], by rw [h]⟩
  | mdioRead a g =>
    obtain ⟨h, -, hcached, hlinks⟩ := execMdioRead_frame e
    exact ⟨hlinks, hcached, h.up_eq⟩
  | mdioReadFrame a g =>
    obtain ⟨h, -, hcached, hlinks⟩ := execMdioReadFrame_frame e
    exact ⟨hlinks, hcached, h.up_eq⟩
  | mdioWrite a g v =>
    obtain ⟨h, -, -, hcached, hlinks⟩ := execMdioWrite_frame e
    exact ⟨hlinks, hcached, h.up_eq⟩
  | mdioWriteFrame a g v =>
    obtain ⟨h, -, -, hcached, hlinks⟩ := execMdioWriteFrame_frame e
    exact ⟨hlinks, hcached, h.up_eq⟩
  | phyScan =>
    obtain ⟨h, hcached, hlinks⟩ := execPhyScan_frame e
    exact ⟨hlinks, hcached, h.up_eq⟩
  | statsReport =>
    obtain ⟨h, hlinks, -⟩ := execStatsReport_frame e
    exact ⟨hlinks, by rw [h], by rw [h]⟩
  | txSend f n => exact (execTxSend_frame e).linkQuiet
  | rxConsume =>
    obtain ⟨-, -, e⟩ := asCommand_next e
    exact (acquireOrWait_frame e).linkQuiet
  | rxByte b => exact execRxByte_linkQuiet e
  | rxBoundary => exact execRxBoundary_linkQuiet e
  | txDmaByte =>
    obtain ⟨h, hlinks⟩ := execTxDmaByte_frame e
    exact ⟨hlinks, by rw [h], by rw [h]⟩

/-! ### The notifications alternate -/

/-- One notification more, different from the last one. -/
theorem alternates_concat {b x : Bool} {xs : List Bool} (h : alternates b xs) (hx : x ≠ xs.getLastD b) :
    alternates b (xs ++ [x]) := by
  induction xs generalizing b with
  | nil => exact ⟨hx, trivial⟩
  | cons y ys ih =>
    obtain ⟨hy, hys⟩ := h
    exact ⟨hy, ih hys (by rwa [List.getLastD_cons] at hx)⟩

theorem LinkInv.quiet {s t : State} (h : LinkInv s) (hq : LinkQuiet s t) : LinkInv t where
  alternate := by rw [hq.links]; exact h.alternate
  cached := by rw [hq.links, hq.cached]; exact h.cached
  down_before_init := by rw [hq.up, hq.cached]; exact h.down_before_init

/-- LINK.POLL notifies exactly when the polled bit is not the cached one, which is the last notification. -/
theorem LinkInv.linkPoll {s t : State} (h : LinkInv s) (e : exec .linkPoll s = .next t) : LinkInv t := by
  obtain ⟨hup, -, -⟩ := asCommand_next e
  obtain ⟨hframe, -, hcached, hlinks⟩ := execLinkPoll_frame e
  have hinit : t.up = false → t.linkUp = false := by simp [hframe.up_eq, hup]
  by_cases hedge : (readAnswer s.env).getLsbD 2 = s.linkUp
  · rw [if_pos hedge, List.append_nil] at hlinks
    exact h.quiet ⟨hlinks, hcached.trans hedge, hframe.up_eq⟩
  · rw [if_neg hedge] at hlinks
    refine ⟨?_, ?_, hinit⟩
    · rw [hlinks]
      exact alternates_concat h.alternate (by rwa [← h.cached])
    · rw [hlinks, List.getLastD_concat, hcached]

/-- INIT notifies nothing and takes the link as down, which it was before INIT. -/
theorem LinkInv.init {c : Cfg} {s t : State} (h : LinkInv s) (e : exec (.init c) s = .next t) : LinkInv t := by
  obtain ⟨hdown, -, -, rfl⟩ := execInit_frame e
  have hlinks : linkEvents (register (phyScan (bringUp c s)).2).trace = linkEvents s.trace :=
    scanFrom_links scanAddresses (bringUp c s)
  have hcached : (register (phyScan (bringUp c s)).2).linkUp = s.linkUp := by
    rw [h.down_before_init hdown]
    exact congrArg State.linkUp (scanFrom_eq scanAddresses (bringUp c s))
  refine ⟨?_, ?_, nofun⟩
  · rw [hlinks]
    exact h.alternate
  · rw [hlinks, hcached]
    exact h.cached

theorem LinkInv.exec {i : Instr} {s t : State} (h : LinkInv s) (e : exec i s = .next t) : LinkInv t := by
  by_cases hpoll : i = .linkPoll
  · subst hpoll
    exact h.linkPoll e
  · by_cases hinit : ∃ c, i = .init c
    · obtain ⟨c, rfl⟩ := hinit
      exact h.init e
    · exact h.quiet (exec_linkQuiet hpoll (not_exists.1 hinit) e)

/-- Neither the environment's answers nor the point of the poll loop are the link monitor's. -/
theorem LinkInv.withEnv {s : State} (h : LinkInv s) (e : Env) : LinkInv (withEnv e s) :=
  h.quiet ⟨rfl, rfl, rfl⟩

theorem LinkInv.resumePoll {s t : State} (h : LinkInv s) (e : resumePoll s = .next t) : LinkInv t := by
  rcases resumePoll_next e with ⟨-, rfl⟩ | ⟨i, l, v, -, -, e⟩ | hf | rfl | hf | ⟨r, n, -, hf⟩
  · exact h
  · have hloop : LinkInv { Machine.withEnv v s with loop := l } := h.quiet ⟨rfl, rfl, rfl⟩
    exact hloop.exec e
  · exact h.quiet hf.linkQuiet
  · exact h.quiet ⟨rfl, rfl, rfl⟩
  · exact h.quiet hf.linkQuiet
  · exact h.quiet hf.linkQuiet

/-- Settles O25, by the agent that moves: IRQ notifies nothing, and POLL and a record keep the property whatever they run. -/
theorem stepKeepsLinkNotificationsAlternating : Obligations.StepKeepsLinkNotificationsAlternating := by
  unfold Obligations.StepKeepsLinkNotificationsAlternating
  intro s t h e
  rcases step_cases s with ⟨-, -, hs⟩ | ⟨v, -, hs⟩ | ⟨v, r, rest, -, -, hs⟩ <;> rw [hs] at e
  · cases e
    exact (h.withEnv _).quiet (takeBoundary_linkQuiet _)
  · exact (h.withEnv v).resumePoll e
  · obtain ⟨i, -, e⟩ := runRecord_next e
    exact (h.withEnv v).exec e

/-! ### PHY.SCAN and LINK.POLL -/

section
variable {s : State} (hu : s.up = true) (hp : s.poll = .ready)
include hu hp

theorem exec_phyScan (hc : s.mdioCell = 64) : exec .phyScan s = .next (scanFrom scanAddresses s).2 :=
  (asCommand_ready hu hp _).trans (whenMdioIdle_idle hc _)

theorem exec_linkPoll (hc : s.mdioCell = 64) : exec .linkPoll s = .next
    (linkUpdate (linkBit (mdioReadTransaction s.phyAddr 1 s).mdioSr) (mdioReadTransaction s.phyAddr 1 s)) :=
  (asCommand_ready hu hp _).trans (whenMdioIdle_idle hc _)

theorem exec_statsReport : exec .statsReport s = .next (reportStats s) :=
  asCommand_ready hu hp _

end

theorem scanAddresses_length : scanAddresses.length = 32 := rfl

/-- Settles O23: address a is the a-th one the scan tries, and there are 32. -/
theorem phyScanResult : Obligations.PhyScanResult := by
  unfold Obligations.PhyScanResult
  intro s hu hp hc
  rw [exec_phyScan hu hp hc]
  refine ⟨fun a hbefore hhit => ?_, fun hnone => ?_⟩
  · rw [scanFrom_found scanAddresses s a.toNat a (scanAddresses_get a) hbefore hhit]
  · rw [scanFrom_none scanAddresses s (List.ne_nil_of_length_pos (by decide)) hnone, scanAddresses_length]

/-- The cached state becomes the polled bit, with a notification when it was another (R185). -/
theorem linkUpdate_eq (b : Bool) (s : State) : linkUpdate b s =
    { s with linkUp := b, trace := s.trace ++ if b = s.linkUp then [] else [if b then .linkUp else .linkDown] } := by
  unfold linkUpdate
  split
  · next h => simp [h]
  · rfl

/-- Settles O24: the read transaction in closed form, and then the update from its bit 2. -/
theorem linkPollResult : Obligations.LinkPollResult := by
  unfold Obligations.LinkPollResult
  intro s hu hp hc
  rw [exec_linkPoll hu hp hc, mdioReadTransaction_closed, linkUpdate_eq]
  rfl

/-! ### STATS.REPORT -/

theorem reportStats_off {s : State} (h : s.cfg.statsEn = false) : reportStats s = s := by
  simp [reportStats, h]

theorem reportStats_atomic {s : State} (h : s.cfg.statsEn = true) (ht : s.env.drawTurn.1 = false) :
    reportStats s = zeroStats (withEnv s.env.drawTurn.2 (snapshotStats s)) := by
  simp [reportStats, h, ht]

theorem reportStats_overtaken {s : State} (h : s.cfg.statsEn = true) (ht : s.env.drawTurn.1 = true) :
    reportStats s = { withEnv s.env.drawTurn.2 (snapshotStats s) with poll := .reporting } := by
  simp [reportStats, h, ht]

/-- A step in which POLL goes on from the snapshot to the zeroing. -/
theorem step_reporting {s : State} {e : Env} (hp : s.poll = .reporting) (hm : pollMoves s e) :
    step s = .next (zeroStats (withEnv e s)) := by
  rw [step_pollMoves hm]
  simp only [resumePoll, withEnv_fields, hp]

/-- Settles O26: the turn decides whether the zeroing is in the same step, and zeroing ends the operation. -/
theorem statsReportResult : Obligations.StatsReportResult := by
  unfold Obligations.StatsReportResult
  intro s hu hp
  rw [exec_statsReport hu hp]
  refine ⟨fun h => ?_, fun h ht => ?_, fun h ht => ?_, fun u e hr hm => step_reporting hr hm⟩
  · rw [reportStats_off h]
  · rw [reportStats_atomic h ht, hp]
    rfl
  · rw [reportStats_overtaken h ht]
    rfl

end Sys2Proof.Machine
end

section
/-! SUPPORT. The statements about the transmit framer (43_tx_framer.md): TX.SEND, its wait, the bytes of the transmit DMA, and
TXBUF while that DMA owns it. -/

namespace Sys2Proof.Machine

/-! ### The call and its guard -/

theorem submissionFits_iff (s : State) (n : Nat) : submissionFits s n = true ↔ max n 60 + 4 ≤ s.cfg.txCap :=
  decide_eq_true_iff

section
variable {s : State} {frags : List (List Byte)} {n : Nat}

theorem whenSubmissionFits_fits (hc : max n 60 + 4 ≤ s.cfg.txCap) (hf : n ≤ fragmentsLength frags) (k : Outc) :
    whenSubmissionFits frags n s k = k :=
  (if_pos ((submissionFits_iff s n).2 hc)).trans (if_pos hf)

theorem whenSubmissionFits_tooLong (hc : s.cfg.txCap < max n 60 + 4) (k : Outc) :
    whenSubmissionFits frags n s k = .refused .submissionTooLong :=
  if_neg (mt (submissionFits_iff s n).1 (Nat.not_le.2 hc))

theorem whenSubmissionFits_tooShort (hc : max n 60 + 4 ≤ s.cfg.txCap) (hf : fragmentsLength frags < n) (k : Outc) :
    whenSubmissionFits frags n s k = .refused .fragmentsTooShort :=
  (if_pos ((submissionFits_iff s n).2 hc)).trans (if_neg (Nat.not_le.2 hf))

end

/-- TX.SEND is called where a held one returns to: between operations or inside a delivery (10_state.md R55). -/
theorem exists_afterSend {p : Poll} (h : p = .ready ∨ ∃ n, p = .delivering n) : ∃ w, p = afterSend w := by
  obtain rfl | ⟨n, rfl⟩ := h
  · exact ⟨none, rfl⟩
  · exact ⟨some n, rfl⟩

section
variable {s : State} {w : Option Nat} (hu : s.up = true) (hp : s.poll = afterSend w) {frags : List (List Byte)} {n : Nat}
include hu hp

/-- From both places the call is behind the guard of R202. -/
theorem exec_txSend : exec (.txSend frags n) s = whenSubmissionFits frags n s (sendOrWait frags n w s) := by
  cases w <;> simp [exec, execTxSend, whenUp, hu, hp, afterSend]

variable (hc : max n 60 + 4 ≤ s.cfg.txCap) (hf : n ≤ fragmentsLength frags)
include hc hf

theorem exec_txSend_busy (hb : s.txBusy = true) :
    exec (.txSend frags n) s = .next { s with poll := .txWait frags n w } :=
  (exec_txSend hu hp).trans ((whenSubmissionFits_fits hc hf _).trans (if_pos hb))

theorem exec_txSend_free (hb : s.txBusy = false) : exec (.txSend frags n) s = sendFrame frags n s :=
  (exec_txSend hu hp).trans ((whenSubmissionFits_fits hc hf _).trans (if_neg (by simp [hb])))

end

/-- Settles O28: the guard of R202 stands before the wait. -/
theorem txSendRefused : Obligations.TxSendRefused := by
  unfold Obligations.TxSendRefused
  intro s frags n hu hp
  obtain ⟨w, hw⟩ := exists_afterSend hp
  rw [exec_txSend hu hw]
  exact ⟨fun hc => whenSubmissionFits_tooLong hc _, fun hc hf => whenSubmissionFits_tooShort hc hf _⟩

/-! ### The wait -/

/-- A step in which a held TX.SEND looks again. -/
theorem step_txWait {s : State} {frags : List (List Byte)} {n : Nat} {w : Option Nat} {e : Env}
    (hp : s.poll = .txWait frags n w) (hm : pollMoves s e) : step s = resumeSend frags n w (withEnv e s) := by
  rw [step_pollMoves hm]
  simp only [resumePoll, withEnv_fields, hp]

theorem step_txWait_busy {s : State} {frags : List (List Byte)} {n : Nat} {w : Option Nat} {e : Env}
    (hp : s.poll = .txWait frags n w) (hm : pollMoves s e) (hb : s.txBusy = true) : step s = .next { s with env := e } :=
  (step_txWait hp hm).trans (if_pos hb)

/-- Once the transfer is over the held call is the call from where it returns to. -/
theorem step_txWait_free {s : State} {frags : List (List Byte)} {n : Nat} {w : Option Nat} {e : Env} (hu : s.up = true)
    (hc : max n 60 + 4 ≤ s.cfg.txCap) (hf : n ≤ fragmentsLength frags) (hp : s.poll = .txWait frags n w)
    (hm : pollMoves s e) (hb : s.txBusy = false) :
    step s = exec (.txSend frags n) { s with poll := afterSend w, env := e } := by
  calc step s
      = resumeSend frags n w (withEnv e s) := step_txWait hp hm
    _ = sendFrame frags n { s with poll := afterSend w, env := e } := if_neg (by simp [hb])
    _ = exec (.txSend frags n) { s with poll := afterSend w, env := e } :=
        (exec_txSend_free (s := { s with poll := afterSend w, env := e }) hu rfl hc hf hb).symm

/-- Settles O29: the call and its resumption both look at `tx_busy`, and `afterSend` is where the call was made. -/
theorem txSendHeldWhileBusy : Obligations.TxSendHeldWhileBusy := by
  unfold Obligations.TxSendHeldWhileBusy
  intro s frags n hu hc hf
  exact ⟨fun hp hb => exec_txSend_busy (w := none) hu hp hc hf hb,
    fun d hp hb => exec_txSend_busy (w := some d) hu hp hc hf hb,
    fun w e hp hm hb => step_txWait_busy hp hm hb,
    fun e hp hm hb => step_txWait_free hu hc hf hp hm hb,
    fun d e hp hm hb => step_txWait_free hu hc hf hp hm hb⟩

/-! ### The frame in TXBUF and the armed transfer -/

/-- Arming changes registers only (R208, R209). -/
theorem armTransmit_eq (n : Nat) (s : State) : armTransmit n s =
    { s with txLen := n + 4, txRd := 0, txBusy := true, cnt := counted Counters.incTxOk s,
             trace := s.trace ++ [.result .success] } := by
  rw [armTransmit, count_eq]
  rfl

theorem readByte_armTransmit (n : Nat) (s : State) (r : Region) (o : Nat) :
    readByte (armTransmit n s) r o = readByte s r o := by
  rw [armTransmit_eq]
  cases r <;> rfl

theorem regionCap_armTransmit (n : Nat) (s : State) (r : Region) : regionCap (armTransmit n s) r = regionCap s r := by
  rw [armTransmit_eq]
  cases r <;> rfl

/-- What TX.SEND leaves: the frame stored and appended to as CRC.APPEND does, and then armed. -/
def sent (m : List Byte) (s : State) : State := armTransmit m.length (appended .txbuf m (writeBytes s .txbuf 0 m))

theorem sendFrame_sent {s : State} {frags : List (List Byte)} {n : Nat} (hw : memoryWf s = true)
    (hc : max n 60 + 4 ≤ s.cfg.txCap) (hf : n ≤ fragmentsLength frags) :
    sendFrame frags n s = .next (sent (transmitFrame frags n) s) := by
  rw [sendFrame_eq s frags n hw hc hf, ← transmitFrame_length frags n hf]
  rfl

section
variable {s : State} (hw : memoryWf s = true) (m : List Byte)
include hw

theorem readByte_sent_armed (r : Region) (a : Nat) : readByte (sent m s) r a =
    if r = .txbuf ∧ a < m.length + 4 then (m ++ fcsBytes (fcs m))[a]? else readByte s r a :=
  (readByte_armTransmit _ _ r a).trans (readByte_sent s hw m r a)

theorem readBytes_sent : readBytes (sent m s) .txbuf 0 (m.length + 4) = some (m ++ fcsBytes (fcs m)) :=
  readBytes_eq_some (by simp) fun k hk => by rw [Nat.zero_add, readByte_sent_armed hw, if_pos ⟨rfl, hk⟩]

theorem sameBytesBut_sent : sameBytesBut s (sent m s) .txbuf 0 (m.length + 4) := by
  intro r a ha
  rw [readByte_sent_armed hw, if_neg fun h => ha ⟨h.1, Nat.zero_le a, by omega⟩]

end

theorem sameRegions_sent (m : List Byte) (s : State) : sameRegions s (sent m s) := by
  intro r
  rw [sent, regionCap_armTransmit, regionCap_appended, regionCap_writeBytes]

theorem registers_sent (m : List Byte) (s : State) : registers (sent m s) = registers
    { s with crc := crcAcc m, txLen := m.length + 4, txRd := 0, txBusy := true, cnt := counted Counters.incTxOk s,
             trace := s.trace ++ [.result .success] } := by
  rw [sent, armTransmit_eq]
  rfl

/-- Settles O27: the state it leaves is `sent`, which each clause says one thing of. -/
theorem txSendResult : Obligations.TxSendResult := by
  unfold Obligations.TxSendResult
  rintro s frags n _ hu hp hb hw hc hf rfl
  obtain ⟨w, hp⟩ := exists_afterSend hp
  have hlen := transmitFrame_length frags n hf
  rw [← hlen]
  exact ⟨rfl, sent (transmitFrame frags n) s,
    (exec_txSend_free hu hp hc hf hb).trans (sendFrame_sent hw hc hf),
    readBytes_sent hw _, sameBytesBut_sent hw _, sameRegions_sent _ s, registers_sent _ s⟩

/-- Settles O30: TXBUF then holds a frame and its FCS (`txSendResult`). -/
theorem txSendThenVerify : Obligations.TxSendThenVerify := by
  unfold Obligations.TxSendThenVerify
  intro s frags n hu hp hb hw hc hf
  obtain ⟨-, t, ht, hread, -, hcap, hreg⟩ := txSendResult s frags n _ hu (.inl hp) hb hw hc hf rfl
  have htu : t.up = true := (congrArg State.up hreg).trans hu
  have htp : t.poll = .ready := (congrArg State.poll hreg).trans hp
  have htrace : t.trace = s.trace ++ [.result .success] := congrArg State.trace hreg
  obtain ⟨u, hverify, hverdict⟩ : ∃ u, exec (.crcVerify .txbuf (max n 60 + 4)) t = .next u ∧
      u.trace = t.trace ++ [.result (.verdict true)] :=
    ⟨_, exec_crcVerify_next htu htp (hcap .txbuf) (by omega) hc hread, by rw [fcsMatches_append]⟩
  refine ⟨u, ?_, ?_⟩
  · simp only [execAll, ht, Outc.andThen, hverify]
  · rw [hverdict, htrace, List.append_assoc, List.singleton_append]

/-! ### The transmit DMA -/

theorem exec_txDmaByte_move {s : State} {b : Byte} (hu : s.up = true) (hb : s.txBusy = true) (hlt : s.txRd < s.txLen)
    (hread : readByte s .txbuf s.txRd = some b) : exec .txDmaByte s = .next (txMove b s) := by
  simp [exec, execTxDmaByte, txDmaEnabled, hu, hb, hlt, hread]

theorem exec_txDmaByte_idle {s : State} (h : s.txBusy = false ∨ s.txLen ≤ s.txRd) : exec .txDmaByte s = .next s := by
  have hoff : txDmaEnabled s = false := by simpa [txDmaEnabled, or_iff_not_imp_left] using h
  simp [exec, execTxDmaByte, hoff]

/-- Settles O31: the moved byte's state is the model's `txMove`. -/
theorem txDmaByteResult : Obligations.TxDmaByteResult := by
  unfold Obligations.TxDmaByteResult
  intro s hu
  exact ⟨fun b hb hlt hread => exec_txDmaByte_move hu hb hlt hread, exec_txDmaByte_idle⟩

theorem readBytes_succ_eq_some {s : State} {r : Region} {o n : Nat} {bytes : List Byte}
    (h : readBytes s r o (n + 1) = some bytes) :
    ∃ b bs, bytes = b :: bs ∧ readByte s r o = some b ∧ readBytes s r (o + 1) n = some bs := by
  rw [readBytes] at h
  split at h
  · next b bs hb hbs => exact ⟨b, bs, (Option.some.inj h).symm, hb, hbs⟩
  · cases h

/-- At the end of a transfer `tx_rd` and `tx_busy` stand where it leaves them (R211). -/
theorem transferOver_eq {s : State} (hdone : s.txRd = s.txLen) (hfree : s.txBusy = false) (trace : List Event) :
    { s with txRd := s.txLen, txBusy := false, trace := trace } = { s with trace := trace } := by
  cases s
  cases hdone
  cases hfree
  rfl

/-- The rest of a transfer: `tx_busy` says at every byte whether one is left. -/
theorem execAll_txDmaByte {s : State} {n : Nat} {bytes : List Byte} (hu : s.up = true)
    (hb : s.txBusy = decide (s.txRd ≠ s.txLen)) (hn : s.txRd + n = s.txLen)
    (hread : readBytes s .txbuf s.txRd n = some bytes) :
    execAll (List.replicate n .txDmaByte) s =
      .next { s with txRd := s.txLen, txBusy := false, trace := s.trace ++ bytes.map .txByte } := by
  induction n generalizing s bytes with
  | zero =>
    obtain rfl : bytes = [] := List.eq_nil_of_length_eq_zero (readBytes_length hread)
    have hdone : s.txRd = s.txLen := hn
    have hfree : s.txBusy = false := by simp [hb, hdone]
    rw [transferOver_eq hdone hfree, List.map_nil, List.append_nil]
    rfl
  | succ n ih =>
    obtain ⟨b, bs, rfl, hbyte, hrest⟩ := readBytes_succ_eq_some hread
    have hbusy : s.txBusy = true := by simp [hb]; omega
    have hmove := exec_txDmaByte_move hu hbusy (by omega) hbyte
    have hrest' : readBytes (txMove b s) .txbuf (txMove b s).txRd n = some bs := by
      rw [← hrest]
      exact readBytes_congr fun k _ => rfl
    have htail := ih (s := txMove b s) hu rfl (by simp; omega) hrest'
    rw [List.replicate_succ, execAll, hmove, Outc.andThen, htail]
    simp [txMove, emit]

/-- Settles O32: the whole transfer is the rest of one at its first byte. -/
theorem txDmaStream : Obligations.TxDmaStream := by
  unfold Obligations.TxDmaStream
  intro s bytes hu hb hrd hlen hread
  rw [← hrd] at hread
  exact execAll_txDmaByte hu (by rw [hb, hrd, decide_eq_true hlen.ne]) (by rw [hrd, Nat.zero_add]) hread

/-! ### TXBUF while the transmit DMA owns it -/

/-- No instruction writes TXBUF then (`singleWriters`). -/
theorem exec_txbuf_of_busy {i : Instr} {s t : State} (hu : s.up = true) (hb : s.txBusy = true)
    (e : exec i s = .next t) : t.txbuf = s.txbuf := by
  obtain ⟨-, -, -, -, -, -, -, -, -, -, -, -, -, -, hbusy, -⟩ := singleWriters s t i hu e
  exact hbusy hb

theorem takeBoundary_txbuf (s : State) : (takeBoundaryInterrupt s).txbuf = s.txbuf := by
  rw [(takeBoundary_frame s).1]

theorem ConsumerFrame.txbuf_eq {s t : State} (h : ConsumerFrame s t) : t.txbuf = s.txbuf := by
  rw [h.fields]

/-- Nor does POLL when it goes on: a held TX.SEND and a held CRC.APPEND on TXBUF wait. -/
theorem resumePoll_txbuf_of_busy {s t : State} (hu : s.up = true) (hb : s.txBusy = true)
    (e : resumePoll s = .next t) : t.txbuf = s.txbuf := by
  rcases resumePoll_next e with ⟨-, rfl⟩ | ⟨i, l, v, -, -, e⟩ | h | rfl | h | ⟨r, n, -, h⟩
  · rfl
  · exact exec_txbuf_of_busy (s := { withEnv v s with loop := l }) hu hb e
  · exact h.txbuf_eq
  · rfl
  · exact h.txbuf_of_busy hb
  · exact h.txbuf_of_busy hb

/-- Settles O33, by the agent that moves. -/
theorem txbufUntouchedWhileBusy : Obligations.TxbufUntouchedWhileBusy := by
  unfold Obligations.TxbufUntouchedWhileBusy
  intro s t hu hb e o
  suffices h : t.txbuf = s.txbuf from congrArg (Memory.read · o) h
  rcases step_cases s with ⟨-, -, hs⟩ | ⟨v, -, hs⟩ | ⟨v, r, rest, -, -, hs⟩ <;> rw [hs] at e
  · cases e
    exact takeBoundary_txbuf _
  · exact resumePoll_txbuf_of_busy (s := withEnv v s) hu hb e
  · obtain ⟨i, -, e⟩ := runRecord_next e
    exact exec_txbuf_of_busy (s := withEnv v s) hu hb e

end Sys2Proof.Machine
end

section
/-! SUPPORT. The statements about the receive framer (44_rx_framer.md): the invariant in every step and every reachable state,
the slots the consumer may read, the wire's events and their interrupt, and RX.CONSUME. -/

namespace Sys2Proof.Machine

/-! ### Every step keeps the invariant -/

theorem rxListening_iff (s : State) : rxListening s = true ↔ s.rxSeq ≠ .wait ∧ s.rxLost = false := by
  simp [rxListening]

theorem not_rxListening_iff (s : State) : rxListening s = false ↔ s.rxSeq = .wait ∨ s.rxLost = true := by
  simp [rxListening, or_iff_not_imp_left]

/-- What arrives while RXCAP does not listen arrives outside CAPTURE (R226). -/
theorem Inv.not_capture {s : State} (h : Inv s) (hl : rxListening s = false) : s.rxSeq ≠ .capture := by
  obtain hw | hlost := (not_rxListening_iff s).1 hl
  · simp [hw]
  · exact h.rx.lost_idle hlost

theorem Inv.execRxByte {s t : State} {b : Byte} (h : Inv s) (e : Machine.execRxByte b s = .next t) : Inv t := by
  obtain ⟨-, rfl⟩ | ⟨-, -, e⟩ := asRxEvent_next e
  · exact h
  · obtain rfl := Host.Outcome.next.inj e
    split
    · next hl => exact h.capture hl b
    · next hl => exact h.setLost true fun _ => h.not_capture (by simpa using hl)

theorem Inv.execRxBoundary {s t : State} (h : Inv s) (e : Machine.execRxBoundary s = .next t) : Inv t := by
  obtain ⟨-, rfl⟩ | ⟨-, -, e⟩ := asRxEvent_next e
  · exact h
  · obtain rfl := Host.Outcome.next.inj e
    split
    · exact h.signal.interruptOrLatency
    · exact h.setLost false nofun

theorem Inv.execTxDmaByte {s t : State} (h : Inv s) (e : Machine.execTxDmaByte s = .next t) : Inv t := by
  unfold Machine.execTxDmaByte at e
  split at e
  · next hen =>
    split at e
    · cases e
    · cases e
      exact h.move _ ((Bool.and_eq_true_iff.1 hen).2)
  · cases e
    exact h

theorem Inv.zeroStats {s : State} (h : Inv s) (hp : s.poll ≠ .claimed) : Inv (Machine.zeroStats s) :=
  (h.setPoll hp .ready nofun).frame s.up s.crc s.mdc s.mdioOut s.mdioSr s.phyAddr s.linkUp Counters.zero s.trace s.env

theorem Inv.reportStats {s : State} (h : Inv s) (hp : s.poll ≠ .claimed) : Inv (Machine.reportStats s) := by
  have hsnap : Inv (Machine.withEnv s.env.drawTurn.2 (snapshotStats s)) := (h.emit _).withEnv _
  unfold Machine.reportStats
  split
  · split
    · exact hsnap.setPoll hp .reporting nofun
    · exact hsnap.zeroStats hp
  · exact h

theorem Inv.linkUpdate {s : State} (h : Inv s) (b : Bool) : Inv (Machine.linkUpdate b s) := by
  rw [linkUpdate_eq]
  exact h.frame s.up s.crc s.mdc s.mdioOut s.mdioSr s.phyAddr b s.cnt _ s.env

/-- A TX.SEND that completes was called where a held one returns to. -/
theorem execTxSend_next {s t : State} {frags : List (List Byte)} {n : Nat} (e : execTxSend frags n s = .next t) :
    ∃ w, s.poll = afterSend w ∧ sendOrWait frags n w s = .next t := by
  unfold execTxSend whenUp at e
  split at e
  · split at e
    · next hp =>
      obtain ⟨-, -, e⟩ := whenFits_next e
      exact ⟨none, hp, e⟩
    · next d hp =>
      obtain ⟨-, -, e⟩ := whenFits_next e
      exact ⟨some d, hp, e⟩
    all_goals cases e
  · cases e

theorem afterSend_ne_claimed (w : Option Nat) : afterSend w ≠ .claimed := by
  cases w <;> nofun

theorem Inv.resumeSend {s t : State} {frags : List (List Byte)} {n : Nat} {w : Option Nat} (h : Inv s)
    (hp : s.poll ≠ .claimed) (e : Machine.resumeSend frags n w s = .next t) : Inv t := by
  unfold Machine.resumeSend at e
  split at e
  · cases e
    exact h
  · exact (h.setPoll hp _ (afterSend_ne_claimed w)).sendFrame e

theorem Inv.execInit {s t : State} {c : Cfg} (h : Inv s) (e : Machine.execInit c s = .next t) : Inv t := by
  obtain ⟨-, hlegal, hsingle, rfl⟩ := execInit_frame e
  have hscan : Inv (phyScan (bringUp c s)).2 := (h.bring c hlegal hsingle).scan scanAddresses
  exact hscan.frame true _ _ _ _ _ _ _ _ _

/-- What a command of the MDIO sequencer leaves, if it is not refused. -/
theorem mdioCommand_next {s t u : State} (e : asCommand s (whenMdioIdle s (.next u)) = .next t) : u = t := by
  obtain ⟨-, -, e⟩ := asCommand_next e
  obtain ⟨-, e⟩ := whenMdioIdle_next e
  exact Host.Outcome.next.inj e

theorem Inv.exec {i : Instr} {s t : State} (h : Inv s) (e : Machine.exec i s = .next t) : Inv t := by
  cases i with
  | crcAppend r n =>
    obtain ⟨-, hp, e⟩ := asCommand_next e
    exact h.appendOrWait (by simp [hp]) e
  | crcVerify r n =>
    rw [(execCrcVerify_frame e).1]
    exact h.frame s.up t.crc s.mdc s.mdioOut s.mdioSr s.phyAddr s.linkUp s.cnt t.trace s.env
  | mdioRead a g =>
    rw [← mdioCommand_next e]
    exact (h.mdioRead a g).emit _
  | mdioReadFrame a g =>
    rw [← mdioCommand_next e]
    exact h.mdioRead a g
  | mdioWrite a g v =>
    rw [← mdioCommand_next e]
    exact h.mdioWrite a g v
  | mdioWriteFrame a g v =>
    rw [← mdioCommand_next e]
    exact h.mdioWrite a g v
  | phyScan =>
    rw [← mdioCommand_next e]
    exact h.scan scanAddresses
  | linkPoll =>
    rw [← mdioCommand_next e]
    exact (h.mdioRead s.phyAddr 1).linkUpdate _
  | statsReport =>
    obtain ⟨-, hp, e⟩ := asCommand_next e
    cases e
    exact h.reportStats (by simp [hp])
  | txSend frags n =>
    obtain ⟨w, hp, e⟩ := execTxSend_next e
    exact h.sendOrWait (by rw [hp]; exact afterSend_ne_claimed w) e
  | rxConsume =>
    obtain ⟨-, hp, e⟩ := asCommand_next e
    exact h.acquireOrWait (by simp [hp]) e
  | init c => exact h.execInit e
  | rxByte b => exact h.execRxByte e
  | rxBoundary => exact h.execRxBoundary e
  | txDmaByte => exact h.execTxDmaByte e

theorem Inv.pollLoop {s t : State} (h : Inv s) (e : Machine.pollLoop s = .next t) : Inv t := by
  obtain ⟨i, l, v, -, -, heq⟩ := pollLoop_cases s
  exact ((h.withEnv v).setLoop l).exec (heq ▸ e)

/-- Wherever POLL stands, its going on keeps the invariant; only at `claimed` does it hold a slot. -/
theorem Inv.resumePoll {s t : State} (h : Inv s) (e : Machine.resumePoll s = .next t) : Inv t := by
  unfold Machine.resumePoll at e
  split at e
  case h_1 =>
    split at e
    · exact h.pollLoop e
    · cases e
      exact h
  case h_2 hp => exact h.acquireOrWait (by simp [hp]) e
  case h_3 hp => exact h.consumeClaimed hp e
  case h_4 hp =>
    cases e
    exact h.zeroStats (by simp [hp])
  case h_5 n hp =>
    cases e
    exact h.hostInput n (by simp [hp])
  case h_6 frags n w hp => exact h.resumeSend (by simp [hp]) e
  case h_7 r n hp => exact h.resumeAppend (by simp [hp]) e

/-- Settles O51, by the agent that moves: IRQ takes the boundary interrupt, POLL goes on, or a record runs. -/
theorem stepKeepsInvariant : Obligations.StepKeepsInvariant := by
  unfold Obligations.StepKeepsInvariant
  intro s t h e
  rcases step_cases s with ⟨-, -, hs⟩ | ⟨v, -, hs⟩ | ⟨v, r, rest, -, -, hs⟩ <;> rw [hs] at e
  · cases e
    exact (h.withEnv _).boundary
  · exact (h.withEnv v).resumePoll e
  · obtain ⟨i, -, e⟩ := runRecord_next e
    exact (h.withEnv v).exec e

/-! ### The slots the consumer may read (R250 d, R251) -/

/-- The consumer finds slot i in t as in s: its length and all its bytes. -/
def SlotKept (i : Nat) (s t : State) : Prop :=
  slotLength t i = slotLength s i ∧ ∀ o, readByte t (.slot i) o = readByte s (.slot i) o

theorem SlotKept.of_eq {i : Nat} {s t : State} (hlen : t.slotLen = s.slotLen) (hmem : t.slotMem = s.slotMem) :
    SlotKept i s t := by
  simp [SlotKept, slotLength, readByte_slot, hlen, hmem]

/-- A full ring still leaves a slot: at most N - 1 are claimable (R250). -/
theorem Inv.claimable_count {s : State} (h : Inv s) : holding s + s.sem ≤ s.cfg.n - 1 := by
  obtain ⟨hlwm, -, hn, -⟩ := Cfg.legal_bounds h.legal
  have := h.ring.permits_le
  omega

/-- Fewer than N steps round the ring do not come back to where they started. -/
theorem add_mod_ne {n a j k : Nat} (hj : j < k) (hk : k < n) : (a + j) % n ≠ (a + k) % n := by
  intro h
  have hmod : j ≡ k [MOD n] := Nat.ModEq.add_left_cancel' a h
  exact hj.ne (hmod.eq_of_lt_of_lt (hj.trans hk) hk)

theorem Inv.not_claimable_head {s : State} (h : Inv s) : ¬ claimable s s.head := by
  rintro ⟨j, hj, heq⟩
  have hcount := h.claimable_count
  have hn := h.n_pos
  rw [h.ring.head_eq, Nat.add_assoc] at heq
  exact add_mod_ne hj (by omega) heq.symm

theorem readByte_writeBytes_otherRegion (s : State) {r r' : Region} (hr : r' ≠ r) (o : Nat) (bs : List Byte) (a : Nat) :
    readByte (writeBytes s r o bs) r' a = readByte s r' a :=
  congrArg (Memory.read · a) (regionMem_setRegionMem_other s r r' _ hr)

section
variable {s t : State} {i : Nat} (hi : i ≠ s.head)
include hi

theorem slot_ne_captureRegion : Region.slot i ≠ captureRegion s := by
  unfold captureRegion
  cases s.rxTarget with
  | slot => simpa using hi
  | dummy => nofun

/-- The producer records a length in SLOT[head] only (R229). -/
theorem takeBoundary_slotKept : SlotKept i s (takeBoundaryInterrupt s) := by
  rw [(takeBoundary_frame s).1]
  refine ⟨?_, fun o => rfl⟩
  show (recordedLens s).getD i 0 = s.slotLen.getD i 0
  unfold recordedLens
  split
  · simp [hi.symm]
  · rfl

theorem execRxByte_slotKept {b : Byte} (e : execRxByte b s = .next t) : SlotKept i s t := by
  rcases execRxByte_frame e with rfl | rfl | rfl | rfl
  case inr.inr.inr =>
    exact ⟨by simp [slotLength], readByte_writeBytes_otherRegion s (slot_ne_captureRegion hi) _ _⟩
  all_goals exact .of_eq rfl rfl

theorem execRxBoundary_slotKept (e : execRxBoundary s = .next t) : SlotKept i s t := by
  rcases execRxBoundary_frame e with rfl | rfl | rfl | rfl
  case inr.inr.inr => exact takeBoundary_slotKept (s := { s with rxSeq := .wait, rxIrq := true, env := _ }) hi
  all_goals exact .of_eq rfl rfl

/-- RX.BYTE and RX.BOUNDARY write SLOT[head] only, and but for CRC.APPEND no other instruction writes a slot
(`singleWriters`). -/
theorem exec_slotKept {ins : Instr} (hu : s.up = true) (happ : ∀ k n, ins ≠ .crcAppend (.slot k) n)
    (e : exec ins s = .next t) : SlotKept i s t := by
  by_cases hbyte : ∃ b, ins = .rxByte b
  · obtain ⟨b, rfl⟩ := hbyte
    exact execRxByte_slotKept hi e
  · by_cases hbound : ins = .rxBoundary
    · subst hbound
      exact execRxBoundary_slotKept hi e
    · obtain ⟨-, -, -, -, -, -, hlens, -, -, -, -, -, -, -, -, -, hmems, -⟩ := singleWriters s t ins hu e
      exact .of_eq (hlens hbound).2.1 (hmems (not_exists.1 hbyte) happ)

/-- Nor does POLL write a slot when it goes on, unless it stands at a CRC.APPEND held for one. -/
theorem resumePoll_slotKept (hu : s.up = true) (hp : ∀ k n, s.poll ≠ .appendWait (.slot k) n)
    (e : resumePoll s = .next t) : SlotKept i s t := by
  rcases resumePoll_next e with ⟨-, rfl⟩ | ⟨ins, l, v, hins, -, e⟩ | h | rfl | h | ⟨r, n, hr, h⟩
  · exact .of_eq rfl rfl
  · refine exec_slotKept (s := { withEnv v s with loop := l }) hi hu ?_ e
    rcases hins with rfl | rfl | rfl <;> nofun
  · exact .of_eq (by rw [h.fields]) (by rw [h.fields])
  · exact .of_eq rfl rfl
  · exact .of_eq (by rw [h.fields]) (by rw [h.fields])
  · obtain ⟨-, hmem, -⟩ := h.otherRegions
    exact .of_eq (by rw [h.fields]) (hmem fun k hk => hp k n (hk ▸ hr))

end

/-- Settles O53, by the agent that moves: what is written is SLOT[head], which is not claimable. -/
theorem claimableSlotsUntouched : Obligations.ClaimableSlotsUntouched := by
  unfold Obligations.ClaimableSlotsUntouched
  intro s t h hu hreq hp e i hc
  have hi : i ≠ s.head := fun heq => h.not_claimable_head (heq ▸ hc)
  rcases step_cases s with ⟨-, -, hs⟩ | ⟨v, -, hs⟩ | ⟨v, r, rest, hr, -, hs⟩ <;> rw [hs] at e
  · cases e
    exact takeBoundary_slotKept (s := withEnv s.env.drawTurn.2 s) hi
  · exact resumePoll_slotKept (s := withEnv v s) hi hu hp e
  · obtain ⟨ins, hd, e⟩ := runRecord_next e
    obtain ⟨hmem, -, -⟩ := takeAdmitted_mem hr
    exact exec_slotKept (s := withEnv v s) hi hu (fun k n hk => hreq r hmem k n (hk ▸ hd)) e

/-! ### The invariant in every reachable state -/

/-- After reset nothing has been written in any region (R58). -/
theorem readByte_reset (r : Region) (o : Nat) : readByte State.reset r o = none := by
  cases r with
  | caller k => rfl
  | txbuf | slot i | dummy | hbuf => exact readByte_bringUp Cfg.reference State.reset (by simp) o

/-- Settles O50: every length is zero, and nothing is armed, pending or written. -/
theorem resetMeetsInvariant : Obligations.ResetMeetsInvariant := by
  unfold Obligations.ResetMeetsInvariant
  have hlen : ∀ i, slotLength State.reset i = 0 := slotLength_bringUp Cfg.reference State.reset
  refine ⟨?_, rfl, ?_, ?_, ?_, rfl, rfl, rfl, ?_⟩
  · simp [Cfg.legal, State.reset, Cfg.reference]
  · exact ⟨by decide, rfl, by decide, by decide⟩
  · exact ⟨Nat.le_refl _, Nat.zero_le _, nofun, nofun⟩
  · exact ⟨rfl, rfl, Nat.zero_le _, nofun, fun i => by simp [hlen], fun i o ho => by simp [hlen] at ho, by decide,
      nofun⟩
  · intro r o ho
    simp [readByte_reset] at ho

/-- The callers' buffers are in no invariant but the canonical form and the bounds of memory. -/
theorem Inv.setCallers {s : State} (h : Inv s) {bs : List Buffer}
    (hbs : ∀ b ∈ bs, b.mem.wf = true ∧ ∀ o, (b.mem.read o).isSome → o < b.cap) : Inv { s with callers := bs } := by
  refine ⟨h.legal, h.single, ⟨h.ring.rear_lt, h.ring.head_eq, h.ring.sem_le, h.ring.permits_le⟩,
    ⟨h.tx.rd_le, h.tx.len_le, h.tx.busy_lt, h.tx.busy_written⟩,
    ⟨h.rx.lens, h.rx.mems, h.rx.wptr_le, ?_, h.rx.len_le, h.rx.len_written, h.rx.wait_irq, h.rx.lost_idle⟩,
    h.mdio_idle, h.mdio_driven, ?_, ?_⟩
  · have hc := h.rx.captured
    unfold captureRegion at hc ⊢
    cases htg : s.rxTarget <;> rw [htg] at hc <;> exact hc
  · have hw := h.mem_wf
    simp only [memoryWf, Bool.and_eq_true, List.all_eq_true] at hw ⊢
    exact ⟨hw.1, fun b hb => (hbs b hb).1⟩
  · intro r o ho
    cases r with
    | txbuf => exact h.mem_bounded .txbuf o ho
    | slot i => exact h.mem_bounded (.slot i) o ho
    | dummy => exact h.mem_bounded .dummy o ho
    | hbuf => exact h.mem_bounded .hbuf o ho
    | caller k =>
      cases hk : bs[k]? with
      | none => simp [readByte, regionMem, hk, Memory.read] at ho
      | some b =>
        have hread : (b.mem.read o).isSome := by simpa [readByte, regionMem, hk] using ho
        exact ⟨b.cap, by simp [regionCap, hk], (hbs b (List.mem_of_getElem? hk)).2 o hread⟩

/-- A hardware reset is INIT's step 1 again, with the same configuration, and before INIT (R290, R296). -/
theorem Inv.hardwareReset {s : State} (h : Inv s) : Inv (Machine.hardwareReset s) :=
  (h.bring s.cfg h.legal h.single).frame false State.reset.crc false false 0 s.cfg.phyAddrDefault false Counters.zero s.trace
    s.env

theorem Reachable.inv {s : State} (hr : Reachable s) : Inv s := by
  induction hr with
  | reset => exact resetMeetsInvariant
  | step _ e ih => exact stepKeepsInvariant _ _ ih e
  | environment e _ ih => exact ih.withEnv e
  | buffers bs hbs _ ih => exact ih.setCallers hbs
  | hardwareReset _ ih => exact ih.hardwareReset

/-- Settles O52: the ring part of the invariant, which every reachable state meets. -/
theorem ringInvariantReachable : Obligations.RingInvariantReachable := by
  unfold Obligations.RingInvariantReachable
  intro s hr
  have h : Inv s := hr.inv
  obtain ⟨hlwm, -, hn, -⟩ := Cfg.legal_bounds h.legal
  exact ⟨h.ring.head_eq, h.ring.sem_le, h.ring.permits_le, by omega, h.claimable_count, h.not_claimable_head⟩

/-! ### Capture: RX.BYTE and RX.BOUNDARY (R223 to R234) -/

theorem asRxEvent_single {s : State} (hu : s.up = true) (hd : s.cfg.dualRx = false) (k : Outc) : asRxEvent s k = k := by
  simp [asRxEvent, hu, hd]

section
variable {s : State} (hu : s.up = true) (hd : s.cfg.dualRx = false)
include hu hd

theorem exec_rxByte_listening (hl : rxListening s = true) (b : Byte) :
    exec (.rxByte b) s = .next { storeByte b s with rxSeq := .capture } :=
  (asRxEvent_single hu hd _).trans (congrArg _ (if_pos hl))

theorem exec_rxByte_deaf (hl : rxListening s = false) (b : Byte) : exec (.rxByte b) s = .next { s with rxLost := true } :=
  (asRxEvent_single hu hd _).trans (congrArg _ (if_neg (by simp [hl])))

theorem exec_rxBoundary_listening (hl : rxListening s = true) :
    exec .rxBoundary s = .next (interruptOrLatency (signalBoundary s)) :=
  (asRxEvent_single hu hd _).trans (congrArg _ (if_pos hl))

theorem exec_rxBoundary_deaf (hl : rxListening s = false) : exec .rxBoundary s = .next { s with rxLost := false } :=
  (asRxEvent_single hu hd _).trans (congrArg _ (if_neg (by simp [hl])))

end

/-- What a run of captured bytes leaves: they stand in the armed region from the pointer on, and the pointer behind them. -/
def stored (bs : List Byte) (s : State) : State :=
  { writeBytes s (captureRegion s) s.rxWptr bs with rxWptr := s.rxWptr + bs.length }

theorem storeByte_room {s : State} (h : s.rxWptr < s.cfg.slotCap) (b : Byte) : storeByte b s = stored [b] s :=
  if_pos (by rwa [captureCap_eq])

theorem storeByte_full {s : State} (h : s.cfg.slotCap ≤ s.rxWptr) (b : Byte) : storeByte b s = s :=
  if_neg (by rwa [captureCap_eq, Nat.not_lt])

theorem present_captureRegion {s : State} (hm : s.slotMem.length = s.cfg.n) (hh : s.head < s.cfg.n) :
    present s (captureRegion s) := by
  unfold captureRegion
  cases s.rxTarget with
  | slot => exact hh.trans_eq hm.symm
  | dummy => trivial

section
variable {s : State} (hw : memoryWf s = true) (hp : present s (captureRegion s)) (bs : List Byte)

theorem registers_stored : registers (stored bs s) = registers { s with rxWptr := s.rxWptr + bs.length } :=
  congrArg (fun u : State => { u with rxWptr := s.rxWptr + bs.length }) (registers_writeBytes s _ _ bs)

theorem sameRegions_stored : sameRegions s (stored bs s) :=
  sameRegions_writeBytes s _ _ bs

include hw hp

theorem sameBytesBut_stored : sameBytesBut s (stored bs s) (captureRegion s) s.rxWptr bs.length :=
  sameBytesBut_writeBytes s hw _ hp _ bs

theorem readBytes_stored : readBytes (stored bs s) (captureRegion s) s.rxWptr bs.length = some bs := by
  rw [← readBytes_writeBytes s hw (captureRegion s) s.rxWptr bs hp]
  exact readBytes_congr fun k _ => rfl

end

/-- Settles O34: below the capacity the byte is one store into the armed region. -/
theorem rxByteResult : Obligations.RxByteResult := by
  unfold Obligations.RxByteResult
  intro s b hu hd hs hlost hw hm hh
  have hexec := exec_rxByte_listening hu hd ((rxListening_iff s).2 ⟨hs, hlost⟩) b
  have hp := present_captureRegion hm hh
  refine ⟨?_, fun hroom => ?_, fun hfull => ?_⟩
  · unfold captureRegion
    cases s.rxTarget <;> rfl
  · rw [storeByte_room hroom] at hexec
    refine ⟨_, hexec, readBytes_get (readBytes_stored hw hp [b]) 0 Nat.one_pos, sameBytesBut_stored hw hp [b],
      sameRegions_stored [b], ?_⟩
    exact congrArg (fun u : State => { u with rxSeq := .capture }) (registers_stored [b])
  · rw [hexec, storeByte_full hfull]

/-- Settles O36: the refused turn leaves RXCAP's half of the boundary. -/
theorem boundarySignal : Obligations.BoundarySignal := by
  unfold Obligations.BoundarySignal
  intro s hu hd hs hlost ht
  rw [exec_rxBoundary_listening hu hd ((rxListening_iff s).2 ⟨hs, hlost⟩)]
  exact congrArg _ (if_neg (by simp [ht]))

theorem recordedLens_eq (s : State) :
    recordedLens s = if s.rxTarget = .slot then s.slotLen.set s.head s.rxWptr else s.slotLen := by
  unfold recordedLens
  cases s.rxTarget <;> rfl

theorem ringFull_iff (s : State) : ringFull s = true ↔ s.cfg.n - s.cfg.lwm ≤ s.sem :=
  decide_eq_true_iff

theorem not_ringFull_iff (s : State) : ringFull s = false ↔ s.sem < s.cfg.n - s.cfg.lwm := by
  rw [← Bool.not_eq_true, ringFull_iff, Nat.not_le]

/-- The handler overwrites the sequencer's condition and the pending bit, and does not look at the lost frame. -/
theorem takeBoundary_sequencer (s : State) (q : RxSeq) (irq lost : Bool) :
    takeBoundaryInterrupt { s with rxSeq := q, rxIrq := irq, rxLost := lost } =
      { takeBoundaryInterrupt s with rxLost := lost } := by
  cases hf : ringFull s with
  | true =>
    rw [takeBoundary_full s hf, takeBoundary_full { s with rxSeq := q, rxIrq := irq, rxLost := lost } hf]
    rfl
  | false =>
    rw [takeBoundary_notFull s hf, takeBoundary_notFull { s with rxSeq := q, rxIrq := irq, rxLost := lost } hf]
    rfl

theorem takeBoundary_signal (s : State) : takeBoundaryInterrupt (signalBoundary s) = takeBoundaryInterrupt s :=
  (takeBoundary_sequencer s .wait true s.rxLost).trans (takeBoundary_sequencer s s.rxSeq s.rxIrq s.rxLost).symm

theorem interruptOrLatency_taken {s : State} (ht : s.env.drawTurn.1 = true) :
    interruptOrLatency s = takeBoundaryInterrupt (withEnv s.env.drawTurn.2 s) :=
  if_pos ht

/-- Settles O37: both halves in one step are the handler alone, on the answered state. -/
theorem boundaryTaken : Obligations.BoundaryTaken := by
  unfold Obligations.BoundaryTaken
  intro s hu hd hs hlost ht
  have hexec : exec .rxBoundary s = .next (takeBoundaryInterrupt (withEnv s.env.drawTurn.2 s)) := by
    rw [exec_rxBoundary_listening hu hd ((rxListening_iff s).2 ⟨hs, hlost⟩),
      interruptOrLatency_taken (s := signalBoundary s) ht]
    exact congrArg _ (takeBoundary_signal (withEnv s.env.drawTurn.2 s))
  rw [hexec, ← recordedLens_eq]
  exact ⟨fun hfull => congrArg _ (takeBoundary_full (withEnv _ s) ((ringFull_iff s).2 hfull)),
    fun hroom => congrArg _ (takeBoundary_notFull (withEnv _ s) ((not_ringFull_iff s).2 hroom))⟩

theorem step_takesInterrupt {s : State} (hu : s.up = true) (hi : s.rxIrq = true) (ht : s.env.drawTurn.1 = true) :
    step s = .next (takeBoundaryInterrupt (withEnv s.env.drawTurn.2 s)) :=
  (if_pos (by simp [irqPending, hu, hi])).trans (if_pos ht)

/-- Settles O38: the turn is IRQ's before POLL's place is looked at. -/
theorem stepTakesInterrupt : Obligations.StepTakesInterrupt := by
  unfold Obligations.StepTakesInterrupt
  intro s hu hi ht
  rw [step_takesInterrupt hu hi ht, ← recordedLens_eq]
  exact ⟨fun hfull => congrArg _ (takeBoundary_full (withEnv _ s) ((ringFull_iff s).2 hfull)),
    fun hroom => congrArg _ (takeBoundary_notFull (withEnv _ s) ((not_ringFull_iff s).2 hroom))⟩

/-! ### Runs of wire events -/

theorem execAll_append (is js : List Instr) (s : State) :
    execAll (is ++ js) s = (execAll is s).andThen (execAll js) := by
  induction is generalizing s with
  | nil => rfl
  | cons i is ih =>
    simp only [List.cons_append, execAll]
    cases exec i s with
    | next u => exact ih u
    | fault f => rfl
    | refused r => rfl

theorem execAll_single {i : Instr} {s t : State} (h : exec i s = .next t) : execAll [i] s = .next t := by
  rw [execAll, h]
  rfl

/-- The bytes of a lost frame: the first one lost says so, the others change nothing. -/
theorem execAll_rxByte_deaf {s : State} (hu : s.up = true) (hd : s.cfg.dualRx = false) (hl : rxListening s = false)
    {bs : List Byte} (hbs : bs ≠ []) : execAll (bs.map .rxByte) s = .next { s with rxLost := true } := by
  induction bs generalizing s with
  | nil => exact absurd rfl hbs
  | cons b bs ih =>
    have hfirst := exec_rxByte_deaf hu hd hl b
    rw [List.map_cons, execAll, hfirst, Outc.andThen]
    by_cases hrest : bs = []
    · rw [hrest]
      rfl
    · exact ih (s := { s with rxLost := true }) hu hd ((not_rxListening_iff _).2 (.inr rfl)) hrest

/-- A frame of which a byte has been lost already is lost to its boundary (R226). -/
theorem execAll_lostFrame {s : State} (hu : s.up = true) (hd : s.cfg.dualRx = false) (hlost : s.rxLost = true)
    (bs : List Byte) : execAll (bs.map .rxByte ++ [.rxBoundary]) s = .next { s with rxLost := false } := by
  have hl : rxListening s = false := (not_rxListening_iff s).2 (.inr hlost)
  by_cases hbs : bs = []
  · rw [hbs]
    exact execAll_single (exec_rxBoundary_deaf hu hd hl)
  · rw [execAll_append, execAll_rxByte_deaf hu hd hl hbs]
    exact execAll_single (exec_rxBoundary_deaf (s := { s with rxLost := true }) hu hd ((not_rxListening_iff _).2 (.inr rfl)))

/-- Settles O35: the first byte in WAIT marks the frame as lost, and the re-trigger leaves the mark to its boundary. -/
theorem waitLosesWireEvents : Obligations.WaitLosesWireEvents := by
  unfold Obligations.WaitLosesWireEvents
  refine ⟨fun s b hu hd hs => ?_, fun s before after hu hd hs hbefore => ?_⟩
  · have hl : rxListening s = false := (not_rxListening_iff s).2 hs
    exact ⟨exec_rxByte_deaf hu hd hl b, exec_rxBoundary_deaf hu hd hl⟩
  · have hl : rxListening s = false := (not_rxListening_iff s).2 (.inl hs)
    refine ⟨_, execAll_rxByte_deaf hu hd hl hbefore, ?_⟩
    have hfields := (takeBoundary_frame s).1
    rw [takeBoundary_sequencer s s.rxSeq s.rxIrq true]
    exact execAll_lostFrame (s := { takeBoundaryInterrupt s with rxLost := true })
      ((congrArg State.up hfields).trans hu) ((congrArg (·.cfg.dualRx) hfields).trans hd) rfl after

/-! ### A whole frame in its slot -/

theorem stored_slot {s : State} (ht : s.rxTarget = .slot) (bs : List Byte) : stored bs s =
    { s with slotMem := s.slotMem.set s.head ((s.slotMem.getD s.head []).writeAll s.rxWptr bs),
             rxWptr := s.rxWptr + bs.length } := by
  simp only [stored, captureRegion, ht]
  rw [← ht]
  rfl

theorem stored_dummy {s : State} (ht : s.rxTarget = .dummy) (bs : List Byte) : stored bs s =
    { s with dummy := s.dummy.writeAll s.rxWptr bs, rxWptr := s.rxWptr + bs.length } := by
  simp only [stored, captureRegion, ht]
  rw [← ht]
  rfl

section
variable {s : State} (hp : present s (captureRegion s))
include hp

theorem head_lt_of_present (ht : s.rxTarget = .slot) : s.head < s.slotMem.length := by
  simpa [captureRegion, ht, present] using hp

theorem stored_nil : stored [] s = s := by
  cases ht : s.rxTarget with
  | slot =>
    have hset : s.slotMem.set s.head (s.slotMem.getD s.head []) = s.slotMem := by
      simp [head_lt_of_present hp ht]
    rw [stored_slot ht]
    exact congrArg (fun m => { s with slotMem := m }) hset
  | dummy =>
    rw [stored_dummy ht]
    rfl

/-- A byte and the bytes after it, stored one after the other. -/
theorem stored_cons (b : Byte) (bs : List Byte) (q : RxSeq) :
    stored bs { stored [b] s with rxSeq := q } = { stored (b :: bs) s with rxSeq := q } := by
  have htarget : (stored [b] s).rxTarget = s.rxTarget := by simp [stored]
  cases ht : s.rxTarget with
  | slot =>
    rw [stored_slot (s := { stored [b] s with rxSeq := q }) (htarget.trans ht), stored_slot ht, stored_slot ht]
    simp [head_lt_of_present hp ht, Memory.writeAll]
    omega
  | dummy =>
    rw [stored_dummy (s := { stored [b] s with rxSeq := q }) (htarget.trans ht), stored_dummy ht, stored_dummy ht]
    simp [Memory.writeAll]
    omega

end

/-- The bytes of a frame that fits, captured one by one. -/
theorem execAll_rxByte_listening {s : State} (hu : s.up = true) (h : Inv s) (hl : rxListening s = true)
    {bs : List Byte} (hfit : s.rxWptr + bs.length ≤ s.cfg.slotCap) :
    ∃ q, q ≠ .wait ∧ execAll (bs.map .rxByte) s = .next { stored bs s with rxSeq := q } := by
  have hp := present_captureRegion h.rx.mems h.head_lt
  induction bs generalizing s with
  | nil => exact ⟨s.rxSeq, ((rxListening_iff s).1 hl).1, by rw [stored_nil hp]; rfl⟩
  | cons b bs ih =>
    rw [List.length_cons] at hfit
    have hfirst := exec_rxByte_listening hu h.single hl b
    have hinv := h.capture hl b
    rw [storeByte_room (by omega)] at hfirst hinv
    have hlost : (stored [b] s).rxLost = false := by simpa [stored] using ((rxListening_iff s).1 hl).2
    obtain ⟨q, hq, hrest⟩ := ih (s := { stored [b] s with rxSeq := .capture }) (by simpa [stored] using hu) hinv
      ((rxListening_iff _).2 ⟨nofun, hlost⟩) (by simp [stored]; omega)
      (present_captureRegion hinv.rx.mems hinv.head_lt)
    refine ⟨q, hq, ?_⟩
    rw [List.map_cons, execAll, hfirst, Outc.andThen, hrest, stored_cons hp]

/-- Settles O39: the bytes are stored at the slot's start, and the boundary's handler then releases the slot. -/
theorem frameCapture : Obligations.FrameCapture := by
  unfold Obligations.FrameCapture
  intro s frame hu h hs hlost htg hw hroom hfit ht
  have hregion : captureRegion s = .slot s.head := by simp [captureRegion, htg]
  have hp := present_captureRegion h.rx.mems h.head_lt
  have hread := readBytes_stored h.mem_wf hp frame
  have hsame := sameBytesBut_stored h.mem_wf hp frame
  rw [hregion, hw] at hread hsame
  obtain ⟨q, hq, hbytes⟩ := execAll_rxByte_listening (bs := frame) hu h ((rxListening_iff s).2 ⟨by simp [hs], hlost⟩)
    (by omega)
  have hbound := (boundaryTaken { stored frame s with rxSeq := q } (by simpa [stored] using hu)
    (by simpa [stored] using h.single) hq (by simpa [stored] using hlost) (by simpa [stored] using ht)).2
    (by simpa [stored] using hroom)
  refine ⟨_, by rw [execAll_append, hbytes]; exact execAll_single hbound, ?_, ?_, ?_, ?_, ?_⟩
  · simp [stored, slotLength, htg, hw, h.rx.lens, h.head_lt]
  · rw [← hread]
    exact readBytes_congr fun k _ => rfl
  · exact hsame
  · exact sameRegions_stored frame
  · have hirq : s.rxIrq = false := by
      simpa [hs] using h.rx.wait_irq
    have hsem : min (s.sem + 1) s.cfg.n = s.sem + 1 := by omega
    simp [registers, stored, htg, hw, hs, hirq, hsem]

/-! ### RX.CONSUME without a permit (R236) -/

section
variable {s : State} (hu : s.up = true) (hp : s.poll = .ready)
include hu hp

theorem exec_rxConsume : exec .rxConsume s = acquireOrWait s :=
  asCommand_ready hu hp _

theorem exec_rxConsume_empty (hs : s.sem = 0) : exec .rxConsume s =
    .next (if s.env.drawTimeout.1 then consumed .timeout (withEnv s.env.drawTimeout.2 s)
      else withEnv s.env.drawTimeout.2 { s with poll := .semWait }) :=
  (exec_rxConsume hu hp).trans (if_pos hs)

end

/-- The first step of RX.CONSUME does not look at where POLL stands, and says where it stands afterwards. -/
theorem acquireOrWait_setPoll (s : State) (p : Poll) : acquireOrWait { s with poll := p } = acquireOrWait s := rfl

/-- A step in which a waiting consumer looks again. -/
theorem step_semWait {s : State} {e : Env} (hp : s.poll = .semWait) (hm : pollMoves s e) :
    step s = acquireOrWait (withEnv e s) := by
  rw [step_pollMoves hm]
  simp only [resumePoll, withEnv_fields, hp]

/-- Settles O40: both the call and the waiting consumer are `acquireOrWait`. -/
theorem consumeWaits : Obligations.ConsumeWaits := by
  unfold Obligations.ConsumeWaits
  intro s hu
  refine ⟨fun hp hs ht => ?_, fun hp hs ht => ?_, fun e hp hm => ?_⟩
  · rw [exec_rxConsume_empty hu hp hs, if_pos ht, hp]
    rfl
  · rw [exec_rxConsume_empty hu hp hs, if_neg (by simp [ht])]
    rfl
  · calc step s
        = acquireOrWait (withEnv e s) := step_semWait hp hm
      _ = acquireOrWait { s with poll := .ready, env := e } := (acquireOrWait_setPoll (withEnv e s) .ready).symm
      _ = exec .rxConsume { s with poll := .ready, env := e } :=
          (exec_rxConsume (s := { s with poll := .ready, env := e }) hu rfl).symm

/-! ### RX.CONSUME on the slot it has claimed (R237 to R239) -/

/-- The consumer with its permit and its slot, not overtaken. -/
def claim (s : State) : State := withEnv s.env.drawTurn.2 { semAcquire s with poll := .claimed }

theorem exec_rxConsume_undisturbed {s : State} (hu : s.up = true) (hp : s.poll = .ready) (hs : s.sem ≠ 0)
    (ht : s.env.drawTurn.1 = false) : exec .rxConsume s = consumeClaimed (claim s) :=
  (exec_rxConsume_permit hu hp hs).trans (afterAcquire_undisturbed (s := semAcquire s) ht)

theorem readBytes_claim (s : State) (r : Region) (o n : Nat) : readBytes (claim s) r o n = readBytes s r o n :=
  readBytes_congr fun _ _ => rfl

theorem readBytes_setCrc (s : State) (x : Word) (r : Region) (o n : Nat) :
    readBytes { s with crc := x } r o n = readBytes s r o n :=
  readBytes_congr fun _ _ => rfl

/-- The slot is given up with an outcome, and the reason counted. -/
def dropSlot (o : ConsumeOutcome) (f : Counters → Counters) (s : State) : State :=
  consumed o (advanceRear (count f s))

theorem dropSlot_eq (o : ConsumeOutcome) (f : Counters → Counters) (s : State) : dropSlot o f s =
    { s with rear := (s.rear + 1) % s.cfg.n, cnt := counted f s, poll := .ready,
             trace := s.trace ++ [.result (.consumed o)] } := by
  rw [dropSlot, count_eq]
  rfl

theorem regionCap_slot {s : State} {i : Nat} (hi : i < s.cfg.n) : regionCap s (.slot i) = some s.cfg.slotCap :=
  if_pos hi

section
variable {s : State} (hr : s.rear < s.cfg.n)
include hr

theorem consumeClaimed_short (hlen : slotLength s s.rear < 4) :
    consumeClaimed s = .next (dropSlot .badCrc Counters.incRxBadCrc s) := by
  unfold consumeClaimed
  exact crcVerify_short _ (regionCap_slot hr) hlen

variable {m : List Byte} {f : Word} (hlen : slotLength s s.rear = m.length + 4) (hcap : m.length + 4 ≤ s.cfg.slotCap)
  (hb : readBytes s (.slot s.rear) 0 (m.length + 4) = some (m ++ fcsBytes f))
include hlen hcap hb

/-- Data and any FCS in the claimed slot: CRC.VERIFY's boolean is whether it is the data's own. -/
theorem consumeClaimed_verify : consumeClaimed s =
    if fcs m = f then allocate m.length { s with crc := crcAcc m }
    else .next (dropSlot .badCrc Counters.incRxBadCrc { s with crc := crcAcc m }) := by
  unfold consumeClaimed
  dsimp only
  rw [hlen, crcVerify_eq _ (regionCap_slot hr) (by omega) hcap hb, fcsMatches_append_fcsBytes, Nat.add_sub_cancel,
    List.take_left]
  by_cases hf : fcs m = f
  · simp [hf]
  · simp [hf, dropSlot]

end

/-- Settles O41: a length under four or another FCS drops the slot. -/
theorem consumeBadCrc : Obligations.ConsumeBadCrc := by
  unfold Obligations.ConsumeBadCrc
  intro s hu hp hs ht hr hcap
  rw [exec_rxConsume_undisturbed hu hp hs ht]
  refine ⟨fun hshort => ?_, fun m b0 b1 b2 b3 hlen hb hf => ?_⟩
  · rw [consumeClaimed_short (s := claim s) hr hshort, dropSlot_eq, hp]
    rfl
  · rw [← fcsBytes_ofBytes, ← readBytes_claim] at hb
    rw [consumeClaimed_verify (s := claim s) hr hlen (hlen ▸ hcap) hb, if_neg hf, dropSlot_eq, hp]
    rfl

/-! ### The host's answers (R239 to R242) -/

theorem allocate_refused {s : State} (ha : s.env.drawAlloc.1 = false) (n : Nat) :
    allocate n s = .next (dropSlot .allocFail Counters.incRxAllocFail (emit (.alloc n) (withEnv s.env.drawAlloc.2 s))) :=
  if_neg (by simp [ha])

theorem allocate_given {s : State} {m : List Byte} (ha : s.env.drawAlloc.1 = true)
    (hb : readBytes s (.slot s.rear) 0 m.length = some m) :
    allocate m.length s = .next (deliver m (emit (.alloc m.length) (withEnv s.env.drawAlloc.2 s))) := by
  have hb' : readBytes (emit (.alloc m.length) (withEnv s.env.drawAlloc.2 s)) (.slot s.rear) 0 m.length = some m := by
    rw [← hb]
    exact readBytes_congr fun _ _ => rfl
  simp [allocate, ha, hb']

section
variable {s : State} (n : Nat)

theorem hostInput_ok (ha : s.env.drawInput.1 = .ok) : hostInput n s =
    { s with hbuf := none, poll := .ready, trace := s.trace ++ [.result (.consumed (.delivered n))],
             env := s.env.drawInput.2 } := by
  simp only [hostInput, ha]
  rfl

theorem hostInput_fail (ha : s.env.drawInput.1 = .fail) : hostInput n s =
    { s with hbuf := none, poll := .ready, cnt := counted Counters.incRxDeliverFail s,
             trace := s.trace ++ [.free, .result (.consumed .deliverFail)], env := s.env.drawInput.2 } := by
  simp only [hostInput, ha, count_eq]
  simp [consumed, returns, emit, withEnv]
  rfl

theorem hostInput_stays (ha : s.env.drawInput.1 = .stays) : hostInput n s =
    { s with poll := .delivering n, env := s.env.drawInput.2 } := by
  simp only [hostInput, ha]
  rfl

end

/-- A step in which POLL looks again at the host's `input` call. -/
theorem step_delivering {s : State} {n : Nat} {e : Env} (hp : s.poll = .delivering n) (hm : pollMoves s e) :
    step s = .next (hostInput n (withEnv e s)) := by
  rw [step_pollMoves hm]
  simp only [resumePoll, withEnv_fields, hp]

/-- Settles O44: from inside the call, what POLL does next is what the host's answer says. -/
theorem deliveryEnds : Obligations.DeliveryEnds := by
  unfold Obligations.DeliveryEnds
  intro s n e hp hm
  rw [step_delivering hp hm]
  refine ⟨fun ha => ?_, fun ha => ?_, fun ha => ?_⟩
  · rw [hostInput_ok (s := withEnv e s) n ha]
    rfl
  · rw [hostInput_fail (s := withEnv e s) n ha]
    rfl
  · rw [hostInput_stays (s := withEnv e s) n ha, ← hp]
    rfl

/-- The data of a frame, read without its FCS. -/
theorem readBytes_left {s : State} {r : Region} {o : Nat} {n : Nat} {as bs : List Byte}
    (h : readBytes s r o (as.length + n) = some (as ++ bs)) : readBytes s r o as.length = some as :=
  readBytes_eq_some rfl fun k hk => by
    rw [readBytes_get h k (by omega), List.getElem?_append_left hk]

/-- The delivery begins: the host has given its buffer, the frame is in it, and `rear` has been advanced (R239, R240). -/
def offered (m : List Byte) (s : State) : State :=
  { s with sem := s.sem - 1, crc := crcAcc m, rear := (s.rear + 1) % s.cfg.n, poll := .claimed,
           hbuf := some ⟨m.length, Memory.writeAll [] 0 m⟩, trace := s.trace ++ [.alloc m.length, .input m],
           env := s.env.drawTurn.2.drawAlloc.2 }

theorem deliver_offered (m : List Byte) (s : State) :
    deliver m (emit (.alloc m.length) (withEnv (claim s).env.drawAlloc.2 { claim s with crc := crcAcc m })) =
      hostInput m.length (offered m s) := by
  simp [deliver, offered, claim, emit, withEnv, advanceRear, semAcquire, writeBytes, setRegionMem, regionMem]

theorem read_writeAll_empty (m : List Byte) (o : Nat) : (Memory.writeAll [] 0 m).read o = m[o]? := by
  rw [Memory.read_writeAll m [] 0 o rfl]
  split
  · rfl
  · next h => exact (List.getElem?_eq_none (by omega)).symm

/-- Settles O42, by the host's answers; the buffer is the frame written into an empty memory. -/
theorem consumeDelivers : Obligations.ConsumeDelivers := by
  unfold Obligations.ConsumeDelivers
  intro s m b0 b1 b2 b3 hu hp hs ht hr hlen hcap hb hf
  rw [← fcsBytes_ofBytes, ← readBytes_claim] at hb
  have hexec : exec .rxConsume s = allocate m.length { claim s with crc := crcAcc m } := by
    rw [exec_rxConsume_undisturbed hu hp hs ht, consumeClaimed_verify (s := claim s) hr hlen hcap hb, if_pos hf]
  have hgiven (ha : s.env.drawTurn.2.drawAlloc.1 = true) :
      exec .rxConsume s = .next (hostInput m.length (offered m s)) := by
    rw [hexec, allocate_given (s := { claim s with crc := crcAcc m }) ha
      ((readBytes_setCrc (claim s) _ _ _ _).trans (readBytes_left hb))]
    exact congrArg _ (deliver_offered m s)
  refine ⟨fun ha => ?_, fun ha hi => ?_, fun ha hi => ?_, fun ha hi => ?_⟩
  · rw [hexec, allocate_refused (s := { claim s with crc := crcAcc m }) ha, dropSlot_eq, hp]
    simp [claim, counted, emit, Counters.incRxAllocFail]
  · rw [hgiven ha, hostInput_ok (s := offered m s) _ hi, hp]
    simp [offered]
  · rw [hgiven ha, hostInput_fail (s := offered m s) _ hi, hp]
    simp [offered, counted, Counters.incRxDeliverFail]
    rfl
  · rw [hgiven ha, hostInput_stays (s := offered m s) _ hi]
    exact ⟨_, rfl, read_writeAll_empty m⟩

end Sys2Proof.Machine
end

section
/-! SUPPORT. The statements about stops (60_exceptions.md R261 to R264, R277): the operations that read only bytes something has
written, the commands of the program that can read others, and a command asked for while POLL is inside an operation. -/

namespace Sys2Proof.Machine

/-! ### One operation at a time (R277) -/

theorem asCommand_busy {s : State} (hu : s.up = true) (hp : s.poll ≠ .ready) (k : Outc) :
    asCommand s k = .refused .pollBusy :=
  (if_pos hu).trans (if_neg hp)

theorem execTxSend_busy {s : State} (hu : s.up = true) (hp : s.poll ≠ .ready) (hd : ∀ n, s.poll ≠ .delivering n)
    (frags : List (List Byte)) (total : Nat) : execTxSend frags total s = .refused .pollBusy := by
  unfold execTxSend
  cases h : s.poll with
  | ready => exact absurd h hp
  | delivering n => exact absurd h (hd n)
  | _ => exact if_pos hu

/-- Settles O56: TX.SEND looks itself where POLL stands; every other command is behind the guard of R277. -/
theorem pollBusyRefused : Obligations.PollBusyRefused := by
  unfold Obligations.PollBusyRefused
  intro s i hu hp hbyte hboundary hdma hinit hsend
  cases i with
  | rxByte b => exact absurd rfl (hbyte b)
  | rxBoundary => exact absurd rfl hboundary
  | txDmaByte => exact absurd rfl hdma
  | init c => exact absurd rfl (hinit c)
  | txSend frags total => exact execTxSend_busy hu hp (hsend ⟨frags, total, rfl⟩) frags total
  | _ => exact asCommand_busy hu hp _

/-! ### The shared operations that can stop in a fault (10_state.md R47) -/

theorem andThen_fault {o : Outc} {k : State → Outc} {f : Fault} (h : o.andThen k = .fault f) :
    o = .fault f ∨ ∃ t, o = .next t ∧ k t = .fault f := by
  cases o with
  | next t => exact .inr ⟨t, rfl, h⟩
  | fault g => exact .inl h
  | refused r => cases h

theorem runRecord_fault {r : List Byte} {s : State} {f : Fault} (h : runRecord r s = .fault f) :
    ∃ i, decode r = .ok i ∧ runRecord r s = exec i s := by
  cases hd : decode r with
  | ok i => exact ⟨i, rfl, runRecord_decoded hd s⟩
  | error x =>
    rw [runRecord_undecoded hd] at h
    cases h

theorem crcAppend_fault {s : State} {buf : Region} {len : Nat} {f : Fault} (h : crcAppend buf len s = .fault f) :
    readBytes s buf 0 len = none := by
  cases hb : readBytes s buf 0 len with
  | none => rfl
  | some bs =>
    simp only [crcAppend, whenAppendFits, hb] at h
    split at h
    · cases h
    · split at h <;> cases h

/-- Apart from `crc` it goes on in the state it was called in. -/
theorem crcVerify_fault {s : State} {buf : Region} {n : Nat} {k : Bool → State → Outc} {f : Fault}
    (h : crcVerify buf n s k = .fault f) :
    readBytes s buf 0 n = none ∨ ∃ ok x, k ok { s with crc := x } = .fault f := by
  unfold crcVerify at h
  split at h
  · cases h
  · split at h
    · exact .inr ⟨false, s.crc, h⟩
    · split at h
      · cases h
      · split at h
        · next hb => exact .inl hb
        · exact .inr ⟨_, _, h⟩

/-! ### The transmit path reads only what has been written (43_tx_framer.md R203 to R212) -/

/-- The FCS is taken over the frame that has just been gathered into TXBUF. -/
theorem sendFrame_ne_fault {s : State} (hw : memoryWf s = true) (frags : List (List Byte)) (n : Nat) (f : Fault) :
    sendFrame frags n s ≠ .fault f := by
  intro h
  obtain h | ⟨t, -, h⟩ := andThen_fault h
  · have hread := readBytes_writeBytes s hw .txbuf 0 (padFrame (gather frags n)) trivial
    rw [crcAppend_fault h] at hread
    cases hread
  · cases h

theorem whenSubmissionFits_fault {s : State} {frags : List (List Byte)} {n : Nat} {k : Outc} {f : Fault}
    (h : whenSubmissionFits frags n s k = .fault f) : k = .fault f := by
  unfold whenSubmissionFits at h
  split at h
  · split at h
    · exact h
    · cases h
  · cases h

theorem sendOrWait_ne_fault {s : State} (hw : memoryWf s = true) (frags : List (List Byte)) (n : Nat) (w : Option Nat)
    (f : Fault) : sendOrWait frags n w s ≠ .fault f := by
  unfold sendOrWait
  split
  · nofun
  · exact sendFrame_ne_fault hw frags n f

theorem execTxSend_ne_fault {s : State} (hw : memoryWf s = true) (frags : List (List Byte)) (n : Nat) (f : Fault) :
    execTxSend frags n s ≠ .fault f := by
  intro h
  unfold execTxSend whenUp at h
  split at h
  · split at h
    · exact sendOrWait_ne_fault hw frags n _ f (whenSubmissionFits_fault h)
    · exact sendOrWait_ne_fault hw frags n _ f (whenSubmissionFits_fault h)
    all_goals cases h
  · cases h

theorem resumeSend_ne_fault {s : State} (hw : memoryWf s = true) (frags : List (List Byte)) (n : Nat) (w : Option Nat)
    (f : Fault) : resumeSend frags n w s ≠ .fault f := by
  unfold resumeSend
  split
  · nofun
  · exact sendFrame_ne_fault (s := { s with poll := afterSend w }) hw frags n f

/-- An armed transfer covers bytes that have been written (R212). -/
theorem Inv.execTxDmaByte_ne_fault {s : State} (h : Inv s) (f : Fault) : Machine.execTxDmaByte s ≠ .fault f := by
  unfold Machine.execTxDmaByte
  split
  · next hen =>
    obtain ⟨-, hbusy, hlt⟩ : s.up = true ∧ s.txBusy = true ∧ s.txRd < s.txLen := by simpa [txDmaEnabled] using hen
    obtain ⟨b, hb⟩ := Option.isSome_iff_exists.1 (h.tx.busy_written hbusy s.txRd hlt)
    simp only [hb]
    nofun
  · nofun

/-! ### The receive path reads only what has been written (44_rx_framer.md R235 to R242, R251) -/

theorem asRxEvent_ne_fault (s t : State) (f : Fault) : asRxEvent s (.next t) ≠ .fault f := by
  unfold asRxEvent
  split
  · split <;> nofun
  · nofun

theorem readBytes_ne_none_of_written {s : State} {r : Region} {k n : Nat} (hw : written s r n) (hk : k ≤ n) :
    readBytes s r 0 k ≠ none :=
  Option.isSome_iff_ne_none.1 (readBytes_isSome fun j hj => by
    rw [Nat.zero_add]
    exact hw j (by omega))

theorem allocate_ne_fault {s : State} {n : Nat} (hw : written s (.slot s.rear) n) (f : Fault) :
    allocate n s ≠ .fault f := by
  unfold allocate
  dsimp only
  split
  · split
    · next hb => exact absurd hb (readBytes_ne_none_of_written (s := emit _ (withEnv _ s)) hw (Nat.le_refl n))
    · nofun
  · nofun

theorem consumeClaimed_ne_fault {s : State} (hw : written s (.slot s.rear) (slotLength s s.rear)) (f : Fault) :
    consumeClaimed s ≠ .fault f := by
  intro h
  unfold consumeClaimed at h
  obtain hb | ⟨ok, x, h⟩ := crcVerify_fault h
  · exact readBytes_ne_none_of_written hw (Nat.le_refl _) hb
  · split at h
    · exact allocate_ne_fault (s := { s with crc := x }) (fun o ho => hw o (by omega)) f h
    · cases h

/-- The acquire changes no slot. -/
theorem acquireOrWait_ne_fault {s : State} (hw : written s (.slot s.rear) (slotLength s s.rear)) (f : Fault) :
    acquireOrWait s ≠ .fault f := by
  unfold acquireOrWait
  split
  · nofun
  · unfold afterAcquire
    dsimp only
    split
    · nofun
    · exact consumeClaimed_ne_fault (s := withEnv _ { semAcquire s with poll := .claimed }) hw f

/-! ### The commands that can stop in a fault -/

/-- The instruction is a CRC command (40_crc.md R135, R138). -/
def isCrcCommand (i : Instr) : Prop := (∃ buf len, i = .crcAppend buf len) ∨ ∃ buf len, i = .crcVerify buf len

theorem mdioCommand_ne_fault (s t : State) (f : Fault) : asCommand s (whenMdioIdle s (.next t)) ≠ .fault f := by
  intro h
  obtain ⟨-, -, h⟩ := asCommand_fault h
  unfold whenMdioIdle at h
  split at h <;> cases h

theorem execInit_ne_fault (c : Cfg) (s : State) (f : Fault) : execInit c s ≠ .fault f := by
  unfold execInit
  split
  · nofun
  · split
    · split <;> nofun
    · nofun

/-- From a state with the invariant only the CRC commands can read a byte nothing has written. -/
theorem Inv.exec_fault {i : Instr} {s : State} {f : Fault} (h : Inv s) (e : Machine.exec i s = .fault f) :
    isCrcCommand i := by
  cases i with
  | crcAppend buf len => exact .inl ⟨buf, len, rfl⟩
  | crcVerify buf n => exact .inr ⟨buf, n, rfl⟩
  | mdioRead | mdioReadFrame | mdioWrite | mdioWriteFrame | phyScan | linkPoll =>
    exact absurd e (mdioCommand_ne_fault s _ f)
  | statsReport =>
    obtain ⟨-, -, e⟩ := asCommand_fault e
    cases e
  | txSend frags n => exact absurd e (execTxSend_ne_fault h.mem_wf frags n f)
  | rxConsume =>
    obtain ⟨-, -, e⟩ := asCommand_fault e
    exact absurd e (acquireOrWait_ne_fault (h.rx.len_written s.rear) f)
  | init c => exact absurd e (execInit_ne_fault c s f)
  | rxByte | rxBoundary => exact absurd e (asRxEvent_ne_fault s _ f)
  | txDmaByte => exact absurd e (h.execTxDmaByte_ne_fault f)

/-- No operation of the poll loop is a CRC command (30_encoding.md R117). -/
theorem Inv.pollLoop_ne_fault {s : State} (h : Inv s) (f : Fault) : Machine.pollLoop s ≠ .fault f := by
  intro e
  obtain ⟨i, l, v, hi, -, heq⟩ := pollLoop_cases s
  have hcrc : isCrcCommand i := ((h.withEnv v).setLoop l).exec_fault (heq ▸ e)
  obtain rfl | rfl | rfl := hi <;> simp [isCrcCommand] at hcrc

/-- POLL going on by itself stops in a fault only inside a held CRC.APPEND. -/
theorem Inv.resumePoll_fault {s : State} {f : Fault} (h : Inv s) (e : Machine.resumePoll s = .fault f) :
    ∃ buf len, s.poll = .appendWait buf len ∧ ¬ owned s buf := by
  unfold Machine.resumePoll at e
  split at e
  case h_1 =>
    split at e
    · exact absurd e (h.pollLoop_ne_fault f)
    · cases e
  case h_2 => exact absurd e (acquireOrWait_ne_fault (h.rx.len_written s.rear) f)
  case h_3 => exact absurd e (consumeClaimed_ne_fault (h.rx.len_written s.rear) f)
  case h_4 => cases e
  case h_5 => cases e
  case h_6 frags n w _ => exact absurd e (resumeSend_ne_fault h.mem_wf frags n w f)
  case h_7 buf len hp =>
    refine ⟨buf, len, hp, fun ho => ?_⟩
    rw [resumeAppend_owned ho] at e
    cases e

/-- Settles O55, by the agent that moves: IRQ never faults, POLL only going on with a held append, a record only as a CRC
command. -/
theorem onlyCrcCommandsFault : Obligations.OnlyCrcCommandsFault := by
  unfold Obligations.OnlyCrcCommandsFault
  intro s f h hfault
  obtain ⟨-, -, hs⟩ | ⟨e, hm, hs⟩ | ⟨e, r, rest, ha, -, hs⟩ := step_cases s
  · rw [hs] at hfault
    cases hfault
  · obtain ⟨buf, len, hp, ho⟩ := (h.withEnv e).resumePoll_fault (hs ▸ hfault)
    exact .inr ⟨buf, len, e, hp, hm, ho, (step_appendWait (s := s) hp hm).trans (resumeAppend_free ho len)⟩
  · rw [hs] at hfault
    obtain ⟨i, hd, hrun⟩ := runRecord_fault hfault
    exact .inl ⟨r, rest, i, e, ha, hd, (h.withEnv e).exec_fault (hrun ▸ hfault), hs.trans hrun⟩

end Sys2Proof.Machine
end

section
/-! SUPPORT. The statements about reset and bring-up (70_reset_and_hazards.md): INIT, where it is refused, what runs
before it, and the hardware reset. -/

namespace Sys2Proof.Machine

/-! ### INIT (R291, R292) -/

/-- INIT before bring-up is decided by its parameters alone (R293). -/
theorem exec_init_down {s : State} (hu : s.up = false) (c : Cfg) : exec (.init c) s =
    if c.legal then if c.dualRx then .refused .dualRx else .next (register (phyScan (bringUp c s)).2)
    else .refused .operandOutOfType :=
  if_neg (Bool.eq_false_iff.1 hu)

theorem exec_init_single {s : State} {c : Cfg} (hu : s.up = false) (hl : c.legal = true) (hd : c.dualRx = false) :
    exec (.init c) s = .next (register (scanFrom scanAddresses (bringUp c s)).2) :=
  (exec_init_down hu c).trans ((if_pos hl).trans (if_neg (Bool.eq_false_iff.1 hd)))

/-- A scan finds a first address that answers, or none of the 32 does (42_phy_link_stats.md R181). -/
theorem scanAnswer_first_or_none (e : Env) :
    (∃ a : U5, (∀ k, k < a.toNat → scanAnswer k e = 0xFFFF#16) ∧ scanAnswer a.toNat e ≠ 0xFFFF#16) ∨
    ∀ k, k < 32 → scanAnswer k e = 0xFFFF#16 := by
  by_cases h : ∃ k, scanAnswer k e ≠ 0xFFFF#16
  · have hbefore : ∀ k, k < Nat.find h → scanAnswer k e = 0xFFFF#16 := fun k hk => not_not.1 (Nat.find_min h hk)
    by_cases hlt : Nat.find h < 32
    · refine .inl ⟨BitVec.ofNatLT (Nat.find h) hlt, ?_⟩
      rw [BitVec.toNat_ofNatLT]
      exact ⟨hbefore, Nat.find_spec h⟩
    · exact .inr fun k hk => hbefore k (by omega)
  · exact .inr fun k _ => not_not.1 (not_exists.1 h k)

/-- Settles O45: the scan starts from the reset values of `bringUp`, and ends at the first address that answers or after the
last one. -/
theorem initResult : Obligations.InitResult := by
  unfold Obligations.InitResult
  intro s c hu hl hd
  rw [exec_init_single hu hl hd]
  obtain ⟨a, hbefore, hhit⟩ | hnone := scanAnswer_first_or_none s.env
  · refine ⟨s.crc, _, _, _, _, ?_, .inl ⟨a, hbefore, hhit, rfl, rfl, rfl, rfl⟩⟩
    rw [scanFrom_found scanAddresses (bringUp c s) a.toNat a (scanAddresses_get a) hbefore hhit]
    simp only [register, bringUp, Counters.zero]
  · refine ⟨s.crc, _, _, _, _, ?_, .inr ⟨hnone, rfl, rfl, rfl, rfl⟩⟩
    rw [scanFrom_none scanAddresses (bringUp c s) (List.ne_nil_of_length_pos (by decide)) hnone, scanAddresses_length]
    simp only [register, bringUp, Counters.zero]

/-! ### What is refused, and what is ignored (R293, R298) -/

/-- A configuration outside the bounds is not legal (00_scope.md R7). -/
theorem not_legal_of_out_of_bounds {c : Cfg}
    (h : c.lwm < 2 ∨ 3 < c.lwm ∨ c.n < c.lwm + 1 ∨ c.slotCap < 1524 ∨ c.txCap < 64 ∨ c.tMdio < 1) :
    ¬ c.legal = true := by
  intro hl
  have hbounds := Cfg.legal_bounds hl
  omega

/-- Settles O46: INIT looks at bring-up first, then at the bounds, then at DUAL_RX. -/
theorem initRefused : Obligations.InitRefused := by
  unfold Obligations.InitRefused
  intro s c
  refine ⟨fun hu => if_pos hu, fun hu hl hd => ?_, fun hu hout => ?_⟩
  · rw [exec_init_down hu, if_pos hl, if_pos hd]
  · rw [exec_init_down hu, if_neg (not_legal_of_out_of_bounds hout)]

theorem whenUp_down {s : State} (hu : s.up = false) (k : Outc) : whenUp s k = .refused .notInitialised :=
  if_neg (Bool.eq_false_iff.1 hu)

theorem asRxEvent_down {s : State} (hu : s.up = false) (k : Outc) : asRxEvent s k = .next s :=
  if_neg (Bool.eq_false_iff.1 hu)

theorem execTxDmaByte_down {s : State} (hu : s.up = false) : execTxDmaByte s = .next s :=
  if_neg (by simp [hu])

/-- Settles O47: every command but INIT is behind the guard `whenUp`, and each event looks at bring-up itself. -/
theorem beforeInit : Obligations.BeforeInit := by
  unfold Obligations.BeforeInit
  intro s i hu
  refine ⟨?_, fun hinit hbyte hboundary hdma => ?_⟩
  · rintro (⟨b, rfl⟩ | rfl | rfl)
    · exact asRxEvent_down hu _
    · exact asRxEvent_down hu _
    · exact execTxDmaByte_down hu
  · cases i with
    | init c => exact absurd rfl (hinit c)
    | rxByte b => exact absurd rfl (hbyte b)
    | rxBoundary => exact absurd rfl hboundary
    | txDmaByte => exact absurd rfl hdma
    | _ => exact whenUp_down hu _

/-! ### The hardware reset (R290, R296) -/

/-- What is left of the state before a hardware reset is what is not the block's (log 28). -/
theorem hardwareReset_congr {s u : State} (hcfg : u.cfg = s.cfg) (hcallers : u.callers = s.callers)
    (htrace : u.trace = s.trace) (henv : u.env = s.env) : hardwareReset u = hardwareReset s := by
  unfold hardwareReset
  rw [hcfg, hcallers, htrace, henv]

/-- Settles O49: the reset writes the values of `bringUp`, and reads nothing of the block's own state. -/
theorem hardwareResetDiscardsState : Obligations.HardwareResetDiscardsState := by
  unfold Obligations.HardwareResetDiscardsState
  intro s x
  refine ⟨rfl, rfl, fun u hcfg hcallers htrace henv => ?_⟩
  rw [hardwareReset_congr hcfg hcallers htrace henv]

end Sys2Proof.Machine
end
